-- ==== Sys2Proof/Word.lean ====
section
/-! DEFINITION. Word.lean: the three word sizes of the spec (00_scope R10: u8, u16, u32, all unsigned) and their plainest arithmetic. -/

namespace Sys2Proof

/-- u8 of R10. -/
abbrev Byte := BitVec 8

/-- u16 of R10. -/
abbrev Half := BitVec 16

/-- u32 of R10. -/
abbrev Word := BitVec 32

end Sys2Proof
end

