-- ==== Sys2Proof/Config.lean ====
section
/-! DEFINITION. Config.lean: the fixed parameters of 00_scope R8, the policies the source leaves open (R9), and the free values
(constants with no body, so that no proof can see what they are). -/

namespace Sys2Proof.Config

/-- `BLOCK_PAYLOAD` (R8): payload bytes of one block frame. -/
@[simp] abbrev blockPayload : Nat := 32

/-- `BLOCK_LEN` (R8): payload plus one checksum byte. -/
@[simp] abbrev blockLen : Nat := 33

/-- `RESP_LEN` (R8): header, 32 payload bytes, checksum. -/
@[simp] abbrev respLen : Nat := 34

/-- `BP_IMAGE_LEN` (R8). -/
@[simp] abbrev bpImageLen : Nat := 224

/-- `BP_ENTRIES` (R8): entries 1..20. -/
@[simp] abbrev bpEntries : Nat := 20

/-- `BP_ENTRY_LEN` (R8). -/
@[simp] abbrev bpEntryLen : Nat := 10

/-- `BP_MAGIC0` (R8). -/
@[simp] abbrev bpMagic0 : Byte := 0x6D

/-- `BP_MAGIC1` (R8). -/
@[simp] abbrev bpMagic1 : Byte := 0xA4

/-- `BP_BLOCKS` (R8): 32-byte blocks of the band-plan image. -/
@[simp] abbrev bpBlocks : Nat := 7

/-- `BP_INDEX_BASE` (R8): device block index of band-plan block 0. -/
@[simp] abbrev bpIndexBase : Nat := 208

/-- `CH_COUNT` (R8): channels 1..198. -/
@[simp] abbrev chCount : Nat := 198

/-- `CH_INDEX_OFFSET` (R8): device block index = channel index + 1. -/
@[simp] abbrev chIndexOffset : Nat := 1

/-- `FREQ_SCALE` (R8): frequency words per MHz. -/
@[simp] abbrev freqScale : Nat := 100000

/-- `BP_FREQ_MIN_MHZ` (R8) as a word: 18 MHz (R137). -/
@[simp] abbrev bpFreqMinWord : Word := 1800000

/-- `BP_FREQ_MAX_MHZ` (R8) as a word: 1300 MHz (R137). -/
@[simp] abbrev bpFreqMaxWord : Word := 130000000

/-- `CTCSS_MAX` (R8). -/
@[simp] abbrev ctcssMax : Nat := 3000

/-- `NAME_LEN` (R8): bytes of the channel name field. -/
@[simp] abbrev nameLen : Nat := 12

/-- `BAUD` (R8). No rule uses it; the model has no time (R12, R292). -/
@[simp] abbrev baud : Nat := 38400

/-- `BUF_SIZE` (R9, 92 D42). -/
@[simp] abbrev bufSize : Nat := 224

/-- `GROUP_P_POLICY` (R9, R199, 92 D27): what the letter P means in a group string. -/
inductive GroupPPolicy where
  | skip      -- 'P' is no valid letter
  | overflow  -- 'P' has the value 16
  deriving DecidableEq, Repr, Inhabited

/-- `BP_READ_ACK_POLICY` (R9, R266, 92 D33): what the band-plan read does when a READ round ends Acknowledged. -/
inductive BpReadAckPolicy where
  | cont   -- `Continue`: the loop goes on
  | abort  -- `Abort`: as ChecksumBad
  deriving DecidableEq, Repr, Inhabited

/-- FREE VALUE `BUF_INIT` (R34, R280, 92 D12; log 1): byte `a` of BUF after power-up number `k`. -/
opaque bufInit (k a : Nat) : Byte

/-- FREE VALUE (R9: OPEN, no default; log 7): the policy the machine comes out of reset with. -/
opaque bpReadAckPolicy : BpReadAckPolicy

/-- FREE VALUE (R288, 92 D45; log 9): whether the transport discards the leftover bytes at the round boundary with draw number `k`. -/
opaque dropLeftover (k : Nat) : Bool

/-- FREE VALUE (R273, 93 I20; log 21): byte `k` of what a device sends that never stops sending. -/
opaque deviceByte (k : Nat) : Byte

/-! The spec states no result for some values of the operands of a codec call. The call gives one back all the same, and it is a free value: a
function of the operands, because every result depends only on them (R31; log 29). -/

/-- FREE VALUE (R195 names t in 0..3000; log 29): the word of CTCSS(t) for t above 3000. -/
opaque toneWord (t : Half) : Half

/-- FREE VALUE (R223 names t in 1..3000; log 29): the text of t = 0 and of t above 3000. -/
opaque ctcssText (t : Half) : List Byte

/-- FREE VALUE (R198 names the values 1..15, and 16 only under `Overflow`; log 29): the word of a list that holds another value. -/
opaque groupWord (policy : GroupPPolicy) (values : List Byte) : Half

/-- FREE VALUE (R134 names r in 1..20; log 29): byte `k` of the image after entry `entry`, given as its ten bytes, is written at another `r`. -/
opaque imageByte (img : List Byte) (r : Nat) (entry : List Byte) (k : Nat) : Byte

/-- FREE VALUE (R138 names the entries 1..20; log 29): byte `k` of the ten bytes read as entry `r` for another `r`. -/
opaque entryByte (img : List Byte) (r k : Nat) : Byte

/-- FREE VALUE (R140 names i in 0..6; log 29): byte `k` of the payload of block `i` for another `i`. -/
opaque blockByte (img : List Byte) (i k : Nat) : Byte

/-- FREE VALUE (R135 names BP[1..20]; log 29): byte `k` of the image whose entries stand for a plan, given as its entries' bytes, that has not
20 entries. -/
opaque planByte (plan : List Byte) (k : Nat) : Byte

/-- FREE VALUE (R66, R193 and the array operands of 41 and 42 name their lengths; log 29): byte `k` of the array that stands for a literal of
another length. -/
opaque arrayByte (given : List Byte) (k : Nat) : Byte

end Sys2Proof.Config
end

