-- ==== Sys2Proof/Syntax.lean ====
section
/-! DEFINITION. Syntax.lean: the operand types of the spec's operations and `Instr`, one constructor per row of
spec/opcode_table.json, in the table's order (30_encoding R83). -/

namespace Sys2Proof

/-- The six values of STATE (10_state R20, 93 I1: the two reserved values cannot be expressed). -/
inductive Phase where
  | idle | collecting | checksumOk | checksumBad | acknowledged | incomplete
  deriving DecidableEq, Repr, Inhabited

/-- The two kinds of reset (70 R280): at power-up BUF gets new contents, otherwise it is kept. -/
inductive ResetKind where
  | powerUp | warm
  deriving DecidableEq, Repr, Inhabited

/-- A byte-array operand of a codec call: the array itself, or a snapshot of BUF from offset `off` on,
taken when the call is made (10_state R31, 20_memory R42, 60 R264). -/
inductive Arr where
  | lit (bytes : List Byte)
  | buf (off : Nat)
  deriving DecidableEq, Repr, Inhabited

/-- The band-plan entry (41 R130). -/
structure BPEntry where
  startWord : Word
  endWord   : Word
  maxPower  : Byte
  tx        : BitVec 1
  wrap      : BitVec 1
  mod       : BitVec 3
  bw        : BitVec 3
  deriving DecidableEq, Repr, Inhabited

/-- The channel record (42 R160). -/
structure ChRecord where
  rxWord  : Word
  txWord  : Word
  rxTone  : Half
  txTone  : Half
  txPower : Byte
  groups  : Half
  bw      : BitVec 1
  mod     : BitVec 3
  name    : List Byte
  deriving DecidableEq, Repr, Inhabited

/-- The three classes of a tone word (30 R76, 43 R194). -/
inductive Tone where
  | off
  | ctcss (t : Half)
  | dcs (code : BitVec 9) (inv : BitVec 1)
  deriving DecidableEq, Repr, Inhabited

/-- The four fields of the band-plan flags byte (30 R71). -/
structure BpFlags where
  tx   : BitVec 1
  wrap : BitVec 1
  mod  : BitVec 3
  bw   : BitVec 3
  deriving DecidableEq, Repr, Inhabited

/-- The two fields of the channel mode byte (30 R75). -/
structure ChMode where
  bw  : BitVec 1
  mod : BitVec 3
  deriving DecidableEq, Repr, Inhabited

/-- An exact decimal number m >= 0 (44 R220), as its digits before and after the point. -/
structure Decimal where
  int  : List (Fin 10)
  frac : List (Fin 10)
  deriving DecidableEq, Repr, Inhabited

/-- The two functions of row LE16_PACK_UNPACK (43 R190). -/
inductive Le16Form where
  | pack (v : Half)
  | unpack (b0 b1 : Byte)
  deriving DecidableEq, Repr, Inhabited

/-- The two functions of row LE32_PACK_UNPACK (43 R191). -/
inductive Le32Form where
  | pack (v : Word)
  | unpack (b0 b1 b2 b3 : Byte)
  deriving DecidableEq, Repr, Inhabited

/-- The function of row DCS_DIGITS and its inverse (43 R196). -/
inductive DcsForm where
  | digits (code : BitVec 9)
  | code (d2 d1 d0 : BitVec 3)
  deriving DecidableEq, Repr, Inhabited

/-- One constructor per row of spec/opcode_table.json. -/
inductive Instr where
  -- classifier bytes (R61, R62)
  | hdr
  | ack1
  | ackE
  | ackF
  | noise (b : Byte)
  | data (b : Byte)
  | chk (b : Byte)
  -- classifier controls (R104, R105, R106, R108)
  | eos
  | terminalHold (b : Byte)
  | start (base : Byte)
  | reset (kind : ResetKind)
  -- host commands (R66); the checksum byte of WRITE is fixed by its payload
  | cmdE
  | cmdF
  | cmdI
  | cmdRead (idx : Byte)
  | cmdWrite (idx : Byte) (p : List Byte)
  -- band-plan codec (41)
  | bpFlagsPack (tx wrap : BitVec 1) (mod bw : BitVec 3)
  | bpFlagsUnpack (f : Byte)
  | bpEntryEncode (img : Arr) (r : Nat) (entry : BPEntry)
  | bpEncode (plan : List BPEntry)
  | bpMagicOk (img : Arr)
  | bpEntryValid (s t : Word)
  | bpEntryDecode (img : Arr) (r : Nat)
  | bpDecode (img : Arr)
  | bpBlock (img : Arr) (i : Nat)
  -- channel codec (42)
  | chModePack (bw : BitVec 1) (mod : BitVec 3)
  | chModeUnpack (m : Byte)
  | chNamePack (block : Arr) (name : List Byte)
  | chNameUnpack (block : Arr)
  | chEncode (c : ChRecord)
  | chDecode (block : Arr)
  -- word sub-codecs (43)
  | le16PackUnpack (form : Le16Form)
  | le32PackUnpack (form : Le32Form)
  | checksum8 (p : Arr)
  | toneClassify (w : Half)
  | toneCompose (t : Tone)
  | dcsDigits (form : DcsForm)
  | groupUnpack (g : Half)
  | groupPack (vs : List Byte)
  -- text forms (44)
  | freqFromMhz (m : Decimal)
  | freqToMhz (w : Word)
  | toneToString (w : Half)
  | ctcssText (t : Half)
  | stringToTone (str : List Byte)
  | stringToGroup (str : List Byte)
  | groupToString (g : Half)
  deriving DecidableEq, Repr, Inhabited

end Sys2Proof
end

