-- ==== Sys2Proof/Machine/Bits.lean ====
section
/-! DEFINITION. Machine/Bits.lean: byte order, access to a byte-array operand, the 8-bit block checksum (20_memory R43, R44; 43 R190,
R191, R193) and ASCII digits. Plain functions on words and byte lists: no state. -/

namespace Sys2Proof.Machine

/-- `LE16_PACK` (R190): the least significant byte first. -/
def le16Pack (v : Half) : List Byte := [v.extractLsb' 0 8, v.extractLsb' 8 8]

/-- `LE16_UNPACK` (R190): `b1 ++ b0`. -/
def le16Unpack (b0 b1 : Byte) : Half := b1 ++ b0

/-- `LE32_PACK` (R191). -/
def le32Pack (v : Word) : List Byte :=
  [v.extractLsb' 0 8, v.extractLsb' 8 8, v.extractLsb' 16 8, v.extractLsb' 24 8]

/-- `LE32_UNPACK` (R191): `b3 ++ b2 ++ b1 ++ b0`. -/
def le32Unpack (b0 b1 b2 b3 : Byte) : Word := b3 ++ b2 ++ b1 ++ b0

/-- `B[a]` for a byte-array operand (R11). The operand types (93 I25) keep `a` inside the array. -/
def byteAt (B : List Byte) (a : Nat) : Byte := B.getD a 0

/-- `MemRead(B, a, 2)` (R44). -/
def memRead16 (B : List Byte) (a : Nat) : Half := le16Unpack (byteAt B a) (byteAt B (a + 1))

/-- `MemRead(B, a, 4)` (R44). -/
def memRead32 (B : List Byte) (a : Nat) : Word :=
  le32Unpack (byteAt B a) (byteAt B (a + 1)) (byteAt B (a + 2)) (byteAt B (a + 3))

/-- `MemWrite` (R44) and single-byte stores into an operand array: `B[a + k] <- bs[k]`. -/
def memWrite (B : List Byte) (a : Nat) (bs : List Byte) : List Byte :=
  B.take a ++ bs ++ B.drop (a + bs.length)

/-- `B[a .. a+n-1]`. -/
def slice (B : List Byte) (a n : Nat) : List Byte := (B.drop a).take n

/-- `CHECKSUM8` (R193): the sum of the bytes modulo 256. -/
def checksum8Of (p : List Byte) : Byte := p.sum

/-- The ASCII digit `0x30 + d` (R222). -/
def digitByte (d : Nat) : Byte := BitVec.ofNat 8 (0x30 + d)

/-- The value of an ASCII digit, if it is one (R225 `DIGITS`). -/
def digitOf (b : Byte) : Option (Fin 10) :=
  if h : 0x30 ≤ b.toNat ∧ b.toNat < 0x30 + 10 then some ⟨b.toNat - 0x30, by omega⟩ else none

/-- The exact value of a decimal is `mant / 10 ^ places` (R220, R225). -/
def mant (d : Decimal) : Nat := (d.int ++ d.frac).foldl (fun acc x => 10 * acc + x.val) 0

/-- The number of decimal places. -/
def places (d : Decimal) : Nat := d.frac.length

/-- `floor(v * scale + 1/2)` for the exact value `v` of a decimal: halves round up (R220, R224; 92 D29, D32). -/
def roundScaled (d : Decimal) (scale : Nat) : Nat :=
  (2 * mant d * scale + 10 ^ places d) / (2 * 10 ^ places d)

end Sys2Proof.Machine
end

