-- ==== Sys2Proof/Machine/Flags.lean ====
section
/-! DEFINITION. Machine/Flags.lean: the packed flag bytes of the records (30_encoding R71, R75; 41 R132, R133; 42 R162, R163), the names
of their enumerations (R72, R73, R75), and the numeric code of STATE (10_state R20), the block's only status (R30). -/

namespace Sys2Proof.Machine

/-- `BP_FLAGS_PACK` (R132), pattern `BBBMMMWT`. -/
def bpFlagsPack (f : BpFlags) : Byte :=
  f.tx.setWidth 8 ||| (f.wrap.setWidth 8 <<< 1) ||| (f.mod.setWidth 8 <<< 2) ||| (f.bw.setWidth 8 <<< 5)

/-- `BP_FLAGS_UNPACK` (R133): `tx = f[0]; wrap = f[1]; mod = f[4:2]; bw = f[7:5]`. -/
def bpFlagsUnpack (f : Byte) : BpFlags :=
  { tx := f.extractLsb' 0 1, wrap := f.extractLsb' 1 1, mod := f.extractLsb' 2 3, bw := f.extractLsb' 5 3 }

/-- `CH_MODE_PACK` (R162), pattern `0000MMMB`. -/
def chModePack (m : ChMode) : Byte := m.bw.setWidth 8 ||| (m.mod.setWidth 8 <<< 1)

/-- `CH_MODE_UNPACK` (R163): `bw = m[0]; mod = m[3:1]`, bits 7:4 ignored. -/
def chModeUnpack (m : Byte) : ChMode := { bw := m.extractLsb' 0 1, mod := m.extractLsb' 1 3 }

/-- The number of each value of STATE (R20). -/
def phaseCode : Phase → BitVec 3
  | .idle => 0
  | .collecting => 1
  | .checksumOk => 2
  | .checksumBad => 3
  | .acknowledged => 4
  | .incomplete => 5

/-- The terminal states (R21). -/
def terminal : Phase → Bool
  | .idle => false
  | .collecting => false
  | .checksumOk => true
  | .checksumBad => true
  | .acknowledged => true
  | .incomplete => true

/-- The band-plan modulation names (R72). -/
inductive BpModulation where
  | ignore | fm | am | usb | enforceFM | enforceAM | enforceUSB | enforceNone
  deriving DecidableEq, Repr

/-- The band-plan bandwidth names (R73). -/
inductive BpBandwidth where
  | ignore | wide | narrow | enforceWide | enforceNarrow | fmTuner
  deriving DecidableEq, Repr

/-- The channel bandwidth names (R75). -/
inductive ChBandwidth where
  | wide | narrow
  deriving DecidableEq, Repr

/-- The channel modulation names (R75). -/
inductive ChModulation where
  | auto | fm | am | usb
  deriving DecidableEq, Repr

/-- The name of a band-plan `modulationIndex`: its position in the source's list (R72, 92 D17). -/
def bpModulationName (m : BitVec 3) : BpModulation :=
  match m.toNat with
  | 0 => .ignore
  | 1 => .fm
  | 2 => .am
  | 3 => .usb
  | 4 => .enforceFM
  | 5 => .enforceAM
  | 6 => .enforceUSB
  | _ => .enforceNone

/-- The name of a band-plan `bandwidthIndex`; 6 and 7 are reserved and have none (R73, 93 I3). -/
def bpBandwidthName (b : BitVec 3) : Option BpBandwidth :=
  match b.toNat with
  | 0 => some .ignore
  | 1 => some .wide
  | 2 => some .narrow
  | 3 => some .enforceWide
  | 4 => some .enforceNarrow
  | 5 => some .fmTuner
  | _ => none

/-- The name of a channel `bandwidthIndex` (R75). -/
def chBandwidthName (b : BitVec 1) : ChBandwidth := if b = 0 then .wide else .narrow

/-- The name of a channel `modulationIndex`; 4..7 are reserved and have none (R75, 93 I4). -/
def chModulationName (m : BitVec 3) : Option ChModulation :=
  match m.toNat with
  | 0 => some .auto
  | 1 => some .fm
  | 2 => some .am
  | 3 => some .usb
  | _ => none

end Sys2Proof.Machine
end

