-- ==== Sys2Proof/Machine/WordCodec.lean ====
section
/-! DEFINITION. Machine/WordCodec.lean: the tone and group sub-codecs as pure functions (43_word_codecs R194-R199). -/

namespace Sys2Proof.Machine

/-- `TONE_CLASSIFY` (R194): the algorithm of the source, the first matching class winning (R76, 90 C5, C6). -/
def toneClassify (w : Half) : Tone :=
  if 1 ≤ w.toNat ∧ w.toNat ≤ Config.ctcssMax then .ctcss w
  else if w &&& 0x8000 ≠ 0 then
    if (w &&& 0x3FFF).toNat < 512 then .dcs (w.extractLsb' 0 9) (w.extractLsb' 14 1) else .off
  else .off

/-- `TONE_COMPOSE` (R195). -/
def toneCompose : Tone → Half
  | .off => 0
  | .ctcss t => t
  | .dcs code inv => (0x8000 : Half) ||| code.setWidth 16 ||| (inv.setWidth 16 <<< 14)

/-- `DCS_DIGITS` (R196): three 3-bit groups, most significant first. -/
def dcsDigits (code : BitVec 9) : BitVec 3 × BitVec 3 × BitVec 3 :=
  (code.extractLsb' 6 3, code.extractLsb' 3 3, code.extractLsb' 0 3)

/-- The inverse of `DCS_DIGITS` (R196): `d2*64 + d1*8 + d0`. -/
def dcsCode (d2 d1 d0 : BitVec 3) : BitVec 9 :=
  BitVec.ofNat 9 (d2.toNat * 64 + d1.toNat * 8 + d0.toNat)

/-- Nibble `k` of a group word (R78). -/
def nibble (g : Half) (k : Nat) : Byte := (g.extractLsb' (4 * k) 4).setWidth 8

/-- `GROUP_UNPACK` (R197): lowest nibble first, zero nibbles skipped. -/
def groupUnpack (g : Half) : List Byte :=
  [nibble g 0, nibble g 1, nibble g 2, nibble g 3].filter (fun v => v != 0)

/-- `GROUP_PACK` (R198): last value first, `acc <- ((acc << 4) | v) mod 65536`. -/
def groupPack (vs : List Byte) : Half :=
  vs.foldr (fun v acc => (acc <<< 4) ||| v.setWidth 16) 0

end Sys2Proof.Machine
end

