-- ==== Sys2Proof/Machine/TextCodec.lean ====
section
/-! DEFINITION. Machine/TextCodec.lean: the reference text forms as pure functions (44_text_codecs R220-R228). Strings are lists of ASCII
bytes. -/

namespace Sys2Proof.Machine

/-- The word of `FREQ_FROM_MHZ` before the bound is checked (R220): `floor(m * 100000 + 1/2)`. -/
def freqWordOf (m : Decimal) : Nat := roundScaled m Config.freqScale

/-- Decimal digits of `n` put before `acc`; `fuel` bounds the number of digits. -/
def natTextAux : Nat → Nat → List Byte → List Byte
  | 0, _, acc => acc
  | fuel + 1, n, acc =>
    if n < 10 then digitByte n :: acc else natTextAux fuel (n / 10) (digitByte (n % 10) :: acc)

/-- `n` in decimal without leading zeros, "0" for 0 (R223); every use has `n < 10^10`. -/
def natText (n : Nat) : List Byte := natTextAux 10 n []

/-- The display of `FREQ_TO_MHZ` (R221): `w / 100000` with exactly 5 decimal places. -/
def mhzText (w : Word) : List Byte :=
  let q := w.toNat / Config.freqScale
  let r := w.toNat % Config.freqScale
  natText q ++ [0x2E, digitByte (r / 10000), digitByte (r / 1000 % 10), digitByte (r / 100 % 10),
    digitByte (r / 10 % 10), digitByte (r % 10)]

/-- `CTCSS_TEXT` (R223): `floor(t/10)`, a point, `t mod 10`. -/
def ctcssTextOf (t : Half) : List Byte := natText (t.toNat / 10) ++ [0x2E, digitByte (t.toNat % 10)]

/-- The ASCII digit of an octal digit (R222). -/
def octalByte (d : BitVec 3) : Byte := digitByte d.toNat

/-- The text of a DCS code (R222): "D", three octal digits, "I" or "N". -/
def dcsText (code : BitVec 9) (inv : BitVec 1) : List Byte :=
  let d := dcsDigits code
  [0x44, octalByte d.1, octalByte d.2.1, octalByte d.2.2, if inv = 1 then 0x49 else 0x4E]

/-- `toneWordToString` (R222). -/
def toneText (w : Half) : List Byte :=
  match toneClassify w with
  | .ctcss t => ctcssTextOf t
  | .dcs code inv => dcsText code inv
  | .off => [0x4F, 0x66, 0x66]

/-- The digits a text opens with, and the rest (R225 `DIGITS`, possibly none). -/
def spanDigits : List Byte → List (Fin 10) × List Byte
  | [] => ([], [])
  | b :: rest =>
    match digitOf b with
    | some d => (d :: (spanDigits rest).1, (spanDigits rest).2)
    | none => ([], b :: rest)

/-- A text without its sign, if it has one (R225 `SIGN?`). The sign does not matter, because R224 takes `|t|`. -/
def dropSign : List Byte → List Byte
  | [] => []
  | b :: rest => if b = 0x2B ∨ b = 0x2D then rest else b :: rest

/-- `NUMBER` (R225), the whole text: the magnitude of the value, or none where the text does not match. -/
def parseNumber (str : List Byte) : Option Decimal :=
  let p := spanDigits (dropSign str)
  match p.2 with
  | [] => if p.1 = [] then none else some { int := p.1, frac := [] }
  | b :: rest =>
    let q := spanDigits rest
    if b = 0x2E ∧ q.2 = [] ∧ ¬ (p.1 = [] ∧ q.1 = []) then some { int := p.1, frac := q.1 } else none

/-- An octal digit "0".."7" (R226). -/
def octalOf (b : Byte) : Option (BitVec 3) :=
  if 0x30 ≤ b.toNat ∧ b.toNat ≤ 0x37 then some (b.extractLsb' 0 3) else none

/-- The polarity letter "N" or "I" (R226). -/
def polarityOf (b : Byte) : Option (BitVec 1) :=
  if b = 0x4E then some 0 else if b = 0x49 then some 1 else none

/-- `DCS_TEXT` (R226), the whole text, case-sensitive. -/
def parseDcs : List Byte → Option Tone
  | [h, b2, b1, b0, x] =>
    match octalOf b2, octalOf b1, octalOf b0, polarityOf x with
    | some d2, some d1, some d0, some inv => if h = 0x44 then some (.dcs (dcsCode d2 d1 d0) inv) else none
    | _, _, _, _ => none
  | _ => none

/-- The second test of `stringToToneWord` (R224): `DCS_TEXT`, else 0. -/
def dcsOrOff (str : List Byte) : Half :=
  match parseDcs str with
  | some t => toneCompose t
  | none => 0

/-- `stringToToneWord` (R224). DESIGN CHOICE (log 33): for a number strictly between 300.04 and 300.05, such as 300.041, the pseudocode of R224
gives 3000 and its corner case (8) gives 0; the model follows the pseudocode. DESIGN CHOICE (log 32): a text with a byte 0x80..0xFF, which is no
string of file 44 (its strings are ASCII), is read by the same pseudocode and gives 0. -/
def toneWordOf (str : List Byte) : Half :=
  match parseNumber str with
  | some d => if roundScaled d 10 ≤ Config.ctcssMax then BitVec.ofNat 16 (roundScaled d 10) else dcsOrOff str
  | none => dcsOrOff str

/-- `letterValue` for a valid letter (R199, R227): 'A'..'O', and 'P' under `Overflow`. DESIGN CHOICE (log 32): a byte 0x80..0xFF, which is in no
string of file 44 (its strings are ASCII), is no letter and is skipped. -/
def letterValue (pol : Config.GroupPPolicy) (ch : Byte) : Option Byte :=
  if (0x41 ≤ ch.toNat ∧ ch.toNat ≤ 0x4F) ∨ (ch = 0x50 ∧ pol = .overflow) then some (ch - 0x40) else none

/-- `stringToGroupWord` (R227). -/
def groupWordOf (pol : Config.GroupPPolicy) (str : List Byte) : Half := groupPack (str.filterMap (letterValue pol))

/-- `groupWordToString` (R228). -/
def groupText (g : Half) : List Byte := (groupUnpack g).map (fun v => 0x40 + v)

end Sys2Proof.Machine
end

