-- ==== Sys2Proof/WellFormed.lean ====
section
/-! DEFINITION. WellFormed.lean: the operand types of the spec that `Instr` does not carry in its fields' Lean types. Each check is a Bool. An
instruction whose operands fail a check runs all the same: its rule names no result there, and what it gives is a free value (log 29), or the
snapshot leaves BUF (log 14). The field widths of I25 are the fields' Lean types. -/

namespace Sys2Proof

/-- A byte-array operand of `n` bytes: a literal of that length, or a snapshot inside BUF (R40, R42). -/
def Arr.ok (n : Nat) : Arr → Bool
  | .lit bytes => bytes.length == n
  | .buf off => decide (off + n ≤ Config.bufSize)

/-- `name : list of 0..12 bytes, none of them 0x00` (R160). -/
def ChRecord.ok (c : ChRecord) : Bool := decide (c.name.length ≤ Config.nameLen) && c.name.all (fun b => b != 0)

/-- A tone class with t in 0..3000 (R195). -/
def Tone.ok : Tone → Bool
  | .off => true
  | .ctcss t => decide (t.toNat ≤ Config.ctcssMax)
  | .dcs _ _ => true

/-- An entry number 1..20 (R134, R138). -/
def entryIndexOk (r : Nat) : Bool := decide (1 ≤ r) && decide (r ≤ Config.bpEntries)

/-- A value `GROUP_PACK` may be given: 1..15, or 16 under the policy `Overflow` (R198). -/
def groupValueOk (v : Byte) : Bool := decide (1 ≤ v.toNat) && decide (v.toNat ≤ 16)

/-- A byte of class NOISE (R61). -/
def isNoise (b : Byte) : Bool := b != 0x30 && b != 0x31 && b != 0x45 && b != 0x46

/-- The operands are of the types the spec gives them. `START` takes any u8: a base above 192 is refused by its own rule (R106).
`BP_ENTRY_VALID` takes every pair of words (R137: one verdict for every u32 pair). `CH_ENCODE` and `CH_NAME_PACK` take a name of any length,
which they cut (R164, 93 I23). DESIGN CHOICE (log 30): the `.chEncode` arm also takes a name that holds a 0x00 byte, which R160's type excludes and
R164 corner (3) defines for `CH_NAME_PACK` only. DESIGN CHOICE (log 32): the arms `.stringToTone` and `.stringToGroup` also take the bytes
0x80..0xFF, which are in no string of file 44 (its strings are ASCII). -/
def Instr.wf : Instr → Bool
  | .hdr => true
  | .ack1 => true
  | .ackE => true
  | .ackF => true
  | .noise b => isNoise b
  | .data _ => true
  | .chk _ => true
  | .eos => true
  | .terminalHold _ => true
  | .start _ => true
  | .reset _ => true
  | .cmdE => true
  | .cmdF => true
  | .cmdI => true
  | .cmdRead _ => true
  | .cmdWrite _ p => p.length == Config.blockPayload
  | .bpFlagsPack _ _ _ _ => true
  | .bpFlagsUnpack _ => true
  | .bpEntryEncode img r _ => img.ok Config.bpImageLen && entryIndexOk r
  | .bpEncode plan => plan.length == Config.bpEntries
  | .bpMagicOk img => img.ok Config.bpImageLen
  | .bpEntryValid _ _ => true
  | .bpEntryDecode img r => img.ok Config.bpImageLen && entryIndexOk r
  | .bpDecode img => img.ok Config.bpImageLen
  | .bpBlock img i => img.ok Config.bpImageLen && decide (i < Config.bpBlocks)
  | .chModePack _ _ => true
  | .chModeUnpack _ => true
  | .chNamePack block _ => block.ok Config.blockLen
  | .chNameUnpack block => block.ok Config.blockLen
  | .chEncode _ => true  -- a name with a 0x00 byte too: DESIGN CHOICE (log 30)
  | .chDecode block => block.ok Config.blockLen
  | .le16PackUnpack _ => true
  | .le32PackUnpack _ => true
  | .checksum8 p => p.ok Config.blockPayload
  | .toneClassify _ => true
  | .toneCompose t => t.ok
  | .dcsDigits _ => true
  | .groupUnpack _ => true
  | .groupPack vs => vs.all groupValueOk
  | .freqFromMhz _ => true
  | .freqToMhz _ => true
  | .toneToString _ => true
  | .ctcssText t => decide (1 ≤ t.toNat) && decide (t.toNat ≤ Config.ctcssMax)
  | .stringToTone _ => true  -- bytes 0x80..0xFF too: DESIGN CHOICE (log 32)
  | .stringToGroup _ => true  -- bytes 0x80..0xFF too: DESIGN CHOICE (log 32)
  | .groupToString _ => true

end Sys2Proof
end

