-- ==== Sys2Proof/Decode.lean ====
section
/-! DEFINITION. Decode.lean: from the bytes offered at a port of the block to an instruction, and back. A device byte is sorted by STATE and
COUNT (30_encoding R60-R62), a host command by its first byte (R66). The controls and the codec operations have no opcode (R83c, R83d, 92
D39): the port names them, and their operands stand in the bytes in array order, words little-endian (R43; log 10). The decoder is total and
rejects by name. The encoder and the host's table reader stand at the end. -/

namespace Sys2Proof

/-- The functions of the codec that can be called (R83d), the two-way rows once per direction. -/
inductive CodecOp where
  | bpFlagsPack | bpFlagsUnpack | bpEntryEncode | bpEncode | bpMagicOk | bpEntryValid | bpEntryDecode | bpDecode | bpBlock
  | chModePack | chModeUnpack | chNamePack | chNameUnpack | chEncode | chDecode
  | le16Pack | le16Unpack | le32Pack | le32Unpack | checksum8 | toneClassify | toneCompose | dcsDigits | dcsCode
  | groupUnpack | groupPack
  | freqFromMhz | freqToMhz | toneToString | ctcssText | stringToTone | stringToGroup | groupToString
  deriving DecidableEq, Repr, Inhabited

/-- Where bytes are offered to the machine. -/
inductive Port where
  /-- the device's byte stream, with STATE and COUNT, by which it is sorted (R60) -/
  | rx (phase : Phase) (count : BitVec 6)
  /-- the end-of-stream event (R104) -/
  | eos
  /-- the START control with its base byte (R106) -/
  | start
  /-- the reset (R108, R280) -/
  | reset (kind : ResetKind)
  /-- a host command frame (R66) -/
  | tx
  /-- a codec call, selected by name (R83d) -/
  | call (op : CodecOp)
  deriving DecidableEq, Repr, Inhabited

/-- Why the decoder refuses bytes. -/
inductive DecodeError where
  /-- the bytes end inside the frame -/
  | shortFrame
  /-- no host command begins with this byte (R66) -/
  | notACommand (b : Byte)
  /-- the last byte of a WRITE frame is not the checksum of its payload (R66) -/
  | badChecksum
  /-- a field holds a value or a pattern that its encoding does not have -/
  | badField
  deriving DecidableEq, Repr, Inhabited

/-- The result of reading something of type `α` off the front of a byte list. -/
inductive Parse (α : Type) where
  | ok (a : α) (rest : List Byte)
  | bad (e : DecodeError)
  deriving DecidableEq, Repr

/-- Go on with what was read and the bytes after it. -/
def Parse.bind {α β : Type} (x : Parse α) (k : α → List Byte → Parse β) : Parse β :=
  match x with
  | .ok a rest => k a rest
  | .bad e => .bad e

/-- One byte. -/
def pByte : List Byte → Parse Byte
  | [] => .bad .shortFrame
  | b :: rest => .ok b rest

/-- A little-endian u16 (R190). -/
def pHalf : List Byte → Parse Half
  | b0 :: b1 :: rest => .ok (Machine.le16Unpack b0 b1) rest
  | _ => .bad .shortFrame

/-- A little-endian u32 (R191). -/
def pWord : List Byte → Parse Word
  | b0 :: b1 :: b2 :: b3 :: rest => .ok (Machine.le32Unpack b0 b1 b2 b3) rest
  | _ => .bad .shortFrame

/-- `n` bytes. -/
def pBytes (n : Nat) (bs : List Byte) : Parse (List Byte) :=
  if n ≤ bs.length then .ok (bs.take n) (bs.drop n) else .bad .shortFrame

/-- A byte-array operand of `n` bytes (log 10): 00 and the bytes, or 01 and the BUF offset of the snapshot. -/
def pArr (n : Nat) (bs : List Byte) : Parse Arr :=
  (pByte bs).bind fun tag rest =>
    if tag = 0 then (pBytes n rest).bind fun a r => .ok (.lit a) r
    else if tag = 1 then (pByte rest).bind fun off r => .ok (.buf off.toNat) r
    else .bad .badField

/-- A band-plan entry as ten bytes in the layout of R70, all 32 bits of each word kept. -/
def pEntry (bs : List Byte) : Parse BPEntry :=
  (pWord bs).bind fun s r1 =>
    (pWord r1).bind fun t r2 =>
      (pByte r2).bind fun p r3 =>
        (pByte r3).bind fun f r4 =>
          let fl := Machine.bpFlagsUnpack f
          .ok { startWord := s, endWord := t, maxPower := p, tx := fl.tx, wrap := fl.wrap, mod := fl.mod, bw := fl.bw } r4

/-- `n` band-plan entries. -/
def pEntries : Nat → List Byte → Parse (List BPEntry)
  | 0, bs => .ok [] bs
  | n + 1, bs => (pEntry bs).bind fun x r => (pEntries n r).bind fun xs r' => .ok (x :: xs) r'

/-- A mode byte whose bits 7:4 are 0 (row CH_MODE_PACK: `0000MMMB`). -/
def pMode (bs : List Byte) : Parse ChMode :=
  (pByte bs).bind fun m r => if m.toNat < 16 then .ok (Machine.chModeUnpack m) r else .bad .badField

/-- A channel record: the fields of R74 in their order, without the unused bytes, the name last and to the end of the bytes. -/
def pRecord (bs : List Byte) : Parse ChRecord :=
  (pWord bs).bind fun rx r1 =>
    (pWord r1).bind fun tx r2 =>
      (pHalf r2).bind fun rt r3 =>
        (pHalf r3).bind fun tt r4 =>
          (pByte r4).bind fun pw r5 =>
            (pHalf r5).bind fun g r6 =>
              (pMode r6).bind fun m r7 =>
                .ok { rxWord := rx, txWord := tx, rxTone := rt, txTone := tt, txPower := pw, groups := g,
                      bw := m.bw, mod := m.mod, name := r7 } []

/-- A tone operand (log 10): 00 Off, 01 CTCSS and its word, 02 DCS and its word in the pattern `1P00000CCCCCCCCC` (R76). -/
def pTone (bs : List Byte) : Parse Tone :=
  (pByte bs).bind fun tag rest =>
    if tag = 0 then .ok .off rest
    else if tag = 1 then (pHalf rest).bind fun t r => .ok (.ctcss t) r
    else if tag = 2 then
      (pHalf rest).bind fun w r =>
        if w &&& 0xBE00 = 0x8000 then .ok (.dcs (w.extractLsb' 0 9) (w.extractLsb' 14 1)) r else .bad .badField
    else .bad .badField

/-- A 9-bit DCS code in the low bits of a u16 (row DCS_DIGITS). -/
def pCode (bs : List Byte) : Parse (BitVec 9) :=
  (pHalf bs).bind fun w r => if w.toNat < 512 then .ok (w.extractLsb' 0 9) r else .bad .badField

/-- An octal digit in a byte. -/
def pOctal (bs : List Byte) : Parse (BitVec 3) :=
  (pByte bs).bind fun b r => if b.toNat < 8 then .ok (b.extractLsb' 0 3) r else .bad .badField

/-- A decimal number written out: digits, a point, digits, to the end of the bytes (log 10). -/
def pDecimal (bs : List Byte) : Parse Decimal :=
  (pByte (Machine.spanDigits bs).2).bind fun point r =>
    if point = 0x2E ∧ (Machine.spanDigits r).2 = [] then
      .ok { int := (Machine.spanDigits bs).1, frac := (Machine.spanDigits r).1 } []
    else .bad .badField

/-- The class of a device byte (R60-R62, R105, R110). -/
def sortByte (phase : Phase) (count : BitVec 6) (b : Byte) : Instr :=
  match phase with
  | .idle =>
    if b = 0x30 then .hdr
    else if b = 0x31 then .ack1
    else if b = 0x45 then .ackE
    else if b = 0x46 then .ackF
    else .noise b
  | .collecting => if count.toNat < Config.blockPayload then .data b else .chk b
  | .checksumOk => .terminalHold b
  | .checksumBad => .terminalHold b
  | .acknowledged => .terminalHold b
  | .incomplete => .terminalHold b

/-- The host commands (R66). -/
def decodeCommand (bs : List Byte) : Parse Instr :=
  (pByte bs).bind fun c rest =>
    if c = 0x45 then .ok .cmdE rest
    else if c = 0x46 then .ok .cmdF rest
    else if c = 0x49 then .ok .cmdI rest
    else if c = 0x30 then (pByte rest).bind fun idx r => .ok (.cmdRead idx) r
    else if c = 0x31 then
      (pByte rest).bind fun idx r1 =>
        (pBytes Config.blockPayload r1).bind fun p r2 =>
          (pByte r2).bind fun k r3 =>
            if k = Machine.checksum8Of p then .ok (.cmdWrite idx p) r3 else .bad .badChecksum
    else .bad (.notACommand c)

/-- The operands of a codec call (R83d; log 10). -/
def decodeCall (op : CodecOp) (bs : List Byte) : Parse Instr :=
  match op with
  | .bpFlagsPack => (pByte bs).bind fun f r =>
      let x := Machine.bpFlagsUnpack f
      .ok (.bpFlagsPack x.tx x.wrap x.mod x.bw) r
  | .bpFlagsUnpack => (pByte bs).bind fun f r => .ok (.bpFlagsUnpack f) r
  | .bpEntryEncode => (pArr Config.bpImageLen bs).bind fun img r1 =>
      (pByte r1).bind fun n r2 => (pEntry r2).bind fun x r3 => .ok (.bpEntryEncode img n.toNat x) r3
  | .bpEncode => (pEntries Config.bpEntries bs).bind fun xs r => .ok (.bpEncode xs) r
  | .bpMagicOk => (pArr Config.bpImageLen bs).bind fun img r => .ok (.bpMagicOk img) r
  | .bpEntryValid => (pWord bs).bind fun s r1 => (pWord r1).bind fun t r2 => .ok (.bpEntryValid s t) r2
  | .bpEntryDecode => (pArr Config.bpImageLen bs).bind fun img r1 =>
      (pByte r1).bind fun n r2 => .ok (.bpEntryDecode img n.toNat) r2
  | .bpDecode => (pArr Config.bpImageLen bs).bind fun img r => .ok (.bpDecode img) r
  | .bpBlock => (pArr Config.bpImageLen bs).bind fun img r1 =>
      (pByte r1).bind fun n r2 => .ok (.bpBlock img n.toNat) r2
  | .chModePack => (pMode bs).bind fun m r => .ok (.chModePack m.bw m.mod) r
  | .chModeUnpack => (pByte bs).bind fun m r => .ok (.chModeUnpack m) r
  | .chNamePack => (pArr Config.blockLen bs).bind fun a r => .ok (.chNamePack a r) []
  | .chNameUnpack => (pArr Config.blockLen bs).bind fun a r => .ok (.chNameUnpack a) r
  | .chEncode => (pRecord bs).bind fun c r => .ok (.chEncode c) r
  | .chDecode => (pArr Config.blockLen bs).bind fun a r => .ok (.chDecode a) r
  | .le16Pack => (pHalf bs).bind fun v r => .ok (.le16PackUnpack (.pack v)) r
  | .le16Unpack => (pByte bs).bind fun b0 r1 => (pByte r1).bind fun b1 r2 => .ok (.le16PackUnpack (.unpack b0 b1)) r2
  | .le32Pack => (pWord bs).bind fun v r => .ok (.le32PackUnpack (.pack v)) r
  | .le32Unpack => (pByte bs).bind fun b0 r1 => (pByte r1).bind fun b1 r2 =>
      (pByte r2).bind fun b2 r3 => (pByte r3).bind fun b3 r4 => .ok (.le32PackUnpack (.unpack b0 b1 b2 b3)) r4
  | .checksum8 => (pArr Config.blockPayload bs).bind fun a r => .ok (.checksum8 a) r
  | .toneClassify => (pHalf bs).bind fun w r => .ok (.toneClassify w) r
  | .toneCompose => (pTone bs).bind fun t r => .ok (.toneCompose t) r
  | .dcsDigits => (pCode bs).bind fun c r => .ok (.dcsDigits (.digits c)) r
  | .dcsCode => (pOctal bs).bind fun d2 r1 => (pOctal r1).bind fun d1 r2 =>
      (pOctal r2).bind fun d0 r3 => .ok (.dcsDigits (.code d2 d1 d0)) r3
  | .groupUnpack => (pHalf bs).bind fun g r => .ok (.groupUnpack g) r
  | .groupPack => .ok (.groupPack bs) []
  | .freqFromMhz => (pDecimal bs).bind fun m r => .ok (.freqFromMhz m) r
  | .freqToMhz => (pWord bs).bind fun w r => .ok (.freqToMhz w) r
  | .toneToString => (pHalf bs).bind fun w r => .ok (.toneToString w) r
  | .ctcssText => (pHalf bs).bind fun t r => .ok (.ctcssText t) r
  | .stringToTone => .ok (.stringToTone bs) []
  | .stringToGroup => .ok (.stringToGroup bs) []
  | .groupToString => (pHalf bs).bind fun g r => .ok (.groupToString g) r

/-- What the bytes offered at a port mean, and the bytes left over. -/
def decode (port : Port) (bs : List Byte) : Parse Instr :=
  match port with
  | .rx phase count => (pByte bs).bind fun b r => .ok (sortByte phase count b) r
  | .eos => .ok .eos bs
  | .start => (pByte bs).bind fun b r => .ok (.start b) r
  | .reset kind => .ok (.reset kind) bs
  | .tx => decodeCommand bs
  | .call op => decodeCall op bs

/-- The bytes of an array operand (inverse of `pArr`). -/
def encodeArr : Arr → List Byte
  | .lit bytes => 0 :: bytes
  | .buf off => [1, BitVec.ofNat 8 off]

/-- The bytes of an entry operand (R70 layout, words whole). -/
def encodeEntry (x : BPEntry) : List Byte :=
  Machine.le32Pack x.startWord ++ Machine.le32Pack x.endWord ++
    [x.maxPower, Machine.bpFlagsPack { tx := x.tx, wrap := x.wrap, mod := x.mod, bw := x.bw }]

/-- The bytes of a record operand. -/
def encodeRecord (c : ChRecord) : List Byte :=
  Machine.le32Pack c.rxWord ++ Machine.le32Pack c.txWord ++ Machine.le16Pack c.rxTone ++ Machine.le16Pack c.txTone ++
    [c.txPower] ++ Machine.le16Pack c.groups ++ [Machine.chModePack { bw := c.bw, mod := c.mod }] ++ c.name

/-- The bytes of a tone operand. -/
def encodeTone : Tone → List Byte
  | .off => [0]
  | .ctcss t => 1 :: Machine.le16Pack t
  | .dcs code inv => 2 :: Machine.le16Pack ((0x8000 : Half) ||| code.setWidth 16 ||| (inv.setWidth 16 <<< 14))

/-- The bytes of a decimal operand. -/
def encodeDecimal (d : Decimal) : List Byte :=
  d.int.map (fun x => Machine.digitByte x.val) ++ [0x2E] ++ d.frac.map (fun x => Machine.digitByte x.val)

/-- The port an instruction is offered at. A byte class is offered in a state it belongs to (R61, R62, R105). -/
def portOf : Instr → Port
  | .hdr => .rx .idle 0
  | .ack1 => .rx .idle 0
  | .ackE => .rx .idle 0
  | .ackF => .rx .idle 0
  | .noise _ => .rx .idle 0
  | .data _ => .rx .collecting 0
  | .chk _ => .rx .collecting 32
  | .eos => .eos
  | .terminalHold _ => .rx .acknowledged 0
  | .start _ => .start
  | .reset kind => .reset kind
  | .cmdE => .tx
  | .cmdF => .tx
  | .cmdI => .tx
  | .cmdRead _ => .tx
  | .cmdWrite _ _ => .tx
  | .bpFlagsPack _ _ _ _ => .call .bpFlagsPack
  | .bpFlagsUnpack _ => .call .bpFlagsUnpack
  | .bpEntryEncode _ _ _ => .call .bpEntryEncode
  | .bpEncode _ => .call .bpEncode
  | .bpMagicOk _ => .call .bpMagicOk
  | .bpEntryValid _ _ => .call .bpEntryValid
  | .bpEntryDecode _ _ => .call .bpEntryDecode
  | .bpDecode _ => .call .bpDecode
  | .bpBlock _ _ => .call .bpBlock
  | .chModePack _ _ => .call .chModePack
  | .chModeUnpack _ => .call .chModeUnpack
  | .chNamePack _ _ => .call .chNamePack
  | .chNameUnpack _ => .call .chNameUnpack
  | .chEncode _ => .call .chEncode
  | .chDecode _ => .call .chDecode
  | .le16PackUnpack (.pack _) => .call .le16Pack
  | .le16PackUnpack (.unpack _ _) => .call .le16Unpack
  | .le32PackUnpack (.pack _) => .call .le32Pack
  | .le32PackUnpack (.unpack _ _ _ _) => .call .le32Unpack
  | .checksum8 _ => .call .checksum8
  | .toneClassify _ => .call .toneClassify
  | .toneCompose _ => .call .toneCompose
  | .dcsDigits (.digits _) => .call .dcsDigits
  | .dcsDigits (.code _ _ _) => .call .dcsCode
  | .groupUnpack _ => .call .groupUnpack
  | .groupPack _ => .call .groupPack
  | .freqFromMhz _ => .call .freqFromMhz
  | .freqToMhz _ => .call .freqToMhz
  | .toneToString _ => .call .toneToString
  | .ctcssText _ => .call .ctcssText
  | .stringToTone _ => .call .stringToTone
  | .stringToGroup _ => .call .stringToGroup
  | .groupToString _ => .call .groupToString

/-- The bytes of an instruction at its port. -/
def encode : Instr → List Byte
  | .hdr => [0x30]
  | .ack1 => [0x31]
  | .ackE => [0x45]
  | .ackF => [0x46]
  | .noise b => [b]
  | .data b => [b]
  | .chk b => [b]
  | .eos => []
  | .terminalHold b => [b]
  | .start base => [base]
  | .reset _ => []
  | .cmdE => [0x45]
  | .cmdF => [0x46]
  | .cmdI => [0x49]
  | .cmdRead idx => [0x30, idx]
  | .cmdWrite idx p => 0x31 :: idx :: (p ++ [Machine.checksum8Of p])
  | .bpFlagsPack tx wrap mod bw => [Machine.bpFlagsPack { tx := tx, wrap := wrap, mod := mod, bw := bw }]
  | .bpFlagsUnpack f => [f]
  | .bpEntryEncode img r x => encodeArr img ++ [BitVec.ofNat 8 r] ++ encodeEntry x
  | .bpEncode plan => plan.flatMap encodeEntry
  | .bpMagicOk img => encodeArr img
  | .bpEntryValid s t => Machine.le32Pack s ++ Machine.le32Pack t
  | .bpEntryDecode img r => encodeArr img ++ [BitVec.ofNat 8 r]
  | .bpDecode img => encodeArr img
  | .bpBlock img i => encodeArr img ++ [BitVec.ofNat 8 i]
  | .chModePack bw mod => [Machine.chModePack { bw := bw, mod := mod }]
  | .chModeUnpack m => [m]
  | .chNamePack a name => encodeArr a ++ name
  | .chNameUnpack a => encodeArr a
  | .chEncode c => encodeRecord c
  | .chDecode a => encodeArr a
  | .le16PackUnpack (.pack v) => Machine.le16Pack v
  | .le16PackUnpack (.unpack b0 b1) => [b0, b1]
  | .le32PackUnpack (.pack v) => Machine.le32Pack v
  | .le32PackUnpack (.unpack b0 b1 b2 b3) => [b0, b1, b2, b3]
  | .checksum8 a => encodeArr a
  | .toneClassify w => Machine.le16Pack w
  | .toneCompose t => encodeTone t
  | .dcsDigits (.digits c) => Machine.le16Pack (c.setWidth 16)
  | .dcsDigits (.code d2 d1 d0) => [d2.setWidth 8, d1.setWidth 8, d0.setWidth 8]
  | .groupUnpack g => Machine.le16Pack g
  | .groupPack vs => vs
  | .freqFromMhz m => encodeDecimal m
  | .freqToMhz w => Machine.le32Pack w
  | .toneToString w => Machine.le16Pack w
  | .ctcssText t => Machine.le16Pack t
  | .stringToTone str => str
  | .stringToGroup str => str
  | .groupToString g => Machine.le16Pack g

/-- The port at which a word of the opcode table is read (log 11): the row with the most fixed bits that fits it, the earlier row on a tie. -/
def tablePort (nbits w : Nat) : Port :=
  if nbits ≤ 8 then
    if w % 256 = 0x49 then .tx
    else if w % 256 < 16 then .call .chModePack
    else .rx .idle 0
  else if nbits ≤ 16 then
    if w % 256 = 0x30 then .tx
    else if (w / 2 ^ 15) % 2 = 1 ∧ (w / 2 ^ 9) % 32 = 0 then .call .toneClassify
    else if w % 2 ^ 16 < 512 then .call .dcsDigits
    else .call .le16Pack
  else if nbits ≤ 32 then .call .le32Pack
  else .tx

/-- The `n` bytes of a word, the first byte lowest. -/
def wordBytes : Nat → Nat → List Byte
  | 0, _ => []
  | n + 1, w => BitVec.ofNat 8 w :: wordBytes n (w / 256)

/-- The bytes of a table word: every bit above `nbits` is 0, up to the longest command frame (35 bytes, R66). -/
def tableBytes (nbits w : Nat) : List Byte := wordBytes 35 (w % 2 ^ nbits)

/-- The instruction the decoder reads from a word of the opcode table (log 11). -/
def decodeTableWord (nbits w : Nat) : Option Instr :=
  match decode (tablePort nbits w) (tableBytes nbits w) with
  | .ok i _ => some i
  | .bad _ => none

end Sys2Proof
end

