-- ==== Sys2Proof/Machine/BandPlanCodec.lean ====
section
/-! DEFINITION. Machine/BandPlanCodec.lean: the band-plan codec as pure functions (41_bandplan_codec R130-R140). An image is a list of 224
bytes, a plan a list of 20 entries; `r` runs over 1..20 as in the spec. -/

namespace Sys2Proof.Machine

/-- `BP_DEFAULT` (R131). -/
def bpDefault : BPEntry :=
  { startWord := 0, endWord := 0, maxPower := 0, tx := 0, wrap := 0, mod := 1, bw := 1 }

/-- Entry base `e = 2 + (r-1)*10` (R70). -/
def entryBase (r : Nat) : Nat := 2 + (r - 1) * Config.bpEntryLen

/-- The bit-31 mask of band-plan frequency words (R79, R192, 92 D18). -/
def freqMask (w : Word) : Word := w &&& 0x7FFFFFFF

/-- The flags of an entry. -/
def entryFlags (entry : BPEntry) : BpFlags :=
  { tx := entry.tx, wrap := entry.wrap, mod := entry.mod, bw := entry.bw }

/-- The ten bytes of an entry (R70, R134). -/
def entryBytes (entry : BPEntry) : List Byte :=
  le32Pack (freqMask entry.startWord) ++ le32Pack (freqMask entry.endWord) ++
    [entry.maxPower, bpFlagsPack (entryFlags entry)]

/-- `BP_ENTRY_ENCODE` (R134). -/
def bpEntryEncode (img : List Byte) (r : Nat) (entry : BPEntry) : List Byte :=
  memWrite img (entryBase r) (entryBytes entry)

/-- The image of `BP_ENCODE` before the entries are written: zeros and the magic (R135). -/
def blankImage : List Byte :=
  Config.bpMagic0 :: Config.bpMagic1 :: List.replicate (Config.bpImageLen - 2) 0

/-- The loop of `BP_ENCODE` (R135): entries `r`, `r+1`, ... written in turn. -/
def encodeEntries (img : List Byte) (r : Nat) : List BPEntry → List Byte
  | [] => img
  | entry :: rest => encodeEntries (bpEntryEncode img r entry) (r + 1) rest

/-- `BP_ENCODE` (R135). -/
def bpEncode (plan : List BPEntry) : List Byte := encodeEntries blankImage 1 plan

/-- `BP_MAGIC_OK` (R136). -/
def bpMagicOk (img : List Byte) : Bool :=
  byteAt img 0 == Config.bpMagic0 && byteAt img 1 == Config.bpMagic1

/-- `BP_ENTRY_VALID` (R137): `0 < s < t`, both in 1800000..130000000. -/
def bpEntryValid (s t : Word) : Bool :=
  decide (0 < s.toNat) && decide (s.toNat < t.toNat) &&
  (decide (Config.bpFreqMinWord.toNat ≤ s.toNat) && decide (s.toNat ≤ Config.bpFreqMaxWord.toNat)) &&
  (decide (Config.bpFreqMinWord.toNat ≤ t.toNat) && decide (t.toNat ≤ Config.bpFreqMaxWord.toNat))

/-- The start word of entry `r`, bit 31 masked (R82, R138). -/
def entryStart (img : List Byte) (r : Nat) : Word := freqMask (memRead32 img (entryBase r))

/-- The end word of entry `r`, bit 31 masked (R82, R138). -/
def entryEnd (img : List Byte) (r : Nat) : Word := freqMask (memRead32 img (entryBase r + 4))

/-- All fields of entry `r`, populated from its bytes (R82). -/
def entryFields (img : List Byte) (r : Nat) : BPEntry :=
  let f := bpFlagsUnpack (byteAt img (entryBase r + 9))
  { startWord := entryStart img r, endWord := entryEnd img r, maxPower := byteAt img (entryBase r + 8),
    tx := f.tx, wrap := f.wrap, mod := f.mod, bw := f.bw }

/-- `BP_ENTRY_DECODE` (R138). -/
def bpEntryDecode (img : List Byte) (r : Nat) : BPEntry :=
  if bpMagicOk img && bpEntryValid (entryStart img r) (entryEnd img r) then entryFields img r else bpDefault

/-- `BP_DECODE` (R139): `BP[r] = BP_ENTRY_DECODE(img, r)` for r = 1..20. -/
def bpDecode (img : List Byte) : List BPEntry :=
  (List.range Config.bpEntries).map (fun k => bpEntryDecode img (k + 1))

/-- The payload of `BP_BLOCK` (R140): `img[32i .. 32i+31]`. -/
def bpBlockPayload (img : List Byte) (i : Nat) : List Byte :=
  slice img (Config.blockPayload * i) Config.blockPayload

end Sys2Proof.Machine
end

