-- ==== Sys2Proof/Machine/ChannelCodec.lean ====
section
/-! DEFINITION. Machine/ChannelCodec.lean: the channel codec as pure functions (42_channel_codec R160-R169). A block is a list of 33 bytes. -/

namespace Sys2Proof.Machine

/-- `CH_INACTIVE` (R161). -/
def chInactive : ChRecord :=
  { rxWord := 0, txWord := 0, rxTone := 0, txTone := 0, txPower := 0, groups := 0, bw := 0, mod := 0, name := [] }

/-- The twelve bytes of the name field (R164): the name cut to 12 bytes and padded with zeros. -/
def nameField (name : List Byte) : List Byte :=
  name.take Config.nameLen ++ List.replicate (Config.nameLen - name.length) 0

/-- `CH_NAME_PACK` (R164): bytes 20..31 of the block. -/
def chNamePack (block name : List Byte) : List Byte := memWrite block 20 (nameField name)

/-- `CH_NAME_UNPACK` (R165): from offset 20 to offset 32 or the first zero byte. -/
def chNameUnpack (block : List Byte) : List Byte :=
  (slice block 20 Config.nameLen).takeWhile (fun b => b != 0)

/-- The mode byte's fields of a record. -/
def chMode (c : ChRecord) : ChMode := { bw := c.bw, mod := c.mod }

/-- Bytes 0..32 of `CH_ENCODE` before the checksum is stored (R166, in the order of its pseudocode). -/
def chFields (c : ChRecord) : List Byte :=
  let b0 := List.replicate Config.blockLen (0 : Byte)
  let b1 := memWrite b0 0 (le32Pack c.rxWord)
  let b2 := memWrite b1 4 (le32Pack c.txWord)
  let b3 := memWrite b2 8 (le16Pack c.rxTone)
  let b4 := memWrite b3 10 (le16Pack c.txTone)
  let b5 := memWrite b4 12 [c.txPower]
  let b6 := memWrite b5 13 (le16Pack c.groups)
  let b7 := memWrite b6 15 [chModePack (chMode c)]
  chNamePack b7 c.name

/-- `CH_ENCODE` (R166): the fields, then `B[32] <- CHECKSUM8(B[0..31])`. -/
def chEncode (c : ChRecord) : List Byte :=
  memWrite (chFields c) 32 [checksum8Of (slice (chFields c) 0 Config.blockPayload)]

/-- All fields of a block with `rx != 0` (R82, R167). -/
def chRecordOf (block : List Byte) : ChRecord :=
  let m := chModeUnpack (byteAt block 15)
  { rxWord := memRead32 block 0, txWord := memRead32 block 4, rxTone := memRead16 block 8,
    txTone := memRead16 block 10, txPower := byteAt block 12, groups := memRead16 block 13,
    bw := m.bw, mod := m.mod, name := chNameUnpack block }

/-- `CH_DECODE` (R167): `CH_INACTIVE` when rx = 0; byte 32 is not looked at (R169). -/
def chDecode (block : List Byte) : ChRecord :=
  if memRead32 block 0 = 0 then chInactive else chRecordOf block

end Sys2Proof.Machine
end

