-- ==== Sys2Proof/Machine/State.lean ====
section
/-! DEFINITION. Machine/State.lean: the state as plain data (10_state R20-R34), what surrounds the block (the link, the host's requests and
its session, 60 R262-R273), the reasons a step can stop, and the machine right after a power-up reset. -/

namespace Sys2Proof.Machine

/-- Why the machine stops. -/
inductive Fault where
  /-- An access to an address of BUF that does not exist (R40: 0..223). Raised by a payload step whose `BASE + COUNT` lies outside, by a host
  access outside, and by a codec call's snapshot outside. SAFE: no state a run reaches makes the classifier raise it. -/
  | noSuchAddress (addr : Nat)
  deriving DecidableEq, Repr

/-- Why a step is refused. -/
inductive Refusal where
  /-- exec: the instruction has no meaning yet. SAFE. No arm answers with it. -/
  | notModelled (mnemonic : String)
  /-- START with `base + 32 > BUF_SIZE` (R41, R106, I17): the spec says it is refused and takes no step. SAFE. -/
  | startBase (base : Byte)
  /-- A byte of a class presented where STATE and COUNT sort bytes otherwise (R60-R62), or NOISE of a byte that R61 sorts otherwise: the spec has
  no such step. SAFE. -/
  | wrongClass
  /-- COUNT is 33..63 in Collecting (I2: refuse, unreachable). SAFE. -/
  | countRange
  /-- FREQ_FROM_MHZ of an m whose word does not fit 32 bits (R220, I24). SAFE. -/
  | freqTooLarge
  /-- A write to STATUS (R26, I19). SAFE. -/
  | statusReadOnly
  /-- A host write to BUF while DONE = 0 (R264, R290, I18). SAFE. -/
  | bufWriteInRound
  /-- The bytes of a host frame or call do not decode. SAFE. -/
  | undecodable (e : DecodeError)
  /-- The bytes of a host frame or call decode and more bytes follow. SAFE. -/
  | longFrame
  deriving DecidableEq, Repr

/-- What a codec call or a host read gives back to the caller. The model's own (log 8): the codec holds no state (R31). -/
inductive Ret where
  | none
  | bit (b : Bool)
  | byte (b : Byte)
  | half (w : Half)
  | word (w : Word)
  | bytes (bs : List Byte)
  | flags (f : BpFlags)
  | mode (m : ChMode)
  | entry (x : BPEntry)
  | plan (xs : List BPEntry)
  | block (p : List Byte) (c : Byte)
  | record (c : ChRecord)
  | tone (t : Tone)
  | code (c : BitVec 9)
  | digits (d2 d1 d0 : BitVec 3)
  /-- `FREQ_TO_MHZ` (R221): the rational `num / den` and its display -/
  | mhz (num den : Nat) (text : List Byte)
  /-- the outputs DONE, OUTCOME and IN_READY (R27) -/
  | outputs (done : Bool) (outcome : Phase) (inReady : Bool)
  deriving DecidableEq, Repr, Inhabited

/-- What the host asks of the block outside the byte stream. -/
inductive HostReq where
  /-- send a command frame (R66) -/
  | command (frame : List Byte)
  /-- call a codec function (R83d) -/
  | call (op : CodecOp) (args : List Byte)
  /-- read `n` bytes of BUF from `a` on (R25, R46c) -/
  | readBuf (a n : Nat)
  /-- write bytes into BUF from `a` on (R25, R46c, R264) -/
  | writeBuf (a : Nat) (bs : List Byte)
  /-- read STATUS (R26) -/
  | readStatus
  /-- write STATUS: not admitted (R26, I19) -/
  | writeStatus (v : Word)
  /-- read DONE, OUTCOME and IN_READY (R27) -/
  | readOutputs
  /-- open the transport (R283) -/
  | openPort
  /-- close the transport, which ends its stream (R265, R285): a running round gets EOS before the host's next request is served -/
  | closePort
  deriving DecidableEq, Repr, Inhabited

/-- The four transactions of the host (R266-R269). -/
inductive Txn where
  | bpRead | bpWrite | chRead | chWrite
  deriving DecidableEq, Repr, Inhabited

/-- The transaction position (R32): where in R266-R269 the host is. -/
inductive Pos where
  /-- no transaction: the busy flag is down -/
  | idle
  /-- about to send E -/
  | hello (t : Txn)
  /-- about to START the handshake round -/
  | helloStart (t : Txn)
  /-- the handshake round runs -/
  | helloWait (t : Txn)
  /-- about to prepare BUF for item `n` (band-plan write: the image; channel read: 33 zeros) -/
  | prepare (t : Txn) (n : Nat)
  /-- about to send READ or WRITE of item `n` -/
  | command (t : Txn) (n : Nat)
  /-- about to START the round of item `n` -/
  | roundStart (t : Txn) (n : Nat)
  /-- the round of item `n` runs -/
  | roundWait (t : Txn) (n : Nat)
  /-- about to send I (`commit`) or F -/
  | goodbye (t : Txn) (commit : Bool)
  /-- band-plan read, F sent: about to decode BUF -/
  | harvest
  deriving DecidableEq, Repr, Inhabited

/-- The record tables of an operation (R32, R130, R160). -/
structure Records where
  /-- BP[1..20] -/
  bp : List BPEntry
  /-- CH[1..198] -/
  ch : List ChRecord
  deriving DecidableEq, Repr

/-- No tables: there is no session. -/
def Records.none : Records := { bp := [], ch := [] }

/-- What triggers an operation (R281): the transaction, and the records its session is created with (log 28). -/
structure Order where
  txn     : Txn
  records : Records
  deriving DecidableEq, Repr

/-- The host's session (R32), which lives as long as one operation (R281), and what the host is asked and told between steps. No rule of the
block reads it. -/
structure Session where
  /-- transaction position; busy = not `idle` (R272) -/
  pos     : Pos
  /-- an operation the user triggers -/
  want    : Option Order
  /-- a transport exception was reported (R270) -/
  failed  : Bool
  /-- the record tables; none while no operation runs (R32) -/
  records : Records
  deriving DecidableEq, Repr

/-- The open parameters (R9). No step changes them. -/
structure Params where
  groupP    : Config.GroupPPolicy
  bpReadAck : Config.BpReadAckPolicy
  deriving DecidableEq, Repr

/-- The link from the device, as one value (R55, R265). -/
structure Link where
  rx     : List Byte
  line   : List (List Byte)
  closed : Bool
  more   : Option Nat
  deriving DecidableEq, Repr

/-- The state of the machine. -/
structure State where
  /-- STATE (R20) -/
  phase    : Phase
  /-- COUNT (R22) -/
  count    : BitVec 6
  /-- CSUM (R23) -/
  csum     : Byte
  /-- BASE (R24) -/
  base     : Byte
  /-- BUF (R25, R40): every address 0..223 and the byte it holds, in order -/
  buf      : List Host.Cell
  /-- device bytes in the transport's hand, not consumed yet, next first (R55, R105, R288) -/
  rx       : List Byte
  /-- chunks the transport has not read yet, next first (91 N5) -/
  line     : List (List Byte)
  /-- the stream ends after those bytes (R104, R265) -/
  closed   : Bool
  /-- where the device sends on for ever after those bytes: the number of its next byte, `Config.deviceByte` (R273, 93 I20; log 21) -/
  more     : Option Nat
  /-- a reset is offered (R108, R280) -/
  resetReq : Option ResetKind
  /-- a START control is offered, with its base (R106) -/
  startReq : Option Byte
  /-- the host's requests, next first (R83, R264) -/
  reqs     : List HostReq
  /-- bytes sent to the device, oldest first (R66) -/
  tx       : List Byte
  /-- the outcome the host expects of the reply to its last command, if it waits for one (R66, R251) -/
  await    : Option Phase
  /-- a round has begun since the host's last command, or was running when it was sent (R251, R263; log 5) -/
  begun    : Bool
  /-- the result of the last call or host read -/
  ret      : Ret
  /-- the host's session (R32) -/
  session  : Session
  /-- the record tables the last operation's session left when it was discarded (R270, R281; log 28) -/
  handed   : Option Records
  /-- the open parameters (R9) -/
  params   : Params
  /-- how many free values have been drawn -/
  draws    : Nat
  deriving DecidableEq, Repr

/-- The contents `BUF_INIT` of BUF after power-up number `k`: a free byte at every address (R34, R280; log 1). -/
def powerUpBuf (k : Nat) : List Host.Cell := (List.range Config.bufSize).map (fun a => (a, Config.bufInit k a))

/-- No operation runs and none is triggered: no position, no tables (R32; log 6). -/
def Session.fresh : Session := { pos := .idle, want := none, failed := false, records := Records.none }

/-- The machine right after a power-up reset (R34, R280), with nothing offered (log 4). -/
def State.reset : State :=
  { phase := .idle, count := 0, csum := 0, base := 0, buf := powerUpBuf 0,
    rx := [], line := [], closed := false, more := none, resetReq := none, startReq := none, reqs := [],
    tx := [], await := none, begun := false, ret := .none, session := Session.fresh, handed := none,
    params := { groupP := .skip, bpReadAck := Config.bpReadAckPolicy }, draws := 1 }

end Sys2Proof.Machine
end

