-- ==== Sys2Proof/Machine/Ops.lean ====
section
/-! DEFINITION. Machine/Ops.lean: the named operations on BUF, on the classifier registers and on what surrounds the block. The spec has no
exception to take and none to return from (60 R250, R256), so there is no such operation: a failed round is an outcome in STATE (R251). -/

namespace Sys2Proof.Machine

/-- One step's outcome. -/
abbrev Result := Host.Outcome State Fault Refusal

/-- What an address that BUF does not list reads as: no byte, because only 0..223 exist (R40) and they are all listed. -/
def Memory.unlisted : Option Byte := none

/-- `BUF[a]` (R11, R47: no side effect). -/
def Memory.read : List Host.Cell → Nat → Option Byte
  | [], _ => Memory.unlisted
  | (k, v) :: rest, a => if k = a then some v else Memory.read rest a

/-- `BUF[a] <- v` (R11). -/
def Memory.write (m : List Host.Cell) (a : Nat) (v : Byte) : List Host.Cell :=
  m.map (fun c => if c.1 = a then (a, v) else c)

/-- `BUF[a .. a+n-1]`, a snapshot (R31), or none where a byte of it does not exist. -/
def Memory.readRange (m : List Host.Cell) : Nat → Nat → Option (List Byte)
  | _, 0 => some []
  | a, n + 1 =>
    match Memory.read m a, Memory.readRange m (a + 1) n with
    | some b, some bs => some (b :: bs)
    | _, _ => none

/-- `BUF[a + k] <- bs[k]` for every k (R25, R46c: the host writes BUF in bytes or in whole arrays). -/
def Memory.writeRange (m : List Host.Cell) (a : Nat) : List Byte → List Host.Cell
  | [] => m
  | b :: bs => Memory.writeRange (Memory.write m a b) (a + 1) bs

/-- The canonical form of BUF: every address 0..223 once, in order. -/
def Memory.wf (m : List Host.Cell) : Bool := m.map Prod.fst == List.range Config.bufSize

/-- `OUTCOME` (R27). -/
def State.outcome (s : State) : Phase := s.phase

/-- `DONE` (R27): 1 exactly when STATE is terminal. -/
def State.done (s : State) : Bool := terminal s.phase

/-- `IN_READY` (R27): 1 exactly when STATE is Idle or Collecting. -/
def State.inReady (s : State) : Bool := s.phase == .idle || s.phase == .collecting

/-- The stream has ended while a round runs: its bytes in hand and then EOS are still to be presented (R265, R285). -/
def State.ending (s : State) : Bool := s.closed && s.inReady

/-- `STATUS` (R26): STATE in bits 2:0, COUNT in 13:8, CSUM in 23:16, BASE in 31:24, the reserved bits 0. -/
def State.status (s : State) : Word :=
  (phaseCode s.phase).setWidth 32 ||| (s.count.setWidth 32 <<< 8) ||| (s.csum.setWidth 32 <<< 16) ||| (s.base.setWidth 32 <<< 24)

/-- A missing acknowledgement (R251 class 2b): the host waits for Acknowledged, and the round of its command has begun and has ended
otherwise. From the sending of E or WRITE until that round begins there is none, whatever the round before ended in (log 5). -/
def State.missingAck (s : State) : Bool :=
  s.await == some .acknowledged && s.begun && s.done && s.phase != .acknowledged

/-- The link's part of the state. -/
def State.link (s : State) : Link := { rx := s.rx, line := s.line, closed := s.closed, more := s.more }

/-- Replace the link. -/
def State.setLink (s : State) (l : Link) : State :=
  { s with rx := l.rx, line := l.line, closed := l.closed, more := l.more }

/-- `STATE <- ph` and nothing else (R101, R104, R109). -/
def State.setPhase (s : State) (ph : Phase) : State := { s with phase := ph }

/-- `STATE <- Collecting; COUNT <- 0; CSUM <- 0` (R100). -/
def State.enterCollecting (s : State) : State := { s with phase := .collecting, count := 0, csum := 0 }

/-- The buffer address of the next payload byte: `BASE + COUNT` (R41). -/
def State.payloadAddr (s : State) : Nat := s.base.toNat + s.count.toNat

/-- `BUF[BASE + COUNT] <- b; CSUM <- CSUM + b mod 256; COUNT <- COUNT + 1` (R102). -/
def State.storePayload (s : State) (b : Byte) : State :=
  { s with buf := Memory.write s.buf s.payloadAddr b, csum := s.csum + b, count := s.count + 1 }

/-- `STATE <- Idle; COUNT <- 0; CSUM <- 0; BASE <- base` (R106; with base 0 also R280). -/
def State.beginRound (s : State) (base : Byte) : State :=
  { s with phase := .idle, count := 0, csum := 0, base := base }

/-- New power-up contents of BUF, a draw (R280). -/
def State.redrawBuf (s : State) : State := { s with buf := powerUpBuf s.draws, draws := s.draws + 1 }

/-- Replace the contents of BUF. -/
def State.setBuf (s : State) (m : List Host.Cell) : State := { s with buf := m }

/-- Open the transport's stream, or end it (R265, R283, R285). -/
def State.setClosed (s : State) (b : Bool) : State := { s with closed := b }

/-- Give a result back to the caller. -/
def State.answer (s : State) (r : Ret) : State := { s with ret := r }

/-- Send bytes to the device, in order, and wait for a reply with the outcome `expect`, if any (R66). A round that runs now was started just
before its command (R263 allows that order), so it is the command's; otherwise the command's round has not begun (log 5). -/
def State.send (s : State) (bs : List Byte) (expect : Option Phase) : State :=
  { s with tx := s.tx ++ bs, await := expect, begun := !s.done }

/-- Move the host's transaction position (R32). -/
def State.setPos (s : State) (p : Pos) : State := { s with session := { s.session with pos := p } }

/-- Store the band-plan records (R266). -/
def State.setPlan (s : State) (xs : List BPEntry) : State :=
  { s with session := { s.session with records := { s.session.records with bp := xs } } }

/-- Store channel record `n`, 1..198 (R268). -/
def State.setChannel (s : State) (n : Nat) (c : ChRecord) : State :=
  { s with session := { s.session with records := { s.session.records with ch := s.session.records.ch.set (n - 1) c } } }

/-- Create the session of an operation (R281), with the records it is triggered with (log 28). -/
def State.beginSession (s : State) (o : Order) : State :=
  { s with session := { s.session with pos := .hello o.txn, records := o.records } }

/-- The operation completes or aborts: its session is discarded (R32, R281), and the records it holds are handed back (R270; log 28). -/
def State.endSession (s : State) : State :=
  { s with session := { s.session with pos := .idle, records := Records.none }, handed := some s.session.records }

/-- Bytes left in the transport's hand after a terminal state are kept or discarded, a free value (R288, 92 D45; log 9). Mid-round they stay
(R291). -/
def State.settleLeftovers (s : State) : State :=
  match s.rx with
  | [] => s
  | b :: bs =>
    if s.done then { s with rx := if Config.dropLeftover s.draws then [] else b :: bs, draws := s.draws + 1 } else s

/-- The round boundary before a START or a reset, after either of which a round runs (R106, R281): the leftover bytes are settled (R288; log 9),
and a round has begun (log 5). -/
def State.boundary (s : State) : State := { s.settleLeftovers with begun := true }

/-- Continue a step that answered a next state. -/
def mapNext (o : Result) (f : State → State) : Result :=
  match o with
  | .next s => .next (f s)
  | .fault r => .fault r
  | .refused r => .refused r

/-- A host write to BUF (R264): only between rounds (I18; log 15) and only where BUF is (R40). DESIGN CHOICE (log 31): R46 (c) names bytes and
whole arrays, not a write of no bytes; between rounds that one changes nothing, and its address is checked against 0..224. -/
def hostWriteBuf (a : Nat) (bs : List Byte) (s : State) : Result :=
  if s.done = false then .refused .bufWriteInRound
  else if a + bs.length ≤ Config.bufSize then .next (s.setBuf (Memory.writeRange s.buf a bs))
  else .fault (.noSuchAddress (a + bs.length - 1))

/-- A host read of BUF (R25, R46c). DESIGN CHOICE (log 31): a read of no bytes, which R46 (c) does not name, gives the empty list at any
address. -/
def hostReadBuf (a n : Nat) (s : State) : Result :=
  match Memory.readRange s.buf a n with
  | some bs => .next (s.answer (.bytes bs))
  | none => .fault (.noSuchAddress (a + n - 1))

end Sys2Proof.Machine
end

