-- ==== Sys2Proof/Machine/Operands.lean ====
section
/-! DEFINITION. Machine/Operands.lean: the byte-array operands of the codec (10_state R31, 20_memory R42, 60 R264) and the shared shape of a
codec call: take the snapshot, give the result back; no register and no byte of BUF changes (R31). Where a rule names no result for a value of
its operands, the call gives a free value back (log 29). -/

namespace Sys2Proof.Machine

/-- `n` free bytes. -/
def freeBytes (n : Nat) (byte : Nat → Byte) : List Byte := (List.range n).map byte

/-- The array of `n` bytes that a literal gives; `n` free bytes where it has another length (log 29). -/
def ofLength (n : Nat) (bytes : List Byte) : List Byte :=
  if bytes.length = n then bytes else freeBytes n (Config.arrayByte bytes)

/-- The bytes of an array operand of `n` bytes: the literal, or the snapshot of BUF taken now. -/
def arrBytes (n : Nat) (a : Arr) (s : State) : Option (List Byte) :=
  match a with
  | .lit bytes => some (ofLength n bytes)
  | .buf off => Memory.readRange s.buf off n

/-- The highest address a snapshot of `n` bytes needs. -/
def arrAddr (n : Nat) : Arr → Nat
  | .lit _ => 0
  | .buf off => off + n - 1

/-- A codec call gives its result back. -/
def giveBack (r : Ret) (s : State) : Result := .next (s.answer r)

/-- A codec call on an array operand of `n` bytes. A snapshot that leaves BUF faults (R40). -/
def answerArr (n : Nat) (a : Arr) (f : List Byte → Ret) (s : State) : Result :=
  match arrBytes n a s with
  | some bs => giveBack (f bs) s
  | none => .fault (.noSuchAddress (arrAddr n a))

end Sys2Proof.Machine
end

