-- ==== Sys2Proof/Machine/BandPlan.lean ====
section
/-! DEFINITION. Machine/BandPlan.lean: the calls of the band-plan codec (41_bandplan_codec R132-R140). -/

namespace Sys2Proof.Machine

/-- BP_FLAGS_PACK (R132). -/
def execBpFlagsPack (tx wrap : BitVec 1) (mod bw : BitVec 3) (s : State) : Result :=
  giveBack (.byte (bpFlagsPack { tx := tx, wrap := wrap, mod := mod, bw := bw })) s

/-- BP_FLAGS_UNPACK (R133). -/
def execBpFlagsUnpack (f : Byte) (s : State) : Result := giveBack (.flags (bpFlagsUnpack f)) s

/-- The image with entry `r` written (R134); for `r` outside 1..20 its 224 bytes are free (log 29). -/
def imageWithEntry (img : List Byte) (r : Nat) (entry : BPEntry) : List Byte :=
  if entryIndexOk r then bpEntryEncode img r entry else freeBytes Config.bpImageLen (Config.imageByte img r (encodeEntry entry))

/-- BP_ENTRY_ENCODE (R134): the result is the image with entry `r` written. -/
def execBpEntryEncode (img : Arr) (r : Nat) (entry : BPEntry) (s : State) : Result :=
  answerArr Config.bpImageLen img (fun bs => .bytes (imageWithEntry bs r entry)) s

/-- The 20 entries of a plan (R135); free ones, those of a free image, where the list has not 20 entries (log 29). -/
def planOf (plan : List BPEntry) : List BPEntry :=
  if plan.length = Config.bpEntries then plan
  else (List.range Config.bpEntries).map
    (fun k => entryFields (freeBytes Config.bpImageLen (Config.planByte (plan.flatMap encodeEntry))) (k + 1))

/-- BP_ENCODE (R135). -/
def execBpEncode (plan : List BPEntry) (s : State) : Result := giveBack (.bytes (bpEncode (planOf plan))) s

/-- BP_MAGIC_OK (R136). -/
def execBpMagicOk (img : Arr) (s : State) : Result :=
  answerArr Config.bpImageLen img (fun bs => .bit (bpMagicOk bs)) s

/-- BP_ENTRY_VALID (R137). -/
def execBpEntryValid (a b : Word) (s : State) : Result :=
  giveBack (.bit (bpEntryValid a b)) s

/-- Entry `r` as R138 decodes it; for `r` outside 1..20 its ten bytes are free, and magic and validity decide as ever (log 29). -/
def entryAt (img : List Byte) (r : Nat) : BPEntry :=
  if entryIndexOk r then bpEntryDecode img r
  else bpEntryDecode (memWrite img (entryBase 1) (freeBytes Config.bpEntryLen (Config.entryByte img r))) 1

/-- BP_ENTRY_DECODE (R138). -/
def execBpEntryDecode (img : Arr) (r : Nat) (s : State) : Result :=
  answerArr Config.bpImageLen img (fun bs => .entry (entryAt bs r)) s

/-- BP_DECODE (R139). -/
def execBpDecode (img : Arr) (s : State) : Result :=
  answerArr Config.bpImageLen img (fun bs => .plan (bpDecode bs)) s

/-- The payload of block `i` (R140); 32 free bytes for `i` above 6 (log 29). -/
def blockAt (img : List Byte) (i : Nat) : List Byte :=
  if i < Config.bpBlocks then bpBlockPayload img i else freeBytes Config.blockPayload (Config.blockByte img i)

/-- BP_BLOCK (R140): the payload of block `i` and its checksum. -/
def execBpBlock (img : Arr) (i : Nat) (s : State) : Result :=
  answerArr Config.bpImageLen img (fun bs => .block (blockAt bs i) (checksum8Of (blockAt bs i))) s

end Sys2Proof.Machine
end

