-- ==== Sys2Proof/Machine/Channel.lean ====
section
/-! DEFINITION. Machine/Channel.lean: the calls of the channel codec (42_channel_codec R162-R167). -/

namespace Sys2Proof.Machine

/-- CH_MODE_PACK (R162). -/
def execChModePack (bw : BitVec 1) (mod : BitVec 3) (s : State) : Result :=
  giveBack (.byte (chModePack { bw := bw, mod := mod })) s

/-- CH_MODE_UNPACK (R163). -/
def execChModeUnpack (m : Byte) (s : State) : Result := giveBack (.mode (chModeUnpack m)) s

/-- CH_NAME_PACK (R164): the result is the block with its name field written. -/
def execChNamePack (block : Arr) (name : List Byte) (s : State) : Result :=
  answerArr Config.blockLen block (fun bs => .bytes (chNamePack bs name)) s

/-- CH_NAME_UNPACK (R165). -/
def execChNameUnpack (block : Arr) (s : State) : Result :=
  answerArr Config.blockLen block (fun bs => .bytes (chNameUnpack bs)) s

/-- CH_ENCODE (R166): a name longer than 12 bytes is cut (I23). DESIGN CHOICE (log 30): a name that holds a 0x00 byte, which R160's type excludes
and R164 corner (3) defines for CH_NAME_PACK only, is written byte for byte like any other. -/
def execChEncode (c : ChRecord) (s : State) : Result := giveBack (.bytes (chEncode c)) s

/-- CH_DECODE (R167). -/
def execChDecode (block : Arr) (s : State) : Result :=
  answerArr Config.blockLen block (fun bs => .record (chDecode bs)) s

end Sys2Proof.Machine
end

