-- ==== Sys2Proof/Machine/Classifier.lean ====
section
/-! DEFINITION. Machine/Classifier.lean: the steps of the frame classifier (40_classifier R100-R110). -/

namespace Sys2Proof.Machine

/-- A byte class of state Idle (R61): its effect there; elsewhere bytes are sorted otherwise. -/
def inIdle (s : State) (t : State) : Result := if s.phase = .idle then .next t else .refused .wrongClass

/-- HDR (R100): start collecting a block. -/
def execHdr (s : State) : Result := inIdle s s.enterCollecting

/-- ACK1 (R101): byte 0x31 ends the round as Acknowledged. -/
def execAck1 (s : State) : Result := inIdle s (s.setPhase .acknowledged)

/-- ACKE (R101): byte 0x45 ends the round as Acknowledged. -/
def execAckE (s : State) : Result := inIdle s (s.setPhase .acknowledged)

/-- ACKF (R101): byte 0x46 ends the round as Acknowledged. -/
def execAckF (s : State) : Result := inIdle s (s.setPhase .acknowledged)

/-- NOISE (R103): the byte is consumed and dropped; no register changes. A byte that R61 sorts otherwise is no NOISE byte (log 12). -/
def execNoise (b : Byte) (s : State) : Result := if isNoise b then inIdle s s else .refused .wrongClass

/-- DATA (R102): a payload byte is stored, summed and counted. -/
def execData (b : Byte) (s : State) : Result :=
  if s.phase = .collecting then
    if s.count.toNat < Config.blockPayload then
      if s.payloadAddr < Config.bufSize then .next (s.storePayload b) else .fault (.noSuchAddress s.payloadAddr)
    else if s.count.toNat = Config.blockPayload then .refused .wrongClass
    else .refused .countRange
  else .refused .wrongClass

/-- CHK (R109): the checksum byte is compared, not stored. -/
def execChk (b : Byte) (s : State) : Result :=
  if s.phase = .collecting then
    if s.count.toNat = Config.blockPayload then
      .next (s.setPhase (if b = s.csum then .checksumOk else .checksumBad))
    else if s.count.toNat < Config.blockPayload then .refused .wrongClass
    else .refused .countRange
  else .refused .wrongClass

/-- EOS (R104): an unfinished round ends Incomplete; a terminal outcome is kept. -/
def execEos (s : State) : Result := if terminal s.phase then .next s else .next (s.setPhase .incomplete)

/-- TERMINAL_HOLD (R105): the byte presented is not consumed and nothing changes. -/
def execTerminalHold (_b : Byte) (s : State) : Result := if terminal s.phase then .next s else .refused .wrongClass

/-- START (R106): begin a round in any state; a base above 192 is refused (R41, I17). -/
def execStart (base : Byte) (s : State) : Result :=
  if base.toNat + Config.blockPayload ≤ Config.bufSize then .next (s.beginRound base) else .refused (.startBase base)

/-- RESET (R108, R280): the registers at their reset values; at power-up BUF is drawn anew. No byte of the stream is touched. -/
def execReset (kind : ResetKind) (s : State) : Result :=
  match kind with
  | .powerUp => .next (s.beginRound 0).redrawBuf
  | .warm => .next (s.beginRound 0)

end Sys2Proof.Machine
end

