-- ==== Sys2Proof/Machine/HostCommands.lean ====
section
/-! DEFINITION. Machine/HostCommands.lean: the host command frames (30_encoding R66, R67): the bytes go to the device in wire order, and the
host waits for the reply the table names. What the device does with them is not in the source (60 R273). -/

namespace Sys2Proof.Machine

/-- E (R66): begin session; one round, expects Acknowledged. -/
def execCmdE (s : State) : Result := .next (s.send [0x45] (some .acknowledged))

/-- F (R66): end or cancel; no round is run. -/
def execCmdF (s : State) : Result := .next (s.send [0x46] none)

/-- I (R66): commit; no reply is waited for. -/
def execCmdI (s : State) : Result := .next (s.send [0x49] none)

/-- READ (R66): one round, expects ChecksumOk. -/
def execCmdRead (idx : Byte) (s : State) : Result := .next (s.send [0x30, idx] (some .checksumOk))

/-- WRITE (R66): index, 32 payload bytes and their checksum; one round, expects Acknowledged. A payload operand of another length stands for 32
free bytes (log 29). -/
def execCmdWrite (idx : Byte) (p : List Byte) (s : State) : Result :=
  let q := ofLength Config.blockPayload p
  .next (s.send (0x31 :: idx :: (q ++ [checksum8Of q])) (some .acknowledged))

end Sys2Proof.Machine
end

