-- ==== Sys2Proof/Machine/Text.lean ====
section
/-! DEFINITION. Machine/Text.lean: the calls of the reference text forms (44_text_codecs R220-R228). -/

namespace Sys2Proof.Machine

/-- FREQ_FROM_MHZ (R220): refused where the word does not fit (I24). -/
def execFreqFromMhz (m : Decimal) (s : State) : Result :=
  if freqWordOf m < 2 ^ 32 then giveBack (.word (BitVec.ofNat 32 (freqWordOf m))) s else .refused .freqTooLarge

/-- FREQ_TO_MHZ (R221): the rational `w / 100000` and its display with 5 decimal places. -/
def execFreqToMhz (w : Word) (s : State) : Result :=
  giveBack (.mhz w.toNat Config.freqScale (mhzText w)) s

/-- TONE_TO_STRING (R222). -/
def execToneToString (w : Half) (s : State) : Result := giveBack (.bytes (toneText w)) s

/-- The text of t in 1..3000 (R223); a free value for any other t (log 29). -/
def ctcssTextFor (t : Half) : List Byte :=
  if 1 ≤ t.toNat ∧ t.toNat ≤ Config.ctcssMax then ctcssTextOf t else Config.ctcssText t

/-- CTCSS_TEXT (R223). -/
def execCtcssText (t : Half) (s : State) : Result := giveBack (.bytes (ctcssTextFor t)) s

/-- STRING_TO_TONE (R224). -/
def execStringToTone (str : List Byte) (s : State) : Result := giveBack (.half (toneWordOf str)) s

/-- STRING_TO_GROUP (R227). -/
def execStringToGroup (str : List Byte) (s : State) : Result :=
  giveBack (.half (groupWordOf s.params.groupP str)) s

/-- GROUP_TO_STRING (R228). -/
def execGroupToString (g : Half) (s : State) : Result := giveBack (.bytes (groupText g)) s

end Sys2Proof.Machine
end

