-- ==== Sys2Proof/Machine/Words.lean ====
section
/-! DEFINITION. Machine/Words.lean: the calls of the word sub-codecs (43_word_codecs R190-R199). -/

namespace Sys2Proof.Machine

/-- LE16_PACK_UNPACK (R190). -/
def execLe16PackUnpack (form : Le16Form) (s : State) : Result :=
  match form with
  | .pack v => giveBack (.bytes (le16Pack v)) s
  | .unpack b0 b1 => giveBack (.half (le16Unpack b0 b1)) s

/-- LE32_PACK_UNPACK (R191). -/
def execLe32PackUnpack (form : Le32Form) (s : State) : Result :=
  match form with
  | .pack v => giveBack (.bytes (le32Pack v)) s
  | .unpack b0 b1 b2 b3 => giveBack (.word (le32Unpack b0 b1 b2 b3)) s

/-- CHECKSUM8 (R193). -/
def execChecksum8 (p : Arr) (s : State) : Result :=
  answerArr Config.blockPayload p (fun bs => .byte (checksum8Of bs)) s

/-- TONE_CLASSIFY (R194). -/
def execToneClassify (w : Half) (s : State) : Result := giveBack (.tone (toneClassify w)) s

/-- The word of a tone class (R195); a free value for CTCSS(t) with t above 3000 (log 29). -/
def toneWordFor : Tone → Half
  | .off => toneCompose .off
  | .ctcss t => if t.toNat ≤ Config.ctcssMax then toneCompose (.ctcss t) else Config.toneWord t
  | .dcs code inv => toneCompose (.dcs code inv)

/-- TONE_COMPOSE (R195). -/
def execToneCompose (t : Tone) (s : State) : Result := giveBack (.half (toneWordFor t)) s

/-- DCS_DIGITS and its inverse (R196). -/
def execDcsDigits (form : DcsForm) (s : State) : Result :=
  match form with
  | .digits c => giveBack (.digits (dcsDigits c).1 (dcsDigits c).2.1 (dcsDigits c).2.2) s
  | .code d2 d1 d0 => giveBack (.code (dcsCode d2 d1 d0)) s

/-- GROUP_UNPACK (R197). -/
def execGroupUnpack (g : Half) (s : State) : Result := giveBack (.bytes (groupUnpack g)) s

/-- The values R198 names under a policy: 1..15, and 16 under `Overflow`. -/
def groupOperandsOk (pol : Config.GroupPPolicy) (vs : List Byte) : Bool :=
  vs.all (fun v => groupValueOk v && (v != 16 || pol == .overflow))

/-- The word of a list of group values (R198); a free value where the list holds a value that R198 does not name (log 29). -/
def groupWordFor (pol : Config.GroupPPolicy) (vs : List Byte) : Half :=
  if groupOperandsOk pol vs then groupPack vs else Config.groupWord pol vs

/-- GROUP_PACK (R198). -/
def execGroupPack (vs : List Byte) (s : State) : Result := giveBack (.half (groupWordFor s.params.groupP vs)) s

end Sys2Proof.Machine
end

