-- ==== Sys2Proof/Machine/Dispatch.lean ====
section
/-! DEFINITION. Machine/Dispatch.lean: one arm per constructor of Instr, in the order of spec/opcode_table.json. -/

namespace Sys2Proof.Machine

/-- What one instruction does. -/
def exec (i : Instr) (s : State) : Host.Outcome State Fault Refusal :=
  match i with
  | .hdr => Sys2Proof.Machine.execHdr s
  | .ack1 => Sys2Proof.Machine.execAck1 s
  | .ackE => Sys2Proof.Machine.execAckE s
  | .ackF => Sys2Proof.Machine.execAckF s
  | .noise b => Sys2Proof.Machine.execNoise b s
  | .data b => Sys2Proof.Machine.execData b s
  | .chk b => Sys2Proof.Machine.execChk b s
  | .eos => Sys2Proof.Machine.execEos s
  | .terminalHold b => Sys2Proof.Machine.execTerminalHold b s
  | .start base => Sys2Proof.Machine.execStart base s
  | .reset kind => Sys2Proof.Machine.execReset kind s
  | .cmdE => Sys2Proof.Machine.execCmdE s
  | .cmdF => Sys2Proof.Machine.execCmdF s
  | .cmdI => Sys2Proof.Machine.execCmdI s
  | .cmdRead idx => Sys2Proof.Machine.execCmdRead idx s
  | .cmdWrite idx p => Sys2Proof.Machine.execCmdWrite idx p s
  | .bpFlagsPack tx wrap mod bw => Sys2Proof.Machine.execBpFlagsPack tx wrap mod bw s
  | .bpFlagsUnpack f => Sys2Proof.Machine.execBpFlagsUnpack f s
  | .bpEntryEncode img r entry => Sys2Proof.Machine.execBpEntryEncode img r entry s
  | .bpEncode plan => Sys2Proof.Machine.execBpEncode plan s
  | .bpMagicOk img => Sys2Proof.Machine.execBpMagicOk img s
  | .bpEntryValid a b => Sys2Proof.Machine.execBpEntryValid a b s
  | .bpEntryDecode img r => Sys2Proof.Machine.execBpEntryDecode img r s
  | .bpDecode img => Sys2Proof.Machine.execBpDecode img s
  | .bpBlock img n => Sys2Proof.Machine.execBpBlock img n s
  | .chModePack bw mod => Sys2Proof.Machine.execChModePack bw mod s
  | .chModeUnpack m => Sys2Proof.Machine.execChModeUnpack m s
  | .chNamePack block name => Sys2Proof.Machine.execChNamePack block name s
  | .chNameUnpack block => Sys2Proof.Machine.execChNameUnpack block s
  | .chEncode c => Sys2Proof.Machine.execChEncode c s
  | .chDecode block => Sys2Proof.Machine.execChDecode block s
  | .le16PackUnpack form => Sys2Proof.Machine.execLe16PackUnpack form s
  | .le32PackUnpack form => Sys2Proof.Machine.execLe32PackUnpack form s
  | .checksum8 p => Sys2Proof.Machine.execChecksum8 p s
  | .toneClassify w => Sys2Proof.Machine.execToneClassify w s
  | .toneCompose t => Sys2Proof.Machine.execToneCompose t s
  | .dcsDigits form => Sys2Proof.Machine.execDcsDigits form s
  | .groupUnpack g => Sys2Proof.Machine.execGroupUnpack g s
  | .groupPack vs => Sys2Proof.Machine.execGroupPack vs s
  | .freqFromMhz m => Sys2Proof.Machine.execFreqFromMhz m s
  | .freqToMhz w => Sys2Proof.Machine.execFreqToMhz w s
  | .toneToString w => Sys2Proof.Machine.execToneToString w s
  | .ctcssText t => Sys2Proof.Machine.execCtcssText t s
  | .stringToTone str => Sys2Proof.Machine.execStringToTone str s
  | .stringToGroup str => Sys2Proof.Machine.execStringToGroup str s
  | .groupToString g => Sys2Proof.Machine.execGroupToString g s

end Sys2Proof.Machine
end

