-- ==== Sys2Proof/Machine/Session.lean ====
section
/-! DEFINITION. Machine/Session.lean: the host's side: its requests to the block (30_encoding R83, 60 R264) and the four transactions of the
host contract (60 R262-R272), one command, control, buffer access or table update per step. -/

namespace Sys2Proof.Machine

/-- Run the bytes offered at a port: exactly one instruction. -/
def runFrame (port : Port) (bs : List Byte) (s : State) : Result :=
  match decode port bs with
  | .ok i [] => exec i s
  | .ok _ (_ :: _) => .refused .longFrame
  | .bad e => .refused (.undecodable e)

/-- Serve one request of the host. -/
def serveReq (r : HostReq) (s : State) : Result :=
  match r with
  | .command frame => runFrame .tx frame s
  | .call op args => runFrame (.call op) args s
  | .readBuf a n => hostReadBuf a n s
  | .writeBuf a bs => hostWriteBuf a bs s
  | .readStatus => .next (s.answer (.word s.status))
  | .writeStatus _ => .refused .statusReadOnly
  | .readOutputs => .next (s.answer (.outputs s.done s.outcome s.inReady))
  | .openPort => .next (s.setClosed false)
  | .closePort => .next (s.setClosed true)

/-- The last item of a transaction's loop: band-plan blocks 0..6, channels 1..198 (R67). -/
def lastItem : Txn → Nat
  | .bpRead => Config.bpBlocks - 1
  | .bpWrite => Config.bpBlocks - 1
  | .chRead => Config.chCount
  | .chWrite => Config.chCount

/-- Whether the loop ends with I (commit): the writes do, the reads end with F (R266-R269). -/
def commits : Txn → Bool
  | .bpRead => false
  | .bpWrite => true
  | .chRead => false
  | .chWrite => true

/-- Where a transaction goes when its handshake was acknowledged. -/
def loopEntry : Txn → Pos
  | .bpRead => .command .bpRead 0
  | .bpWrite => .prepare .bpWrite 0
  | .chRead => .prepare .chRead 1
  | .chWrite => .command .chWrite 1

/-- Where a transaction goes after its handshake round: without Acknowledged the loop is skipped and F is sent (R266-R269, 92 D34). -/
def afterHello (t : Txn) (outcome : Phase) : Pos :=
  if outcome = .acknowledged then loopEntry t else .goodbye t false

/-- The item after item `n`, or the end of the loop. -/
def nextItem (t : Txn) (n : Nat) : Pos :=
  if n < lastItem t then (if t = .chRead then .prepare t (n + 1) else .command t (n + 1)) else .goodbye t (commits t)

/-- The device block index of item `n` (R67). -/
def blockIndex (t : Txn) (n : Nat) : Byte :=
  match t with
  | .bpRead => BitVec.ofNat 8 (n + Config.bpIndexBase)
  | .bpWrite => BitVec.ofNat 8 (n + Config.bpIndexBase)
  | .chRead => BitVec.ofNat 8 (n + Config.chIndexOffset)
  | .chWrite => BitVec.ofNat 8 (n + Config.chIndexOffset)

/-- The base of item `n`'s round: `32*i` for band-plan read, 0 for every other round (R263). -/
def roundBase (t : Txn) (n : Nat) : Byte :=
  match t with
  | .bpRead => BitVec.ofNat 8 (Config.blockPayload * n)
  | .bpWrite => 0
  | .chRead => 0
  | .chWrite => 0

/-- Prepare BUF: the encoded image once (R267), 33 zeros before each channel read round (R268). -/
def prepareItem (t : Txn) (n : Nat) (s : State) : Result :=
  match t with
  | .bpRead => .next (s.setPos (.command t n))
  | .bpWrite => mapNext (hostWriteBuf 0 (bpEncode s.session.records.bp) s) (fun u => u.setPos (.command t n))
  | .chRead => mapNext (hostWriteBuf 0 (List.replicate Config.blockLen 0) s) (fun u => u.setPos (.command t n))
  | .chWrite => .next (s.setPos (.command t n))

/-- The record table's entry `n`, 1..198. -/
def channelRecord (s : State) (n : Nat) : ChRecord := s.session.records.ch.getD (n - 1) chInactive

/-- Send the command of item `n` (R266-R269). -/
def commandItem (t : Txn) (n : Nat) (s : State) : Result :=
  match t with
  | .bpRead => exec (.cmdRead (blockIndex t n)) s
  | .bpWrite =>
    match Memory.readRange s.buf 0 Config.bpImageLen with
    | some img => exec (.cmdWrite (blockIndex t n) (bpBlockPayload img n)) s
    | none => .fault (.noSuchAddress 0)
  | .chRead => exec (.cmdRead (blockIndex t n)) s
  | .chWrite => exec (.cmdWrite (blockIndex t n) (slice (chEncode (channelRecord s n)) 0 Config.blockPayload)) s

/-- Whether the band-plan read gives up after a round with this outcome (R266, `BP_READ_ACK_POLICY`). -/
def bpReadAborts (pol : Config.BpReadAckPolicy) (outcome : Phase) : Bool :=
  outcome == .checksumBad || outcome == .incomplete || (outcome == .acknowledged && pol == .abort)

/-- Use the outcome of item `n`'s round, which has ended (R262, R266-R269). -/
def judgeItem (t : Txn) (n : Nat) (s : State) : Result :=
  match t with
  | .bpRead =>
    if bpReadAborts s.params.bpReadAck s.phase then
      mapNext (hostWriteBuf 0 (List.replicate Config.bpImageLen 0) s) (fun u => u.setPos (.goodbye t false))
    else .next (s.setPos (nextItem t n))
  | .bpWrite => .next (s.setPos (if s.phase = .acknowledged then nextItem t n else .goodbye t true))
  | .chRead =>
    if s.phase = .checksumOk then
      match Memory.readRange s.buf 0 Config.blockLen with
      | some block => .next ((s.setChannel n (chDecode block)).setPos (nextItem t n))
      | none => .fault (.noSuchAddress 0)
    else .next (s.setPos (nextItem t n))
  | .chWrite => .next (s.setPos (if s.phase = .acknowledged then nextItem t n else .goodbye t true))

/-- After F or I: the band-plan read still decodes BUF (R266); the others are over, and so is their session (R281). -/
def afterGoodbye (t : Txn) (s : State) : State :=
  match t with
  | .bpRead => s.setPos .harvest
  | .bpWrite => s.endSession
  | .chRead => s.endSession
  | .chWrite => s.endSession

/-- Decode BUF into the band-plan records, whatever it holds (R266); that ends the operation (R281). -/
def harvestPlan (s : State) : Result :=
  match Memory.readRange s.buf 0 Config.bpImageLen with
  | some img => .next ((s.setPlan (bpDecode img)).endSession)
  | none => .fault (.noSuchAddress 0)

/-- One move of the transaction in flight. -/
def txnMove (s : State) : Result :=
  match s.session.pos with
  | .idle => .next s
  | .hello t => mapNext (exec .cmdE s) (fun u => u.setPos (.helloStart t))
  | .helloStart t => mapNext (exec (.start 0) s.boundary) (fun u => u.setPos (.helloWait t))
  | .helloWait t => if s.done then .next (s.setPos (afterHello t s.phase)) else .next s
  | .prepare t n => prepareItem t n s
  | .command t n => mapNext (commandItem t n s) (fun u => u.setPos (.roundStart t n))
  | .roundStart t n => mapNext (exec (.start (roundBase t n)) s.boundary) (fun u => u.setPos (.roundWait t n))
  | .roundWait t n => if s.done then judgeItem t n s else .next s
  | .goodbye t commit => mapNext (exec (if commit then .cmdI else .cmdF) s) (afterGoodbye t)
  | .harvest => harvestPlan s

/-- Whether the host waits for a round to end. -/
def waiting : Pos → Bool
  | .helloWait _ => true
  | .roundWait _ _ => true
  | _ => false

/-- The busy flag (R32, R272). -/
def State.busy (s : State) : Bool := s.session.pos != .idle

/-- Whether the transaction in flight has something to do now. -/
def txnReady (s : State) : Bool := s.busy && (!waiting s.session.pos || s.done)

/-- Whether a transport exception comes inside a round: the host waits for one, or no transaction is in flight and a round runs that a START or
a reset began (R106, R281). While a transaction sends or uses BUF, it does not (log 19). DESIGN CHOICE (log 19): where the host waits, DONE is not
asked: an exception between the end of a round and the host's judgement of it counts as inside it, though R270 speaks of a round that runs. -/
def inRound (s : State) : Bool := waiting s.session.pos || (s.session.pos == .idle && s.inReady)

/-- A transport exception aborts the transaction at once (R270), and its session is discarded (R281): what was decoded before is handed back.
Inside a round the classifier sees the exception as the end of the stream (R265). The model's choice (log 19): the stream ends too where the
host waits for a round that is over but not judged (DONE = 1), and everywhere else it stays as it was. -/
def abortTxn (s : State) : State :=
  let u := if s.busy then s.endSession else s
  { u with closed := s.closed || inRound s, session := { u.session with failed := false } }

/-- An operation is triggered: its session is created and it begins, unless one is in flight (R272, R281). Nothing of an earlier session is in
it: its tables are those of the trigger (log 28). -/
def acceptTxn (o : Order) (s : State) : State :=
  let u := { s with session := { s.session with want := none } }
  if s.busy then u else u.beginSession o

/-- Whether the host's flow runs now. The classifier is fed only while it does not (R50). A stream that has ended under a round is presented
to its end before the host goes on, so that EOS is never lost (R265, R285; log 3); a transport exception is taken at once (R270). -/
def hostActive (s : State) : Bool :=
  s.session.failed || (!s.ending && (!s.reqs.isEmpty || s.session.want.isSome || txnReady s))

/-- One move of the host's flow. -/
def hostMove (s : State) : Result :=
  if s.session.failed then .next (abortTxn s)
  else
    match s.reqs with
    | r :: rest => serveReq r { s with reqs := rest }
    | [] =>
      match s.session.want with
      | some o => .next (acceptTxn o s)
      | none => txnMove s

end Sys2Proof.Machine
end

