-- ==== Sys2Proof/Machine/Fetch.lean ====
section
/-! DEFINITION. Machine/Fetch.lean: which event a step takes (60 R255: reset, START, byte, EOS, one at a time), the next byte of the stream
(20_memory R55), and how a word of the opcode table is offered to the machine. -/

namespace Sys2Proof.Machine

/-- The next byte of the stream, with the bytes in hand and the chunks left after it. -/
def nextByte (rx : List Byte) : List (List Byte) → Option (Byte × List Byte × List (List Byte))
  | [] =>
    match rx with
    | [] => none
    | b :: rest => some (b, rest, [])
  | c :: cs =>
    match rx with
    | [] => nextByte c cs
    | b :: rest => some (b, rest, c :: cs)

/-- The next byte of the link and the link after it: those in hand, then the chunks, then the bytes of a device that sends on for ever (R55,
R273; log 21). A closed link has no byte beyond its chunks (R265). -/
def Link.take (l : Link) : Option (Byte × Link) :=
  match nextByte l.rx l.line with
  | some (b, rx, line) => some (b, { l with rx := rx, line := line })
  | none =>
    if l.closed then none
    else
      match l.more with
      | some k => some (Config.deviceByte k, { l with more := some (k + 1) })
      | none => none

/-- Present the stream to the classifier. While IN_READY it consumes the next byte, sorted by STATE and COUNT (R60); with no byte left the
end of the stream is presented, or nothing comes and the machine waits (R284: the hang is kept). In a terminal state the byte in hand is
presented and stays (R105). -/
def feed (s : State) : Result :=
  if s.inReady then
    match s.link.take with
    | some (b, l) => exec (sortByte s.phase s.count b) (s.setLink l)
    | none => if s.closed then exec .eos s else .next s
  else
    match s.rx with
    | b :: _ => exec (sortByte s.phase s.count b) s
    | [] => if s.closed then exec .eos s else .next s

/-- One step: reset first, then START, then the host's flow while it runs, then the stream (R255, R50). A round boundary lies before a reset
as before a START, since a round may follow either (R281, R283 (2); log 9). -/
def advance (s : State) : Result :=
  match s.resetReq with
  | some kind => exec (.reset kind) (State.boundary { s with resetReq := none })
  | none =>
    match s.startReq with
    | some base => exec (.start base) (State.boundary { s with startReq := none })
    | none => if hostActive s then hostMove s else feed s

/-- `s` with nothing offered that would go before the stream or the host's requests. -/
def quiet (s : State) : State :=
  { s with resetReq := none, startReq := none, session := Session.fresh }

/-- `s` with a request of the host as what the next step takes: a stream that is ending would go first, so it is open (log 11). -/
def offerReq (r : HostReq) (s : State) : State :=
  { quiet s with closed := s.closed && !s.inReady, reqs := r :: s.reqs }

/-- Offer a word of the opcode table so that the very next step runs it (log 11). -/
def offerTableWord (s : State) (nbits w : Nat) : State :=
  match decode (tablePort nbits w) (tableBytes nbits w) with
  | .bad _ => s
  | .ok _ rest =>
    let used := (tableBytes nbits w).take (35 - rest.length)
    match tablePort nbits w with
    | .rx _ _ => { quiet s with phase := .idle, reqs := [], rx := used ++ s.rx }
    | .tx => offerReq (.command used) s
    | .call op => offerReq (.call op used) s
    | .eos => s
    | .start => s
    | .reset _ => s

end Sys2Proof.Machine
end

