-- ==== Sys2Proof/Machine/Step.lean ====
section
/-! DEFINITION. Machine/Step.lean: one step of the machine, and the placing of a table word where the next step takes it. -/

namespace Sys2Proof.Machine

/-- One step (00_scope R12; Machine/Fetch.lean). -/
def step (s : State) : Host.Outcome State Fault Refusal := advance s

/-- `s` with the instruction of a table word offered to the next step. -/
def State.withFetchWord (s : State) (nbits w : Nat) : State := offerTableWord s nbits w

end Sys2Proof.Machine
end

