-- ==== Sys2Proof/Safety.lean ====
section
/-! DEFINITION. Safety.lean: the terms claims are stated in: the invariant of every reachable state (10_state R35 and what the host's session
keeps), the parts of the state, and when the stream is what the next step takes. -/

namespace Sys2Proof.Machine

/-- The registers of the block and BUF (R20-R25), as one value. -/
structure Block where
  phase : Phase
  count : BitVec 6
  csum  : Byte
  base  : Byte
  buf   : List Host.Cell
  deriving DecidableEq, Repr

/-- The block's part of the state. -/
def State.block (s : State) : Block :=
  { phase := s.phase, count := s.count, csum := s.csum, base := s.base, buf := s.buf }

/-- The type of an operation's record tables: 20 band-plan records (R130), and 198 channel records whose names are names (R160). -/
def Records.ok (r : Records) : Bool :=
  r.bp.length == Config.bpEntries && r.ch.length == Config.chCount && r.ch.all ChRecord.ok

/-- R35 (1) is the type of `phase`. The rest of R35, the form of BUF, the type of the host's record tables, and that a
session lives no longer than its operation (R32). -/
structure Inv (s : State) : Prop where
  /-- BUF holds one byte at each of 0..223 (R25, R40) -/
  bufWf : Memory.wf s.buf = true
  /-- COUNT is at most 32 (R35 (2)) -/
  countLe : s.count.toNat ≤ Config.blockPayload
  /-- the round's 32 bytes lie inside BUF (R35 (4), R41) -/
  baseLe : s.base.toNat + Config.blockPayload ≤ Config.bufSize
  /-- in Collecting, CSUM is the sum of the bytes stored so far (R35 (3)) -/
  csumEq : s.phase = .collecting →
    ∃ p, Memory.readRange s.buf s.base.toNat s.count.toNat = some p ∧ s.csum = checksum8Of p
  /-- while an operation runs, its session holds record tables -/
  sessionOk : s.session.pos ≠ .idle → s.session.records.ok = true
  /-- while none runs, there are none: nothing of a session persists (R32, R281) -/
  sessionGone : s.session.pos = .idle → s.session.records = Records.none
  /-- a trigger comes with record tables -/
  wantOk : ∀ o, s.session.want = some o → o.records.ok = true
  /-- what was handed back is record tables -/
  handedOk : ∀ r, s.handed = some r → r.ok = true

/-- The bytes still to come, those in hand first (R55). -/
def State.stream (s : State) : List Byte := s.rx ++ s.line.flatten

/-- The first `n` bytes the link gives (fewer where it has fewer) and the link after them (R55). -/
def Link.run : Nat → Link → List Byte × Link
  | 0, l => ([], l)
  | n + 1, l =>
    match l.take with
    | some (b, l') => (b :: (Link.run n l').1, (Link.run n l').2)
    | none => ([], l)

/-- No control is offered and the host's flow does not run, be it that an ended stream goes first: the next step takes the stream (R255, R50). -/
def Listening (s : State) : Prop := s.resetReq = none ∧ s.startReq = none ∧ hostActive s = false

/-- No control is offered, no exception is pending and no ended stream is still to be presented: the next step serves the host's first request. -/
def Serving (s : State) (r : HostReq) (rest : List HostReq) : Prop :=
  s.resetReq = none ∧ s.startReq = none ∧ s.session.failed = false ∧ s.ending = false ∧ s.reqs = r :: rest

/-- No control is offered, no request is queued and no ended stream is still to be presented: the next step is the transaction's. -/
def InTransaction (s : State) (p : Pos) : Prop :=
  s.resetReq = none ∧ s.startReq = none ∧ s.session.failed = false ∧ s.ending = false ∧ s.reqs = [] ∧ s.session.want = none ∧ s.session.pos = p

/-- The instructions that act on the block's registers or BUF (R83 (a), (c)). The others are host commands and codec calls. -/
def classifierInstr : Instr → Bool
  | .hdr => true
  | .ack1 => true
  | .ackE => true
  | .ackF => true
  | .noise _ => true
  | .data _ => true
  | .chk _ => true
  | .eos => true
  | .terminalHold _ => true
  | .start _ => true
  | .reset _ => true
  | _ => false

/-- A host command frame (R83 (b)). -/
def commandInstr : Instr → Bool
  | .cmdE => true
  | .cmdF => true
  | .cmdI => true
  | .cmdRead _ => true
  | .cmdWrite _ _ => true
  | _ => false

/-- A codec operation (R83 (d)). -/
def codecInstr (i : Instr) : Bool := !classifierInstr i && !commandInstr i

/-- Whether an operand is a snapshot of BUF (R31). -/
def isSnapshot : Arr → Bool
  | .lit _ => false
  | .buf _ => true

/-- Whether a codec call takes a snapshot of BUF (R31, R264). -/
def takesSnapshot : Instr → Bool
  | .bpEntryEncode img _ _ => isSnapshot img
  | .bpMagicOk img => isSnapshot img
  | .bpEntryDecode img _ => isSnapshot img
  | .bpDecode img => isSnapshot img
  | .bpBlock img _ => isSnapshot img
  | .chNamePack block _ => isSnapshot block
  | .chNameUnpack block => isSnapshot block
  | .chDecode block => isSnapshot block
  | .checksum8 p => isSnapshot p
  | _ => false

/-- Whether an array operand of `n` bytes stays inside BUF, where it is a snapshot (R40). -/
def insideBuf (n : Nat) : Arr → Bool
  | .lit _ => true
  | .buf off => decide (off + n ≤ Config.bufSize)

/-- Whether the snapshot a codec call takes, if any, stays inside BUF (R31, R40). -/
def snapshotInside : Instr → Bool
  | .bpEntryEncode img _ _ => insideBuf Config.bpImageLen img
  | .bpMagicOk img => insideBuf Config.bpImageLen img
  | .bpEntryDecode img _ => insideBuf Config.bpImageLen img
  | .bpDecode img => insideBuf Config.bpImageLen img
  | .bpBlock img _ => insideBuf Config.bpImageLen img
  | .chNamePack block _ => insideBuf Config.blockLen block
  | .chNameUnpack block => insideBuf Config.blockLen block
  | .chDecode block => insideBuf Config.blockLen block
  | .checksum8 p => insideBuf Config.blockPayload p
  | _ => true

/-- Whether a codec call depends on the letter-P policy (R198, R199, R227). -/
def usesLetterP : Instr → Bool
  | .groupPack _ => true
  | .stringToGroup _ => true
  | _ => false

/-- `k` steps, stopping at the first fault or refusal. -/
def runSteps : Nat → State → Result
  | 0, s => .next s
  | k + 1, s =>
    match step s with
    | .next t => runSteps k t
    | .fault r => .fault r
    | .refused r => .refused r

/-- The sum of bytes modulo 256 (R193), over the naturals. -/
def sumMod256 (p : List Byte) : Nat := (p.map BitVec.toNat).sum % 256

/-- The result of an instruction that only gives something back to the caller. -/
def Answers (i : Instr) (s : State) (r : Ret) : Prop := exec i s = .next { s with ret := r }

/-- A step that neither faults nor is refused. -/
def SafeStep (s : State) : Prop := ∃ t, step s = .next t

/-- `str` is a NUMBER (R225) with this sign, point and digits: `SIGN? DIGITS ( "." DIGITS? )?` or `SIGN? "." DIGITS`. -/
def NumberText (str sign point : List Byte) (d : Decimal) : Prop :=
  sign ∈ [[], [0x2B], [(0x2D : Byte)]] ∧
  (point = [0x2E] ∧ (d.int ≠ [] ∨ d.frac ≠ []) ∨ point = [] ∧ d.int ≠ [] ∧ d.frac = []) ∧
  str = sign ++ d.int.map (fun x => digitByte x.val) ++ point ++ d.frac.map (fun x => digitByte x.val)

/-- The value of a NUMBER with this sign and these digits lies strictly between 300.04 and 300.05: there the pseudocode of R224 and its corner
case (8) disagree (log 33). -/
def DisputedTone (sign : List Byte) (d : Decimal) : Prop :=
  sign ≠ [0x2D] ∧ 30004 * 10 ^ places d < 100 * mant d ∧ 100 * mant d < 30005 * 10 ^ places d

/-- `str` is a DCS_TEXT (R226): "D", three octal digits, "N" or "I". -/
def DcsText (str : List Byte) (d2 d1 d0 : BitVec 3) (inv : BitVec 1) : Prop :=
  str = [0x44, digitByte d2.toNat, digitByte d1.toNat, digitByte d0.toNat, if inv = 1 then 0x49 else 0x4E]

/-- BUF bytes of a round are trusted only when its outcome is ChecksumOk (R114). -/
def Trusted (s : State) : Prop := s.phase = .checksumOk

end Sys2Proof.Machine
end

