-- ==== Sys2Proof/Laws/Memory.lean ====
section
/-! SUPPORT. Laws/Memory.lean: what the operations on BUF do: read after write, and that every one of them keeps the canonical form. -/

namespace Sys2Proof.Machine

theorem Memory.write_fst (m : List Host.Cell) (a : Nat) (v : Byte) :
    (Memory.write m a v).map Prod.fst = m.map Prod.fst := by
  induction m with
  | nil => rfl
  | cons c rest ih =>
    simp only [Memory.write, List.map_cons, List.map_map] at ih ⊢
    rw [ih]
    by_cases h : c.1 = a <;> simp [h]

theorem Memory.writeRange_fst (m : List Host.Cell) (a : Nat) (bs : List Byte) :
    (Memory.writeRange m a bs).map Prod.fst = m.map Prod.fst := by
  induction bs generalizing m a with
  | nil => rfl
  | cons b bs ih => simp only [Memory.writeRange, ih, Memory.write_fst]

/-- A byte write keeps the canonical form. -/
theorem Memory.write_wf {m : List Host.Cell} (h : Memory.wf m = true) (a : Nat) (v : Byte) :
    Memory.wf (Memory.write m a v) = true := by
  simpa only [Memory.wf, Memory.write_fst] using h

/-- An array write keeps the canonical form. -/
theorem Memory.writeRange_wf {m : List Host.Cell} (h : Memory.wf m = true) (a : Nat) (bs : List Byte) :
    Memory.wf (Memory.writeRange m a bs) = true := by
  simpa only [Memory.wf, Memory.writeRange_fst] using h

/-- The power-up contents have the canonical form. -/
theorem powerUpBuf_wf (k : Nat) : Memory.wf (powerUpBuf k) = true := by
  simp [Memory.wf, powerUpBuf, Function.comp_def]

theorem State.reset_buf_wf : Memory.wf State.reset.buf = true := powerUpBuf_wf 0

theorem Memory.read_isSome_iff (m : List Host.Cell) (a : Nat) :
    (Memory.read m a).isSome = true ↔ a ∈ m.map Prod.fst := by
  induction m with
  | nil => simp [Memory.read, Memory.unlisted]
  | cons c rest ih =>
    obtain ⟨k, v⟩ := c
    by_cases h : k = a
    · simp [Memory.read, h]
    · have h' : ¬ a = k := fun e => h e.symm
      simp [Memory.read, h, h', ih]

/-- In canonical form exactly the addresses 0..223 hold a byte. -/
theorem Memory.read_isSome {m : List Host.Cell} (h : Memory.wf m = true) (a : Nat) :
    (Memory.read m a).isSome = true ↔ a < 224 := by
  rw [Memory.read_isSome_iff]
  simp only [Memory.wf, beq_iff_eq] at h
  simp [h]

theorem Memory.read_write_ne (m : List Host.Cell) {a b : Nat} (v : Byte) (h : b ≠ a) :
    Memory.read (Memory.write m a v) b = Memory.read m b := by
  induction m with
  | nil => rfl
  | cons c rest ih =>
    obtain ⟨k, w⟩ := c
    simp only [Memory.write, List.map_cons] at ih ⊢
    by_cases hk : k = a
    · have h1 : ¬ a = b := fun e => h e.symm
      subst hk
      simp [Memory.read, h1, ih]
    · simp only [hk, if_false, Memory.read]
      rw [ih]

theorem Memory.read_write_eq_of_mem (m : List Host.Cell) {a : Nat} (v : Byte) (h : a ∈ m.map Prod.fst) :
    Memory.read (Memory.write m a v) a = some v := by
  induction m with
  | nil => simp at h
  | cons c rest ih =>
    obtain ⟨k, w⟩ := c
    simp only [Memory.write, List.map_cons] at ih ⊢
    by_cases hk : k = a
    · simp [Memory.read, hk]
    · have h' : a ∈ rest.map Prod.fst := by
        simp only [List.map_cons, List.mem_cons] at h
        rcases h with h | h
        · exact absurd h.symm hk
        · exact h
      simp [Memory.read, hk, ih h']

/-- A read after a write to the same address of BUF. -/
theorem Memory.read_write_eq {m : List Host.Cell} (hm : Memory.wf m = true) {a : Nat} (v : Byte) (h : a < 224) :
    Memory.read (Memory.write m a v) a = some v := by
  apply Memory.read_write_eq_of_mem
  rw [← Memory.read_isSome_iff]
  exact (Memory.read_isSome hm a).2 h

theorem Memory.read_writeRange_out (m : List Host.Cell) (a : Nat) (bs : List Byte) {b : Nat}
    (h : b < a ∨ a + bs.length ≤ b) : Memory.read (Memory.writeRange m a bs) b = Memory.read m b := by
  induction bs generalizing m a with
  | nil => rfl
  | cons v bs ih =>
    simp only [List.length_cons] at h
    rw [Memory.writeRange, ih _ _ (by omega), Memory.read_write_ne _ _ (by omega)]

theorem Memory.read_writeRange_in {m : List Host.Cell} (hm : Memory.wf m = true) (a : Nat) (bs : List Byte)
    (hin : a + bs.length ≤ 224) (k : Nat) (hk : k < bs.length) :
    Memory.read (Memory.writeRange m a bs) (a + k) = some bs[k] := by
  induction bs generalizing m a k with
  | nil => simp at hk
  | cons v bs ih =>
    simp only [List.length_cons] at hin hk
    cases k with
    | zero =>
      rw [Memory.writeRange, Memory.read_writeRange_out _ _ _ (Or.inl (by omega))]
      simpa using Memory.read_write_eq hm v (by omega)
    | succ k =>
      have := ih (Memory.write_wf hm a v) (a + 1) (by omega) k (by omega)
      rw [Memory.writeRange, show a + (k + 1) = a + 1 + k by omega, this]
      simp

/-- A snapshot inside BUF always succeeds. -/
theorem Memory.readRange_isSome {m : List Host.Cell} (hm : Memory.wf m = true) (a n : Nat) (h : a + n ≤ 224) :
    ∃ bs, Memory.readRange m a n = some bs ∧ bs.length = n := by
  induction n generalizing a with
  | zero => exact ⟨[], rfl, rfl⟩
  | succ n ih =>
    obtain ⟨bs, h1, h2⟩ := ih (a + 1) (by omega)
    have hr := (Memory.read_isSome hm a).2 (by omega)
    obtain ⟨b, hb⟩ := Option.isSome_iff_exists.1 hr
    exact ⟨b :: bs, by simp [Memory.readRange, hb, h1], by simp [h2]⟩

/-- A snapshot depends only on the bytes it reads. -/
theorem Memory.readRange_congr {m m' : List Host.Cell} (a n : Nat)
    (h : ∀ k, a ≤ k → k < a + n → Memory.read m k = Memory.read m' k) :
    Memory.readRange m a n = Memory.readRange m' a n := by
  induction n generalizing a with
  | zero => rfl
  | succ n ih =>
    rw [Memory.readRange, Memory.readRange, h a (by omega) (by omega), ih (a + 1) (fun k h1 h2 => h k (by omega) (by omega))]

/-- The bytes of a snapshot are the bytes of BUF. -/
theorem Memory.readRange_get {m : List Host.Cell} {a n : Nat} {bs : List Byte}
    (h : Memory.readRange m a n = some bs) : bs.length = n ∧ ∀ k, k < n → Memory.read m (a + k) = bs[k]? := by
  induction n generalizing a bs with
  | zero => simp only [Memory.readRange, Option.some.injEq] at h; subst h; simp
  | succ n ih =>
    rw [Memory.readRange] at h
    split at h
    · rename_i b bs' hb hbs
      simp only [Option.some.injEq] at h
      subst h
      obtain ⟨h1, h2⟩ := ih hbs
      refine ⟨by simp [h1], fun k hk => ?_⟩
      cases k with
      | zero => simpa using hb
      | succ k =>
        have := h2 k (by omega)
        rw [show a + (k + 1) = a + 1 + k by omega, this]
        simp
    · exact absurd h (by simp)

/-- A snapshot one byte longer. -/
theorem Memory.readRange_snoc {m : List Host.Cell} {a n : Nat} {bs : List Byte} {b : Byte}
    (h : Memory.readRange m a n = some bs) (hb : Memory.read m (a + n) = some b) :
    Memory.readRange m a (n + 1) = some (bs ++ [b]) := by
  induction n generalizing a bs with
  | zero =>
    simp only [Memory.readRange, Option.some.injEq] at h
    subst h
    rw [Nat.add_zero] at hb
    simp [Memory.readRange, hb]
  | succ n ih =>
    rw [Memory.readRange] at h
    split at h
    · rename_i b0 bs' hb0 hbs
      simp only [Option.some.injEq] at h
      subst h
      have := ih hbs (by rw [show a + 1 + n = a + (n + 1) by omega]; exact hb)
      rw [Memory.readRange, hb0, this]
      rfl
    · exact absurd h (by simp)

end Sys2Proof.Machine
end

