-- ==== Sys2Proof/Laws/Bits.lean ====
section
/-! SUPPORT. Laws/Bits.lean: the word, flag and list helpers: packing and unpacking are inverse, and what a write into an operand array does. -/

namespace Sys2Proof.Machine

/-- LE16 round trip from the word (R190). -/
@[simp] theorem le16Unpack_pack (v : Half) : le16Unpack (v.extractLsb' 0 8) (v.extractLsb' 8 8) = v := by
  unfold le16Unpack
  apply BitVec.eq_of_getLsbD_eq
  intro i hi
  simp only [BitVec.getLsbD_append, BitVec.getLsbD_extractLsb']
  by_cases h : i < 8
  · simp [h]
  · have : i - 8 < 8 := by omega
    simp [h, this, show 8 + (i - 8) = i by omega]

/-- LE32 round trip from the word (R191). -/
@[simp] theorem le32Unpack_pack (v : Word) :
    le32Unpack (v.extractLsb' 0 8) (v.extractLsb' 8 8) (v.extractLsb' 16 8) (v.extractLsb' 24 8) = v := by
  unfold le32Unpack
  apply BitVec.eq_of_getLsbD_eq
  intro i hi
  simp only [BitVec.getLsbD_append, BitVec.getLsbD_extractLsb']
  by_cases h : i < 8
  · simp [h]
  · by_cases h2 : i - 8 < 8
    · simp [h, h2, show 8 + (i - 8) = i by omega]
    · by_cases h3 : i - 8 - 8 < 8
      · simp [h, h2, h3, show 16 + (i - 8 - 8) = i by omega]
      · simp [h, h2, h3, show 24 + (i - 8 - 8 - 8) = i by omega, show i - 8 - 8 - 8 < 8 by omega]

/-- LE16 round trip from the bytes (R190). -/
theorem le16Pack_unpack (b0 b1 : Byte) : le16Pack (le16Unpack b0 b1) = [b0, b1] := by
  unfold le16Pack le16Unpack
  simp only [List.cons.injEq, and_true]
  constructor <;> (apply BitVec.eq_of_getLsbD_eq; intro i hi; rw [BitVec.getLsbD_extractLsb', BitVec.getLsbD_append]; simp [hi])

/-- LE32 round trip from the bytes (R191). -/
theorem le32Pack_unpack (b0 b1 b2 b3 : Byte) : le32Pack (le32Unpack b0 b1 b2 b3) = [b0, b1, b2, b3] := by
  unfold le32Pack le32Unpack
  simp only [List.cons.injEq, and_true]
  refine ⟨?_, ?_, ?_, ?_⟩ <;> (apply BitVec.eq_of_getLsbD_eq; intro i hi)
  · rw [BitVec.getLsbD_extractLsb', BitVec.getLsbD_append]; simp [hi]
  · rw [BitVec.getLsbD_extractLsb', BitVec.getLsbD_append, BitVec.getLsbD_append]; simp [hi]
  · rw [BitVec.getLsbD_extractLsb', BitVec.getLsbD_append, BitVec.getLsbD_append, BitVec.getLsbD_append]
    simp [hi, show ¬ 16 + i < 8 by omega, show ¬ 16 + i - 8 < 8 by omega, show 16 + i - 8 - 8 = i by omega]
  · rw [BitVec.getLsbD_extractLsb', BitVec.getLsbD_append, BitVec.getLsbD_append, BitVec.getLsbD_append]
    simp [hi, show ¬ 24 + i < 8 by omega, show ¬ 24 + i - 8 < 8 by omega, show ¬ 24 + i - 8 - 8 < 8 by omega,
      show 24 + i - 8 - 8 - 8 = i by omega]

@[simp] theorem le16Pack_length (v : Half) : (le16Pack v).length = 2 := rfl

@[simp] theorem le32Pack_length (v : Word) : (le32Pack v).length = 4 := rfl

/-- The flags byte from its byte (R133 corner case). -/
theorem bpFlagsPack_unpack : ∀ f : Byte, bpFlagsPack (bpFlagsUnpack f) = f := by decide

/-- The flags byte from its fields (R133 corner case). -/
theorem bpFlagsUnpack_pack_fields : ∀ (tx wrap : BitVec 1) (mod bw : BitVec 3),
    bpFlagsUnpack (bpFlagsPack { tx := tx, wrap := wrap, mod := mod, bw := bw }) =
      { tx := tx, wrap := wrap, mod := mod, bw := bw } := by decide

/-- The mode byte from its fields (R163 corner case), and bits 7:4 are 0 (R162). -/
theorem chModeUnpack_pack_fields : ∀ (bw : BitVec 1) (mod : BitVec 3),
    chModeUnpack (chModePack { bw := bw, mod := mod }) = { bw := bw, mod := mod } ∧
      (chModePack { bw := bw, mod := mod }).toNat < 16 := by decide

/-- A mode byte whose bits 7:4 are 0, from its byte. -/
theorem chModePack_unpack : ∀ m : Byte, m.toNat < 16 → chModePack (chModeUnpack m) = m := by decide

/-- The DCS word from its fields: its pattern and its fields (R76). -/
theorem dcsWord_fields : ∀ (code : BitVec 9) (inv : BitVec 1),
    ((0x8000 : Half) ||| code.setWidth 16 ||| (inv.setWidth 16 <<< 14)) &&& 0xBE00 = 0x8000 ∧
    ((0x8000 : Half) ||| code.setWidth 16 ||| (inv.setWidth 16 <<< 14)).extractLsb' 0 9 = code ∧
    ((0x8000 : Half) ||| code.setWidth 16 ||| (inv.setWidth 16 <<< 14)).extractLsb' 14 1 = inv := by decide

theorem memWrite_length {B bs : List Byte} {a : Nat} (h : a + bs.length ≤ B.length) :
    (memWrite B a bs).length = B.length := by
  simp only [memWrite, List.length_append, List.length_take, List.length_drop]
  omega

/-- Inside the bytes written. -/
theorem byteAt_memWrite_in {B bs : List Byte} {a : Nat} (h : a + bs.length ≤ B.length) {j : Nat} (h1 : a ≤ j)
    (h2 : j < a + bs.length) : byteAt (memWrite B a bs) j = byteAt bs (j - a) := by
  have ha : min a B.length = a := by omega
  simp only [byteAt, memWrite, List.getD_eq_getElem?_getD]
  rw [List.append_assoc, List.getElem?_append_right (by simp [ha, h1]), List.getElem?_append_left (by simp [ha]; omega)]
  simp [ha]

/-- Outside the bytes written. -/
theorem byteAt_memWrite_out {B bs : List Byte} {a : Nat} (h : a + bs.length ≤ B.length) {j : Nat}
    (h1 : j < a ∨ a + bs.length ≤ j) : byteAt (memWrite B a bs) j = byteAt B j := by
  have ha : min a B.length = a := by omega
  simp only [byteAt, memWrite, List.getD_eq_getElem?_getD]
  rcases h1 with h1 | h1
  · rw [List.append_assoc, List.getElem?_append_left (by simp [ha, h1]), List.getElem?_take_of_lt h1]
  · rw [List.getElem?_append_right (by simp [ha]; omega), List.getElem?_drop]
    congr 2
    simp [ha]
    omega

/-- Two arrays of one length with the same bytes are the same array. -/
theorem eq_of_byteAt {A B : List Byte} (hl : A.length = B.length) (h : ∀ j, j < A.length → byteAt A j = byteAt B j) : A = B := by
  apply List.ext_getElem hl
  intro i h1 h2
  have := h i h1
  simpa [byteAt, List.getD_eq_getElem?_getD, h1, h2] using this

/-- Digits are read back (R225). -/
theorem digitOf_digitByte (d : Fin 10) : digitOf (digitByte d.val) = some d := by
  revert d; decide

theorem digitOf_point : digitOf 0x2E = none := by decide

/-- A byte that reads as a digit is that digit's byte. -/
theorem digitByte_of_digitOf : ∀ b : Byte, ∀ d, digitOf b = some d → digitByte d.val = b := by decide

theorem spanDigits_digits (ds : List (Fin 10)) (rest : List Byte) (h : ∀ b r, rest = b :: r → digitOf b = none) :
    spanDigits (ds.map (fun x => digitByte x.val) ++ rest) = (ds, rest) := by
  induction ds with
  | nil =>
    cases rest with
    | nil => rfl
    | cons b r => simp [spanDigits, h b r rfl]
  | cons d ds ih => simp [spanDigits, digitOf_digitByte, ih]

/-- The digits a text opens with, written out again, and the rest are the text. -/
theorem spanDigits_eq (str : List Byte) :
    (spanDigits str).1.map (fun x => digitByte x.val) ++ (spanDigits str).2 = str := by
  induction str with
  | nil => rfl
  | cons b rest ih =>
    simp only [spanDigits]
    cases h : digitOf b with
    | none => rfl
    | some d => simp [digitByte_of_digitOf b d h, ih]

end Sys2Proof.Machine
end

