-- ==== Sys2Proof/Laws/Parse.lean ====
section
/-! SUPPORT. Laws/Parse.lean: each reader of Decode.lean reads back what its writer wrote, whatever follows. -/

namespace Sys2Proof

@[simp] theorem Parse.bind_ok {α β : Type} (a : α) (r : List Byte) (k : α → List Byte → Parse β) :
    (Parse.ok a r).bind k = k a r := rfl

@[simp] theorem Parse.bind_bad {α β : Type} (e : DecodeError) (k : α → List Byte → Parse β) :
    (Parse.bad e : Parse α).bind k = .bad e := rfl

@[simp] theorem pByte_cons (b : Byte) (r : List Byte) : pByte (b :: r) = .ok b r := rfl

@[simp] theorem pHalf_pack (v : Half) (r : List Byte) : pHalf (Machine.le16Pack v ++ r) = .ok v r := by
  simp [Machine.le16Pack, pHalf]

@[simp] theorem pHalf_pack_nil (v : Half) : pHalf (Machine.le16Pack v) = .ok v [] := by
  simpa using pHalf_pack v []

@[simp] theorem pWord_pack (v : Word) (r : List Byte) : pWord (Machine.le32Pack v ++ r) = .ok v r := by
  simp [Machine.le32Pack, pWord]

@[simp] theorem pWord_pack_nil (v : Word) : pWord (Machine.le32Pack v) = .ok v [] := by
  simpa using pWord_pack v []

theorem pBytes_append (p r : List Byte) : pBytes p.length (p ++ r) = .ok p r := by
  simp [pBytes]

theorem pBytes_append_of_length {n : Nat} {p : List Byte} (h : p.length = n) (r : List Byte) :
    pBytes n (p ++ r) = .ok p r := h ▸ pBytes_append p r

/-- An array operand of a checked length is read back. -/
theorem pArr_encode {n : Nat} {a : Arr} (h : a.ok n = true) (r : List Byte) :
    pArr n (encodeArr a ++ r) = .ok a r := by
  cases a with
  | lit bytes =>
    have hl : bytes.length = n := by simpa [Arr.ok] using h
    simp [pArr, encodeArr, pBytes_append_of_length hl]
  | buf off =>
    have hl : off + n ≤ 224 := of_decide_eq_true h
    simp [pArr, encodeArr, Nat.mod_eq_of_lt (show off < 256 by omega)]

theorem pArr_encode_nil {n : Nat} {a : Arr} (h : a.ok n = true) : pArr n (encodeArr a) = .ok a [] := by
  simpa using pArr_encode h []

@[simp] theorem pEntry_encode (x : BPEntry) (r : List Byte) : pEntry (encodeEntry x ++ r) = .ok x r := by
  simp [pEntry, encodeEntry, Machine.bpFlagsUnpack_pack_fields]

@[simp] theorem pEntry_encode_nil (x : BPEntry) : pEntry (encodeEntry x) = .ok x [] := by
  simpa using pEntry_encode x []

theorem pEntries_encode (xs : List BPEntry) (r : List Byte) :
    pEntries xs.length (xs.flatMap encodeEntry ++ r) = .ok xs r := by
  induction xs with
  | nil => rfl
  | cons x xs ih => simp [pEntries, ih]

@[simp] theorem pMode_encode (bw : BitVec 1) (mod : BitVec 3) (r : List Byte) :
    pMode (Machine.chModePack { bw := bw, mod := mod } :: r) = .ok { bw := bw, mod := mod } r := by
  simp [pMode, Machine.chModeUnpack_pack_fields]

theorem pRecord_encode (c : ChRecord) : pRecord (encodeRecord c) = .ok c [] := by
  simp [pRecord, encodeRecord]

theorem pTone_encode (t : Tone) : pTone (encodeTone t) = .ok t [] := by
  cases t with
  | off => rfl
  | ctcss t => simp [pTone, encodeTone]
  | dcs code inv =>
    obtain ⟨h1, h2, h3⟩ := Machine.dcsWord_fields code inv
    simp only [pTone, encodeTone, pByte_cons, Parse.bind_ok, pHalf_pack_nil, h1, h2, h3]
    rfl

theorem code_word : ∀ c : BitVec 9, (c.setWidth 16 : Half).toNat < 512 ∧ (c.setWidth 16 : Half).extractLsb' 0 9 = c := by
  decide

theorem pCode_encode (c : BitVec 9) : pCode (Machine.le16Pack (c.setWidth 16)) = .ok c [] := by
  obtain ⟨h1, h2⟩ := code_word c
  simp only [pCode, pHalf_pack_nil, Parse.bind_ok, h1, h2, if_true]

theorem octal_byte : ∀ d : BitVec 3, (d.setWidth 8 : Byte).toNat < 8 ∧ (d.setWidth 8 : Byte).extractLsb' 0 3 = d := by
  decide

@[simp] theorem pOctal_encode (d : BitVec 3) (r : List Byte) : pOctal ((d.setWidth 8 : Byte) :: r) = .ok d r := by
  obtain ⟨h1, h2⟩ := octal_byte d
  simp only [pOctal, pByte_cons, Parse.bind_ok, h1, h2, if_true]

theorem pDecimal_encode (d : Decimal) : pDecimal (encodeDecimal d) = .ok d [] := by
  have h1 := Machine.spanDigits_digits d.int ([0x2E] ++ d.frac.map (fun x => Machine.digitByte x.val)) (by
    intro b r h
    simp only [List.cons_append, List.nil_append, List.cons.injEq] at h
    rw [← h.1]
    exact Machine.digitOf_point)
  have h2 := Machine.spanDigits_digits d.frac [] (by simp)
  rw [List.append_nil] at h2
  simp only [pDecimal, encodeDecimal, List.append_assoc, h1]
  simp [h2]

/-- A byte of class NOISE is sorted as such in Idle (R61). -/
theorem sortByte_noise (c : BitVec 6) {b : Byte} (h : isNoise b = true) : sortByte .idle c b = .noise b := by
  simp only [isNoise, Bool.and_eq_true, bne_iff_ne] at h
  obtain ⟨⟨⟨h1, h2⟩, h3⟩, h4⟩ := h
  simp only [sortByte]
  rw [if_neg h1, if_neg h2, if_neg h3, if_neg h4]

end Sys2Proof
end

