-- ==== Sys2Proof/Laws/PerInstr.lean ====
section
/-! SUPPORT. Laws/PerInstr.lean: the family RoundTrip: an instruction's bytes, offered at its port, decode to it, with no byte left over. -/

namespace Sys2Proof.Laws

/-- Decoding the encoding of a well-formed instruction gives it back (30_encoding R60-R66, R83). -/
def RoundTrip.Statement (i : Instr) : Prop := i.wf = true → decode (portOf i) (encode i) = .ok i []

open RoundTrip

theorem RoundTrip.hdr : Statement (.hdr) := by
  intro _
  simp [decode, portOf, encode, sortByte]

theorem RoundTrip.ack1 : Statement (.ack1) := by
  intro _
  simp [decode, portOf, encode, sortByte]

theorem RoundTrip.ackE : Statement (.ackE) := by
  intro _
  simp [decode, portOf, encode, sortByte]

theorem RoundTrip.ackF : Statement (.ackF) := by
  intro _
  simp [decode, portOf, encode, sortByte]

theorem RoundTrip.noise (b : Byte) : Statement (.noise b) := by
  intro h
  simp only [decode, portOf, encode, pByte_cons, Parse.bind_ok, sortByte_noise 0 h]

theorem RoundTrip.data (b : Byte) : Statement (.data b) := by
  intro _
  simp [decode, portOf, encode, sortByte]

theorem RoundTrip.chk (b : Byte) : Statement (.chk b) := by
  intro _
  simp [decode, portOf, encode, sortByte]

theorem RoundTrip.eos : Statement (.eos) := by
  intro _
  simp [decode, portOf, encode]

theorem RoundTrip.terminalHold (b : Byte) : Statement (.terminalHold b) := by
  intro _
  simp [decode, portOf, encode, sortByte]

theorem RoundTrip.start (base : Byte) : Statement (.start base) := by
  intro _
  simp [decode, portOf, encode]

theorem RoundTrip.reset (kind : ResetKind) : Statement (.reset kind) := by
  intro _
  simp [decode, portOf, encode]

theorem RoundTrip.cmdE : Statement (.cmdE) := by
  intro _
  simp [decode, portOf, encode, decodeCommand]

theorem RoundTrip.cmdF : Statement (.cmdF) := by
  intro _
  simp [decode, portOf, encode, decodeCommand]

theorem RoundTrip.cmdI : Statement (.cmdI) := by
  intro _
  simp [decode, portOf, encode, decodeCommand]

theorem RoundTrip.cmdRead (idx : Byte) : Statement (.cmdRead idx) := by
  intro _
  simp [decode, portOf, encode, decodeCommand]

theorem RoundTrip.cmdWrite (idx : Byte) (p : List Byte) : Statement (.cmdWrite idx p) := by
  intro h
  have hp : p.length = 32 := by simpa [Instr.wf] using h
  simp [decode, portOf, encode, decodeCommand, pBytes_append_of_length hp]

theorem RoundTrip.bpFlagsPack (tx wrap : BitVec 1) (mod bw : BitVec 3) : Statement (.bpFlagsPack tx wrap mod bw) := by
  intro _
  simp [decode, portOf, encode, decodeCall, Machine.bpFlagsUnpack_pack_fields]

theorem RoundTrip.bpFlagsUnpack (f : Byte) : Statement (.bpFlagsUnpack f) := by
  intro _
  simp [decode, portOf, encode, decodeCall]

theorem RoundTrip.bpEntryEncode (img : Arr) (r : Nat) (entry : BPEntry) : Statement (.bpEntryEncode img r entry) := by
  intro h
  simp only [Instr.wf, entryIndexOk, Bool.and_eq_true, decide_eq_true_eq] at h
  simp only [decode, portOf, encode, decodeCall, List.append_assoc, pArr_encode h.1, Parse.bind_ok, List.cons_append,
    List.nil_append, pByte_cons, pEntry_encode_nil]
  have : r % 256 = r := Nat.mod_eq_of_lt (by have := h.2.2; simp at this; omega)
  simp [this]

theorem RoundTrip.bpEncode (plan : List BPEntry) : Statement (.bpEncode plan) := by
  intro h
  have hp : plan.length = 20 := by simpa [Instr.wf] using h
  have := pEntries_encode plan []
  rw [hp, List.append_nil] at this
  simp [decode, portOf, encode, decodeCall, this]

theorem RoundTrip.bpMagicOk (img : Arr) : Statement (.bpMagicOk img) := by
  intro h
  simp only [Instr.wf] at h
  simp [decode, portOf, encode, decodeCall, pArr_encode_nil h, -Config.bpImageLen, -Config.blockLen, -Config.blockPayload]

theorem RoundTrip.bpEntryValid (a b : Word) : Statement (.bpEntryValid a b) := by
  intro _
  simp [decode, portOf, encode, decodeCall]

theorem RoundTrip.bpEntryDecode (img : Arr) (r : Nat) : Statement (.bpEntryDecode img r) := by
  intro h
  simp only [Instr.wf, entryIndexOk, Bool.and_eq_true, decide_eq_true_eq] at h
  have : r % 256 = r := Nat.mod_eq_of_lt (by have := h.2.2; simp at this; omega)
  simp [decode, portOf, encode, decodeCall, pArr_encode h.1, this, -Config.bpImageLen]

theorem RoundTrip.bpDecode (img : Arr) : Statement (.bpDecode img) := by
  intro h
  simp only [Instr.wf] at h
  simp [decode, portOf, encode, decodeCall, pArr_encode_nil h, -Config.bpImageLen, -Config.blockLen, -Config.blockPayload]

theorem RoundTrip.bpBlock (img : Arr) (n : Nat) : Statement (.bpBlock img n) := by
  intro h
  simp only [Instr.wf, Bool.and_eq_true, decide_eq_true_eq] at h
  have : n % 256 = n := Nat.mod_eq_of_lt (by have := h.2; simp at this; omega)
  simp [decode, portOf, encode, decodeCall, pArr_encode h.1, this, -Config.bpImageLen]

theorem RoundTrip.chModePack (bw : BitVec 1) (mod : BitVec 3) : Statement (.chModePack bw mod) := by
  intro _
  simp [decode, portOf, encode, decodeCall]

theorem RoundTrip.chModeUnpack (m : Byte) : Statement (.chModeUnpack m) := by
  intro _
  simp [decode, portOf, encode, decodeCall]

theorem RoundTrip.chNamePack (block : Arr) (name : List Byte) : Statement (.chNamePack block name) := by
  intro h
  simp only [Instr.wf] at h
  simp [decode, portOf, encode, decodeCall, pArr_encode h, -Config.blockLen]

theorem RoundTrip.chNameUnpack (block : Arr) : Statement (.chNameUnpack block) := by
  intro h
  simp only [Instr.wf] at h
  simp [decode, portOf, encode, decodeCall, pArr_encode_nil h, -Config.bpImageLen, -Config.blockLen, -Config.blockPayload]

theorem RoundTrip.chEncode (c : ChRecord) : Statement (.chEncode c) := by
  intro _
  simp [decode, portOf, encode, decodeCall, pRecord_encode]

theorem RoundTrip.chDecode (block : Arr) : Statement (.chDecode block) := by
  intro h
  simp only [Instr.wf] at h
  simp [decode, portOf, encode, decodeCall, pArr_encode_nil h, -Config.bpImageLen, -Config.blockLen, -Config.blockPayload]

theorem RoundTrip.le16PackUnpack (form : Le16Form) : Statement (.le16PackUnpack form) := by
  intro _
  cases form <;> simp [decode, portOf, encode, decodeCall]

theorem RoundTrip.le32PackUnpack (form : Le32Form) : Statement (.le32PackUnpack form) := by
  intro _
  cases form <;> simp [decode, portOf, encode, decodeCall]

theorem RoundTrip.checksum8 (p : Arr) : Statement (.checksum8 p) := by
  intro h
  simp only [Instr.wf] at h
  simp [decode, portOf, encode, decodeCall, pArr_encode_nil h, -Config.bpImageLen, -Config.blockLen, -Config.blockPayload]

theorem RoundTrip.toneClassify (w : Half) : Statement (.toneClassify w) := by
  intro _
  simp [decode, portOf, encode, decodeCall]

theorem RoundTrip.toneCompose (t : Tone) : Statement (.toneCompose t) := by
  intro _
  simp [decode, portOf, encode, decodeCall, pTone_encode]

theorem RoundTrip.dcsDigits (form : DcsForm) : Statement (.dcsDigits form) := by
  intro _
  cases form <;> simp [decode, portOf, encode, decodeCall, pCode_encode]

theorem RoundTrip.groupUnpack (g : Half) : Statement (.groupUnpack g) := by
  intro _
  simp [decode, portOf, encode, decodeCall]

theorem RoundTrip.groupPack (vs : List Byte) : Statement (.groupPack vs) := by
  intro _
  simp [decode, portOf, encode, decodeCall]

theorem RoundTrip.freqFromMhz (m : Decimal) : Statement (.freqFromMhz m) := by
  intro _
  simp [decode, portOf, encode, decodeCall, pDecimal_encode]

theorem RoundTrip.freqToMhz (w : Word) : Statement (.freqToMhz w) := by
  intro _
  simp [decode, portOf, encode, decodeCall]

theorem RoundTrip.toneToString (w : Half) : Statement (.toneToString w) := by
  intro _
  simp [decode, portOf, encode, decodeCall]

theorem RoundTrip.ctcssText (t : Half) : Statement (.ctcssText t) := by
  intro _
  simp [decode, portOf, encode, decodeCall]

theorem RoundTrip.stringToTone (str : List Byte) : Statement (.stringToTone str) := by
  intro _
  simp [decode, portOf, encode, decodeCall]

theorem RoundTrip.stringToGroup (str : List Byte) : Statement (.stringToGroup str) := by
  intro _
  simp [decode, portOf, encode, decodeCall]

theorem RoundTrip.groupToString (g : Half) : Statement (.groupToString g) := by
  intro _
  simp [decode, portOf, encode, decodeCall]

end Sys2Proof.Laws
end

