-- ==== Sys2Proof/Laws/State.lean ====
section
/-! SUPPORT. Laws/State.lean: one lemma per field per named update of State, and the block's part of each update. -/

namespace Sys2Proof.Machine

@[simp] theorem State.setPhase_phase (s : State) (ph : Phase) : (s.setPhase ph).phase = ph := rfl
@[simp] theorem State.setPhase_count (s : State) (ph : Phase) : (s.setPhase ph).count = s.count := rfl
@[simp] theorem State.setPhase_csum (s : State) (ph : Phase) : (s.setPhase ph).csum = s.csum := rfl
@[simp] theorem State.setPhase_base (s : State) (ph : Phase) : (s.setPhase ph).base = s.base := rfl
@[simp] theorem State.setPhase_buf (s : State) (ph : Phase) : (s.setPhase ph).buf = s.buf := rfl
@[simp] theorem State.setPhase_rx (s : State) (ph : Phase) : (s.setPhase ph).rx = s.rx := rfl
@[simp] theorem State.setPhase_line (s : State) (ph : Phase) : (s.setPhase ph).line = s.line := rfl
@[simp] theorem State.setPhase_closed (s : State) (ph : Phase) : (s.setPhase ph).closed = s.closed := rfl
@[simp] theorem State.setPhase_more (s : State) (ph : Phase) : (s.setPhase ph).more = s.more := rfl
@[simp] theorem State.setPhase_resetReq (s : State) (ph : Phase) : (s.setPhase ph).resetReq = s.resetReq := rfl
@[simp] theorem State.setPhase_startReq (s : State) (ph : Phase) : (s.setPhase ph).startReq = s.startReq := rfl
@[simp] theorem State.setPhase_reqs (s : State) (ph : Phase) : (s.setPhase ph).reqs = s.reqs := rfl
@[simp] theorem State.setPhase_tx (s : State) (ph : Phase) : (s.setPhase ph).tx = s.tx := rfl
@[simp] theorem State.setPhase_await (s : State) (ph : Phase) : (s.setPhase ph).await = s.await := rfl
@[simp] theorem State.setPhase_begun (s : State) (ph : Phase) : (s.setPhase ph).begun = s.begun := rfl
@[simp] theorem State.setPhase_ret (s : State) (ph : Phase) : (s.setPhase ph).ret = s.ret := rfl
@[simp] theorem State.setPhase_session (s : State) (ph : Phase) : (s.setPhase ph).session = s.session := rfl
@[simp] theorem State.setPhase_handed (s : State) (ph : Phase) : (s.setPhase ph).handed = s.handed := rfl
@[simp] theorem State.setPhase_params (s : State) (ph : Phase) : (s.setPhase ph).params = s.params := rfl
@[simp] theorem State.setPhase_draws (s : State) (ph : Phase) : (s.setPhase ph).draws = s.draws := rfl

@[simp] theorem State.enterCollecting_phase (s : State) : s.enterCollecting.phase = .collecting := rfl
@[simp] theorem State.enterCollecting_count (s : State) : s.enterCollecting.count = 0 := rfl
@[simp] theorem State.enterCollecting_csum (s : State) : s.enterCollecting.csum = 0 := rfl
@[simp] theorem State.enterCollecting_base (s : State) : s.enterCollecting.base = s.base := rfl
@[simp] theorem State.enterCollecting_buf (s : State) : s.enterCollecting.buf = s.buf := rfl
@[simp] theorem State.enterCollecting_rx (s : State) : s.enterCollecting.rx = s.rx := rfl
@[simp] theorem State.enterCollecting_line (s : State) : s.enterCollecting.line = s.line := rfl
@[simp] theorem State.enterCollecting_closed (s : State) : s.enterCollecting.closed = s.closed := rfl
@[simp] theorem State.enterCollecting_more (s : State) : s.enterCollecting.more = s.more := rfl
@[simp] theorem State.enterCollecting_resetReq (s : State) : s.enterCollecting.resetReq = s.resetReq := rfl
@[simp] theorem State.enterCollecting_startReq (s : State) : s.enterCollecting.startReq = s.startReq := rfl
@[simp] theorem State.enterCollecting_reqs (s : State) : s.enterCollecting.reqs = s.reqs := rfl
@[simp] theorem State.enterCollecting_tx (s : State) : s.enterCollecting.tx = s.tx := rfl
@[simp] theorem State.enterCollecting_await (s : State) : s.enterCollecting.await = s.await := rfl
@[simp] theorem State.enterCollecting_begun (s : State) : s.enterCollecting.begun = s.begun := rfl
@[simp] theorem State.enterCollecting_ret (s : State) : s.enterCollecting.ret = s.ret := rfl
@[simp] theorem State.enterCollecting_session (s : State) : s.enterCollecting.session = s.session := rfl
@[simp] theorem State.enterCollecting_handed (s : State) : s.enterCollecting.handed = s.handed := rfl
@[simp] theorem State.enterCollecting_params (s : State) : s.enterCollecting.params = s.params := rfl
@[simp] theorem State.enterCollecting_draws (s : State) : s.enterCollecting.draws = s.draws := rfl

@[simp] theorem State.storePayload_phase (s : State) (b : Byte) : (s.storePayload b).phase = s.phase := rfl
@[simp] theorem State.storePayload_count (s : State) (b : Byte) : (s.storePayload b).count = s.count + 1 := rfl
@[simp] theorem State.storePayload_csum (s : State) (b : Byte) : (s.storePayload b).csum = s.csum + b := rfl
@[simp] theorem State.storePayload_base (s : State) (b : Byte) : (s.storePayload b).base = s.base := rfl
@[simp] theorem State.storePayload_buf (s : State) (b : Byte) : (s.storePayload b).buf = Memory.write s.buf s.payloadAddr b := rfl
@[simp] theorem State.storePayload_rx (s : State) (b : Byte) : (s.storePayload b).rx = s.rx := rfl
@[simp] theorem State.storePayload_line (s : State) (b : Byte) : (s.storePayload b).line = s.line := rfl
@[simp] theorem State.storePayload_closed (s : State) (b : Byte) : (s.storePayload b).closed = s.closed := rfl
@[simp] theorem State.storePayload_more (s : State) (b : Byte) : (s.storePayload b).more = s.more := rfl
@[simp] theorem State.storePayload_resetReq (s : State) (b : Byte) : (s.storePayload b).resetReq = s.resetReq := rfl
@[simp] theorem State.storePayload_startReq (s : State) (b : Byte) : (s.storePayload b).startReq = s.startReq := rfl
@[simp] theorem State.storePayload_reqs (s : State) (b : Byte) : (s.storePayload b).reqs = s.reqs := rfl
@[simp] theorem State.storePayload_tx (s : State) (b : Byte) : (s.storePayload b).tx = s.tx := rfl
@[simp] theorem State.storePayload_await (s : State) (b : Byte) : (s.storePayload b).await = s.await := rfl
@[simp] theorem State.storePayload_begun (s : State) (b : Byte) : (s.storePayload b).begun = s.begun := rfl
@[simp] theorem State.storePayload_ret (s : State) (b : Byte) : (s.storePayload b).ret = s.ret := rfl
@[simp] theorem State.storePayload_session (s : State) (b : Byte) : (s.storePayload b).session = s.session := rfl
@[simp] theorem State.storePayload_handed (s : State) (b : Byte) : (s.storePayload b).handed = s.handed := rfl
@[simp] theorem State.storePayload_params (s : State) (b : Byte) : (s.storePayload b).params = s.params := rfl
@[simp] theorem State.storePayload_draws (s : State) (b : Byte) : (s.storePayload b).draws = s.draws := rfl

@[simp] theorem State.beginRound_phase (s : State) (base : Byte) : (s.beginRound base).phase = .idle := rfl
@[simp] theorem State.beginRound_count (s : State) (base : Byte) : (s.beginRound base).count = 0 := rfl
@[simp] theorem State.beginRound_csum (s : State) (base : Byte) : (s.beginRound base).csum = 0 := rfl
@[simp] theorem State.beginRound_base (s : State) (base : Byte) : (s.beginRound base).base = base := rfl
@[simp] theorem State.beginRound_buf (s : State) (base : Byte) : (s.beginRound base).buf = s.buf := rfl
@[simp] theorem State.beginRound_rx (s : State) (base : Byte) : (s.beginRound base).rx = s.rx := rfl
@[simp] theorem State.beginRound_line (s : State) (base : Byte) : (s.beginRound base).line = s.line := rfl
@[simp] theorem State.beginRound_closed (s : State) (base : Byte) : (s.beginRound base).closed = s.closed := rfl
@[simp] theorem State.beginRound_more (s : State) (base : Byte) : (s.beginRound base).more = s.more := rfl
@[simp] theorem State.beginRound_resetReq (s : State) (base : Byte) : (s.beginRound base).resetReq = s.resetReq := rfl
@[simp] theorem State.beginRound_startReq (s : State) (base : Byte) : (s.beginRound base).startReq = s.startReq := rfl
@[simp] theorem State.beginRound_reqs (s : State) (base : Byte) : (s.beginRound base).reqs = s.reqs := rfl
@[simp] theorem State.beginRound_tx (s : State) (base : Byte) : (s.beginRound base).tx = s.tx := rfl
@[simp] theorem State.beginRound_await (s : State) (base : Byte) : (s.beginRound base).await = s.await := rfl
@[simp] theorem State.beginRound_begun (s : State) (base : Byte) : (s.beginRound base).begun = s.begun := rfl
@[simp] theorem State.beginRound_ret (s : State) (base : Byte) : (s.beginRound base).ret = s.ret := rfl
@[simp] theorem State.beginRound_session (s : State) (base : Byte) : (s.beginRound base).session = s.session := rfl
@[simp] theorem State.beginRound_handed (s : State) (base : Byte) : (s.beginRound base).handed = s.handed := rfl
@[simp] theorem State.beginRound_params (s : State) (base : Byte) : (s.beginRound base).params = s.params := rfl
@[simp] theorem State.beginRound_draws (s : State) (base : Byte) : (s.beginRound base).draws = s.draws := rfl

@[simp] theorem State.redrawBuf_phase (s : State) : s.redrawBuf.phase = s.phase := rfl
@[simp] theorem State.redrawBuf_count (s : State) : s.redrawBuf.count = s.count := rfl
@[simp] theorem State.redrawBuf_csum (s : State) : s.redrawBuf.csum = s.csum := rfl
@[simp] theorem State.redrawBuf_base (s : State) : s.redrawBuf.base = s.base := rfl
@[simp] theorem State.redrawBuf_buf (s : State) : s.redrawBuf.buf = powerUpBuf s.draws := rfl
@[simp] theorem State.redrawBuf_rx (s : State) : s.redrawBuf.rx = s.rx := rfl
@[simp] theorem State.redrawBuf_line (s : State) : s.redrawBuf.line = s.line := rfl
@[simp] theorem State.redrawBuf_closed (s : State) : s.redrawBuf.closed = s.closed := rfl
@[simp] theorem State.redrawBuf_more (s : State) : s.redrawBuf.more = s.more := rfl
@[simp] theorem State.redrawBuf_resetReq (s : State) : s.redrawBuf.resetReq = s.resetReq := rfl
@[simp] theorem State.redrawBuf_startReq (s : State) : s.redrawBuf.startReq = s.startReq := rfl
@[simp] theorem State.redrawBuf_reqs (s : State) : s.redrawBuf.reqs = s.reqs := rfl
@[simp] theorem State.redrawBuf_tx (s : State) : s.redrawBuf.tx = s.tx := rfl
@[simp] theorem State.redrawBuf_await (s : State) : s.redrawBuf.await = s.await := rfl
@[simp] theorem State.redrawBuf_begun (s : State) : s.redrawBuf.begun = s.begun := rfl
@[simp] theorem State.redrawBuf_ret (s : State) : s.redrawBuf.ret = s.ret := rfl
@[simp] theorem State.redrawBuf_session (s : State) : s.redrawBuf.session = s.session := rfl
@[simp] theorem State.redrawBuf_handed (s : State) : s.redrawBuf.handed = s.handed := rfl
@[simp] theorem State.redrawBuf_params (s : State) : s.redrawBuf.params = s.params := rfl
@[simp] theorem State.redrawBuf_draws (s : State) : s.redrawBuf.draws = s.draws + 1 := rfl

@[simp] theorem State.setBuf_phase (s : State) (m : List Host.Cell) : (s.setBuf m).phase = s.phase := rfl
@[simp] theorem State.setBuf_count (s : State) (m : List Host.Cell) : (s.setBuf m).count = s.count := rfl
@[simp] theorem State.setBuf_csum (s : State) (m : List Host.Cell) : (s.setBuf m).csum = s.csum := rfl
@[simp] theorem State.setBuf_base (s : State) (m : List Host.Cell) : (s.setBuf m).base = s.base := rfl
@[simp] theorem State.setBuf_buf (s : State) (m : List Host.Cell) : (s.setBuf m).buf = m := rfl
@[simp] theorem State.setBuf_rx (s : State) (m : List Host.Cell) : (s.setBuf m).rx = s.rx := rfl
@[simp] theorem State.setBuf_line (s : State) (m : List Host.Cell) : (s.setBuf m).line = s.line := rfl
@[simp] theorem State.setBuf_closed (s : State) (m : List Host.Cell) : (s.setBuf m).closed = s.closed := rfl
@[simp] theorem State.setBuf_more (s : State) (m : List Host.Cell) : (s.setBuf m).more = s.more := rfl
@[simp] theorem State.setBuf_resetReq (s : State) (m : List Host.Cell) : (s.setBuf m).resetReq = s.resetReq := rfl
@[simp] theorem State.setBuf_startReq (s : State) (m : List Host.Cell) : (s.setBuf m).startReq = s.startReq := rfl
@[simp] theorem State.setBuf_reqs (s : State) (m : List Host.Cell) : (s.setBuf m).reqs = s.reqs := rfl
@[simp] theorem State.setBuf_tx (s : State) (m : List Host.Cell) : (s.setBuf m).tx = s.tx := rfl
@[simp] theorem State.setBuf_await (s : State) (m : List Host.Cell) : (s.setBuf m).await = s.await := rfl
@[simp] theorem State.setBuf_begun (s : State) (m : List Host.Cell) : (s.setBuf m).begun = s.begun := rfl
@[simp] theorem State.setBuf_ret (s : State) (m : List Host.Cell) : (s.setBuf m).ret = s.ret := rfl
@[simp] theorem State.setBuf_session (s : State) (m : List Host.Cell) : (s.setBuf m).session = s.session := rfl
@[simp] theorem State.setBuf_handed (s : State) (m : List Host.Cell) : (s.setBuf m).handed = s.handed := rfl
@[simp] theorem State.setBuf_params (s : State) (m : List Host.Cell) : (s.setBuf m).params = s.params := rfl
@[simp] theorem State.setBuf_draws (s : State) (m : List Host.Cell) : (s.setBuf m).draws = s.draws := rfl

@[simp] theorem State.setClosed_phase (s : State) (b : Bool) : (s.setClosed b).phase = s.phase := rfl
@[simp] theorem State.setClosed_count (s : State) (b : Bool) : (s.setClosed b).count = s.count := rfl
@[simp] theorem State.setClosed_csum (s : State) (b : Bool) : (s.setClosed b).csum = s.csum := rfl
@[simp] theorem State.setClosed_base (s : State) (b : Bool) : (s.setClosed b).base = s.base := rfl
@[simp] theorem State.setClosed_buf (s : State) (b : Bool) : (s.setClosed b).buf = s.buf := rfl
@[simp] theorem State.setClosed_rx (s : State) (b : Bool) : (s.setClosed b).rx = s.rx := rfl
@[simp] theorem State.setClosed_line (s : State) (b : Bool) : (s.setClosed b).line = s.line := rfl
@[simp] theorem State.setClosed_closed (s : State) (b : Bool) : (s.setClosed b).closed = b := rfl
@[simp] theorem State.setClosed_more (s : State) (b : Bool) : (s.setClosed b).more = s.more := rfl
@[simp] theorem State.setClosed_resetReq (s : State) (b : Bool) : (s.setClosed b).resetReq = s.resetReq := rfl
@[simp] theorem State.setClosed_startReq (s : State) (b : Bool) : (s.setClosed b).startReq = s.startReq := rfl
@[simp] theorem State.setClosed_reqs (s : State) (b : Bool) : (s.setClosed b).reqs = s.reqs := rfl
@[simp] theorem State.setClosed_tx (s : State) (b : Bool) : (s.setClosed b).tx = s.tx := rfl
@[simp] theorem State.setClosed_await (s : State) (b : Bool) : (s.setClosed b).await = s.await := rfl
@[simp] theorem State.setClosed_begun (s : State) (b : Bool) : (s.setClosed b).begun = s.begun := rfl
@[simp] theorem State.setClosed_ret (s : State) (b : Bool) : (s.setClosed b).ret = s.ret := rfl
@[simp] theorem State.setClosed_session (s : State) (b : Bool) : (s.setClosed b).session = s.session := rfl
@[simp] theorem State.setClosed_handed (s : State) (b : Bool) : (s.setClosed b).handed = s.handed := rfl
@[simp] theorem State.setClosed_params (s : State) (b : Bool) : (s.setClosed b).params = s.params := rfl
@[simp] theorem State.setClosed_draws (s : State) (b : Bool) : (s.setClosed b).draws = s.draws := rfl
@[simp] theorem State.setClosed_block (s : State) (b : Bool) : (s.setClosed b).block = s.block := rfl

@[simp] theorem State.answer_phase (s : State) (r : Ret) : (s.answer r).phase = s.phase := rfl
@[simp] theorem State.answer_count (s : State) (r : Ret) : (s.answer r).count = s.count := rfl
@[simp] theorem State.answer_csum (s : State) (r : Ret) : (s.answer r).csum = s.csum := rfl
@[simp] theorem State.answer_base (s : State) (r : Ret) : (s.answer r).base = s.base := rfl
@[simp] theorem State.answer_buf (s : State) (r : Ret) : (s.answer r).buf = s.buf := rfl
@[simp] theorem State.answer_rx (s : State) (r : Ret) : (s.answer r).rx = s.rx := rfl
@[simp] theorem State.answer_line (s : State) (r : Ret) : (s.answer r).line = s.line := rfl
@[simp] theorem State.answer_closed (s : State) (r : Ret) : (s.answer r).closed = s.closed := rfl
@[simp] theorem State.answer_more (s : State) (r : Ret) : (s.answer r).more = s.more := rfl
@[simp] theorem State.answer_resetReq (s : State) (r : Ret) : (s.answer r).resetReq = s.resetReq := rfl
@[simp] theorem State.answer_startReq (s : State) (r : Ret) : (s.answer r).startReq = s.startReq := rfl
@[simp] theorem State.answer_reqs (s : State) (r : Ret) : (s.answer r).reqs = s.reqs := rfl
@[simp] theorem State.answer_tx (s : State) (r : Ret) : (s.answer r).tx = s.tx := rfl
@[simp] theorem State.answer_await (s : State) (r : Ret) : (s.answer r).await = s.await := rfl
@[simp] theorem State.answer_begun (s : State) (r : Ret) : (s.answer r).begun = s.begun := rfl
@[simp] theorem State.answer_ret (s : State) (r : Ret) : (s.answer r).ret = r := rfl
@[simp] theorem State.answer_session (s : State) (r : Ret) : (s.answer r).session = s.session := rfl
@[simp] theorem State.answer_handed (s : State) (r : Ret) : (s.answer r).handed = s.handed := rfl
@[simp] theorem State.answer_params (s : State) (r : Ret) : (s.answer r).params = s.params := rfl
@[simp] theorem State.answer_draws (s : State) (r : Ret) : (s.answer r).draws = s.draws := rfl

@[simp] theorem State.send_phase (s : State) (bs : List Byte) (e : Option Phase) : (s.send bs e).phase = s.phase := rfl
@[simp] theorem State.send_count (s : State) (bs : List Byte) (e : Option Phase) : (s.send bs e).count = s.count := rfl
@[simp] theorem State.send_csum (s : State) (bs : List Byte) (e : Option Phase) : (s.send bs e).csum = s.csum := rfl
@[simp] theorem State.send_base (s : State) (bs : List Byte) (e : Option Phase) : (s.send bs e).base = s.base := rfl
@[simp] theorem State.send_buf (s : State) (bs : List Byte) (e : Option Phase) : (s.send bs e).buf = s.buf := rfl
@[simp] theorem State.send_rx (s : State) (bs : List Byte) (e : Option Phase) : (s.send bs e).rx = s.rx := rfl
@[simp] theorem State.send_line (s : State) (bs : List Byte) (e : Option Phase) : (s.send bs e).line = s.line := rfl
@[simp] theorem State.send_closed (s : State) (bs : List Byte) (e : Option Phase) : (s.send bs e).closed = s.closed := rfl
@[simp] theorem State.send_more (s : State) (bs : List Byte) (e : Option Phase) : (s.send bs e).more = s.more := rfl
@[simp] theorem State.send_resetReq (s : State) (bs : List Byte) (e : Option Phase) : (s.send bs e).resetReq = s.resetReq := rfl
@[simp] theorem State.send_startReq (s : State) (bs : List Byte) (e : Option Phase) : (s.send bs e).startReq = s.startReq := rfl
@[simp] theorem State.send_reqs (s : State) (bs : List Byte) (e : Option Phase) : (s.send bs e).reqs = s.reqs := rfl
@[simp] theorem State.send_tx (s : State) (bs : List Byte) (e : Option Phase) : (s.send bs e).tx = s.tx ++ bs := rfl
@[simp] theorem State.send_await (s : State) (bs : List Byte) (e : Option Phase) : (s.send bs e).await = e := rfl
@[simp] theorem State.send_begun (s : State) (bs : List Byte) (e : Option Phase) : (s.send bs e).begun = !s.done := rfl
@[simp] theorem State.send_ret (s : State) (bs : List Byte) (e : Option Phase) : (s.send bs e).ret = s.ret := rfl
@[simp] theorem State.send_session (s : State) (bs : List Byte) (e : Option Phase) : (s.send bs e).session = s.session := rfl
@[simp] theorem State.send_handed (s : State) (bs : List Byte) (e : Option Phase) : (s.send bs e).handed = s.handed := rfl
@[simp] theorem State.send_params (s : State) (bs : List Byte) (e : Option Phase) : (s.send bs e).params = s.params := rfl
@[simp] theorem State.send_draws (s : State) (bs : List Byte) (e : Option Phase) : (s.send bs e).draws = s.draws := rfl

@[simp] theorem State.setPos_phase (s : State) (p : Pos) : (s.setPos p).phase = s.phase := rfl
@[simp] theorem State.setPos_count (s : State) (p : Pos) : (s.setPos p).count = s.count := rfl
@[simp] theorem State.setPos_csum (s : State) (p : Pos) : (s.setPos p).csum = s.csum := rfl
@[simp] theorem State.setPos_base (s : State) (p : Pos) : (s.setPos p).base = s.base := rfl
@[simp] theorem State.setPos_buf (s : State) (p : Pos) : (s.setPos p).buf = s.buf := rfl
@[simp] theorem State.setPos_rx (s : State) (p : Pos) : (s.setPos p).rx = s.rx := rfl
@[simp] theorem State.setPos_line (s : State) (p : Pos) : (s.setPos p).line = s.line := rfl
@[simp] theorem State.setPos_closed (s : State) (p : Pos) : (s.setPos p).closed = s.closed := rfl
@[simp] theorem State.setPos_more (s : State) (p : Pos) : (s.setPos p).more = s.more := rfl
@[simp] theorem State.setPos_resetReq (s : State) (p : Pos) : (s.setPos p).resetReq = s.resetReq := rfl
@[simp] theorem State.setPos_startReq (s : State) (p : Pos) : (s.setPos p).startReq = s.startReq := rfl
@[simp] theorem State.setPos_reqs (s : State) (p : Pos) : (s.setPos p).reqs = s.reqs := rfl
@[simp] theorem State.setPos_tx (s : State) (p : Pos) : (s.setPos p).tx = s.tx := rfl
@[simp] theorem State.setPos_await (s : State) (p : Pos) : (s.setPos p).await = s.await := rfl
@[simp] theorem State.setPos_begun (s : State) (p : Pos) : (s.setPos p).begun = s.begun := rfl
@[simp] theorem State.setPos_ret (s : State) (p : Pos) : (s.setPos p).ret = s.ret := rfl
@[simp] theorem State.setPos_session (s : State) (p : Pos) : (s.setPos p).session = { s.session with pos := p } := rfl
@[simp] theorem State.setPos_handed (s : State) (p : Pos) : (s.setPos p).handed = s.handed := rfl
@[simp] theorem State.setPos_params (s : State) (p : Pos) : (s.setPos p).params = s.params := rfl
@[simp] theorem State.setPos_draws (s : State) (p : Pos) : (s.setPos p).draws = s.draws := rfl

@[simp] theorem State.setPlan_phase (s : State) (xs : List BPEntry) : (s.setPlan xs).phase = s.phase := rfl
@[simp] theorem State.setPlan_count (s : State) (xs : List BPEntry) : (s.setPlan xs).count = s.count := rfl
@[simp] theorem State.setPlan_csum (s : State) (xs : List BPEntry) : (s.setPlan xs).csum = s.csum := rfl
@[simp] theorem State.setPlan_base (s : State) (xs : List BPEntry) : (s.setPlan xs).base = s.base := rfl
@[simp] theorem State.setPlan_buf (s : State) (xs : List BPEntry) : (s.setPlan xs).buf = s.buf := rfl
@[simp] theorem State.setPlan_rx (s : State) (xs : List BPEntry) : (s.setPlan xs).rx = s.rx := rfl
@[simp] theorem State.setPlan_line (s : State) (xs : List BPEntry) : (s.setPlan xs).line = s.line := rfl
@[simp] theorem State.setPlan_closed (s : State) (xs : List BPEntry) : (s.setPlan xs).closed = s.closed := rfl
@[simp] theorem State.setPlan_more (s : State) (xs : List BPEntry) : (s.setPlan xs).more = s.more := rfl
@[simp] theorem State.setPlan_resetReq (s : State) (xs : List BPEntry) : (s.setPlan xs).resetReq = s.resetReq := rfl
@[simp] theorem State.setPlan_startReq (s : State) (xs : List BPEntry) : (s.setPlan xs).startReq = s.startReq := rfl
@[simp] theorem State.setPlan_reqs (s : State) (xs : List BPEntry) : (s.setPlan xs).reqs = s.reqs := rfl
@[simp] theorem State.setPlan_tx (s : State) (xs : List BPEntry) : (s.setPlan xs).tx = s.tx := rfl
@[simp] theorem State.setPlan_await (s : State) (xs : List BPEntry) : (s.setPlan xs).await = s.await := rfl
@[simp] theorem State.setPlan_begun (s : State) (xs : List BPEntry) : (s.setPlan xs).begun = s.begun := rfl
@[simp] theorem State.setPlan_ret (s : State) (xs : List BPEntry) : (s.setPlan xs).ret = s.ret := rfl
@[simp] theorem State.setPlan_session (s : State) (xs : List BPEntry) : (s.setPlan xs).session = { s.session with records := { s.session.records with bp := xs } } := rfl
@[simp] theorem State.setPlan_handed (s : State) (xs : List BPEntry) : (s.setPlan xs).handed = s.handed := rfl
@[simp] theorem State.setPlan_params (s : State) (xs : List BPEntry) : (s.setPlan xs).params = s.params := rfl
@[simp] theorem State.setPlan_draws (s : State) (xs : List BPEntry) : (s.setPlan xs).draws = s.draws := rfl

@[simp] theorem State.setChannel_phase (s : State) (n : Nat) (c : ChRecord) : (s.setChannel n c).phase = s.phase := rfl
@[simp] theorem State.setChannel_count (s : State) (n : Nat) (c : ChRecord) : (s.setChannel n c).count = s.count := rfl
@[simp] theorem State.setChannel_csum (s : State) (n : Nat) (c : ChRecord) : (s.setChannel n c).csum = s.csum := rfl
@[simp] theorem State.setChannel_base (s : State) (n : Nat) (c : ChRecord) : (s.setChannel n c).base = s.base := rfl
@[simp] theorem State.setChannel_buf (s : State) (n : Nat) (c : ChRecord) : (s.setChannel n c).buf = s.buf := rfl
@[simp] theorem State.setChannel_rx (s : State) (n : Nat) (c : ChRecord) : (s.setChannel n c).rx = s.rx := rfl
@[simp] theorem State.setChannel_line (s : State) (n : Nat) (c : ChRecord) : (s.setChannel n c).line = s.line := rfl
@[simp] theorem State.setChannel_closed (s : State) (n : Nat) (c : ChRecord) : (s.setChannel n c).closed = s.closed := rfl
@[simp] theorem State.setChannel_more (s : State) (n : Nat) (c : ChRecord) : (s.setChannel n c).more = s.more := rfl
@[simp] theorem State.setChannel_resetReq (s : State) (n : Nat) (c : ChRecord) : (s.setChannel n c).resetReq = s.resetReq := rfl
@[simp] theorem State.setChannel_startReq (s : State) (n : Nat) (c : ChRecord) : (s.setChannel n c).startReq = s.startReq := rfl
@[simp] theorem State.setChannel_reqs (s : State) (n : Nat) (c : ChRecord) : (s.setChannel n c).reqs = s.reqs := rfl
@[simp] theorem State.setChannel_tx (s : State) (n : Nat) (c : ChRecord) : (s.setChannel n c).tx = s.tx := rfl
@[simp] theorem State.setChannel_await (s : State) (n : Nat) (c : ChRecord) : (s.setChannel n c).await = s.await := rfl
@[simp] theorem State.setChannel_begun (s : State) (n : Nat) (c : ChRecord) : (s.setChannel n c).begun = s.begun := rfl
@[simp] theorem State.setChannel_ret (s : State) (n : Nat) (c : ChRecord) : (s.setChannel n c).ret = s.ret := rfl
@[simp] theorem State.setChannel_session (s : State) (n : Nat) (c : ChRecord) : (s.setChannel n c).session = { s.session with records := { s.session.records with ch := s.session.records.ch.set (n - 1) c } } := rfl
@[simp] theorem State.setChannel_handed (s : State) (n : Nat) (c : ChRecord) : (s.setChannel n c).handed = s.handed := rfl
@[simp] theorem State.setChannel_params (s : State) (n : Nat) (c : ChRecord) : (s.setChannel n c).params = s.params := rfl
@[simp] theorem State.setChannel_draws (s : State) (n : Nat) (c : ChRecord) : (s.setChannel n c).draws = s.draws := rfl

@[simp] theorem State.setLink_phase (s : State) (l : Link) : (s.setLink l).phase = s.phase := rfl
@[simp] theorem State.setLink_count (s : State) (l : Link) : (s.setLink l).count = s.count := rfl
@[simp] theorem State.setLink_csum (s : State) (l : Link) : (s.setLink l).csum = s.csum := rfl
@[simp] theorem State.setLink_base (s : State) (l : Link) : (s.setLink l).base = s.base := rfl
@[simp] theorem State.setLink_buf (s : State) (l : Link) : (s.setLink l).buf = s.buf := rfl
@[simp] theorem State.setLink_resetReq (s : State) (l : Link) : (s.setLink l).resetReq = s.resetReq := rfl
@[simp] theorem State.setLink_startReq (s : State) (l : Link) : (s.setLink l).startReq = s.startReq := rfl
@[simp] theorem State.setLink_reqs (s : State) (l : Link) : (s.setLink l).reqs = s.reqs := rfl
@[simp] theorem State.setLink_tx (s : State) (l : Link) : (s.setLink l).tx = s.tx := rfl
@[simp] theorem State.setLink_await (s : State) (l : Link) : (s.setLink l).await = s.await := rfl
@[simp] theorem State.setLink_begun (s : State) (l : Link) : (s.setLink l).begun = s.begun := rfl
@[simp] theorem State.setLink_ret (s : State) (l : Link) : (s.setLink l).ret = s.ret := rfl
@[simp] theorem State.setLink_session (s : State) (l : Link) : (s.setLink l).session = s.session := rfl
@[simp] theorem State.setLink_handed (s : State) (l : Link) : (s.setLink l).handed = s.handed := rfl
@[simp] theorem State.setLink_params (s : State) (l : Link) : (s.setLink l).params = s.params := rfl
@[simp] theorem State.setLink_draws (s : State) (l : Link) : (s.setLink l).draws = s.draws := rfl
@[simp] theorem State.setLink_rx (s : State) (l : Link) : (s.setLink l).rx = l.rx := rfl
@[simp] theorem State.setLink_line (s : State) (l : Link) : (s.setLink l).line = l.line := rfl
@[simp] theorem State.setLink_closed (s : State) (l : Link) : (s.setLink l).closed = l.closed := rfl
@[simp] theorem State.setLink_more (s : State) (l : Link) : (s.setLink l).more = l.more := rfl
@[simp] theorem State.setLink_link (s : State) (l : Link) : (s.setLink l).link = l := rfl
@[simp] theorem State.setLink_self (s : State) : s.setLink s.link = s := rfl
@[simp] theorem State.setLink_setLink (s : State) (l l' : Link) : (s.setLink l).setLink l' = s.setLink l' := rfl
@[simp] theorem State.setLink_block (s : State) (l : Link) : (s.setLink l).block = s.block := rfl

@[simp] theorem State.beginSession_phase (s : State) (o : Order) : (s.beginSession o).phase = s.phase := rfl
@[simp] theorem State.beginSession_count (s : State) (o : Order) : (s.beginSession o).count = s.count := rfl
@[simp] theorem State.beginSession_csum (s : State) (o : Order) : (s.beginSession o).csum = s.csum := rfl
@[simp] theorem State.beginSession_base (s : State) (o : Order) : (s.beginSession o).base = s.base := rfl
@[simp] theorem State.beginSession_buf (s : State) (o : Order) : (s.beginSession o).buf = s.buf := rfl
@[simp] theorem State.beginSession_rx (s : State) (o : Order) : (s.beginSession o).rx = s.rx := rfl
@[simp] theorem State.beginSession_line (s : State) (o : Order) : (s.beginSession o).line = s.line := rfl
@[simp] theorem State.beginSession_closed (s : State) (o : Order) : (s.beginSession o).closed = s.closed := rfl
@[simp] theorem State.beginSession_more (s : State) (o : Order) : (s.beginSession o).more = s.more := rfl
@[simp] theorem State.beginSession_resetReq (s : State) (o : Order) : (s.beginSession o).resetReq = s.resetReq := rfl
@[simp] theorem State.beginSession_startReq (s : State) (o : Order) : (s.beginSession o).startReq = s.startReq := rfl
@[simp] theorem State.beginSession_reqs (s : State) (o : Order) : (s.beginSession o).reqs = s.reqs := rfl
@[simp] theorem State.beginSession_tx (s : State) (o : Order) : (s.beginSession o).tx = s.tx := rfl
@[simp] theorem State.beginSession_await (s : State) (o : Order) : (s.beginSession o).await = s.await := rfl
@[simp] theorem State.beginSession_begun (s : State) (o : Order) : (s.beginSession o).begun = s.begun := rfl
@[simp] theorem State.beginSession_ret (s : State) (o : Order) : (s.beginSession o).ret = s.ret := rfl
@[simp] theorem State.beginSession_params (s : State) (o : Order) : (s.beginSession o).params = s.params := rfl
@[simp] theorem State.beginSession_draws (s : State) (o : Order) : (s.beginSession o).draws = s.draws := rfl
@[simp] theorem State.beginSession_block (s : State) (o : Order) : (s.beginSession o).block = s.block := rfl
@[simp] theorem State.beginSession_session (s : State) (o : Order) : (s.beginSession o).session = { s.session with pos := .hello o.txn, records := o.records } := rfl
@[simp] theorem State.beginSession_handed (s : State) (o : Order) : (s.beginSession o).handed = s.handed := rfl

@[simp] theorem State.endSession_phase (s : State) : s.endSession.phase = s.phase := rfl
@[simp] theorem State.endSession_count (s : State) : s.endSession.count = s.count := rfl
@[simp] theorem State.endSession_csum (s : State) : s.endSession.csum = s.csum := rfl
@[simp] theorem State.endSession_base (s : State) : s.endSession.base = s.base := rfl
@[simp] theorem State.endSession_buf (s : State) : s.endSession.buf = s.buf := rfl
@[simp] theorem State.endSession_rx (s : State) : s.endSession.rx = s.rx := rfl
@[simp] theorem State.endSession_line (s : State) : s.endSession.line = s.line := rfl
@[simp] theorem State.endSession_closed (s : State) : s.endSession.closed = s.closed := rfl
@[simp] theorem State.endSession_more (s : State) : s.endSession.more = s.more := rfl
@[simp] theorem State.endSession_resetReq (s : State) : s.endSession.resetReq = s.resetReq := rfl
@[simp] theorem State.endSession_startReq (s : State) : s.endSession.startReq = s.startReq := rfl
@[simp] theorem State.endSession_reqs (s : State) : s.endSession.reqs = s.reqs := rfl
@[simp] theorem State.endSession_tx (s : State) : s.endSession.tx = s.tx := rfl
@[simp] theorem State.endSession_await (s : State) : s.endSession.await = s.await := rfl
@[simp] theorem State.endSession_begun (s : State) : s.endSession.begun = s.begun := rfl
@[simp] theorem State.endSession_ret (s : State) : s.endSession.ret = s.ret := rfl
@[simp] theorem State.endSession_params (s : State) : s.endSession.params = s.params := rfl
@[simp] theorem State.endSession_draws (s : State) : s.endSession.draws = s.draws := rfl
@[simp] theorem State.endSession_block (s : State) : s.endSession.block = s.block := rfl
@[simp] theorem State.endSession_session (s : State) : s.endSession.session = { s.session with pos := .idle, records := Records.none } := rfl
@[simp] theorem State.endSession_handed (s : State) : s.endSession.handed = some s.session.records := rfl

@[simp] theorem State.answer_block (s : State) (r : Ret) : (s.answer r).block = s.block := rfl
@[simp] theorem State.send_block (s : State) (bs : List Byte) (e : Option Phase) : (s.send bs e).block = s.block := rfl
@[simp] theorem State.setPos_block (s : State) (p : Pos) : (s.setPos p).block = s.block := rfl
@[simp] theorem State.setPlan_block (s : State) (xs : List BPEntry) : (s.setPlan xs).block = s.block := rfl
@[simp] theorem State.setChannel_block (s : State) (n : Nat) (c : ChRecord) : (s.setChannel n c).block = s.block := rfl

@[simp] theorem mapNext_next (s : State) (f : State → State) : mapNext (.next s) f = .next (f s) := rfl
@[simp] theorem mapNext_fault (r : Fault) (f : State → State) : mapNext (.fault r) f = .fault r := rfl
@[simp] theorem mapNext_refused (r : Refusal) (f : State → State) : mapNext (.refused r) f = .refused r := rfl

/-- What a continued step answers. -/
theorem mapNext_eq_next {o : Result} {f : State → State} {t : State} (h : mapNext o f = .next t) :
    ∃ u, o = .next u ∧ t = f u := by
  cases o with
  | next u => exact ⟨u, rfl, by simpa using h.symm⟩
  | fault r => simp at h
  | refused r => simp at h

/-- Settling the leftover bytes touches only the bytes in hand and the draw counter: they stay, or all of them go after a terminal state
(R288, R291). -/
theorem State.settleLeftovers_eq (s : State) :
    ∃ rx k, s.settleLeftovers = { s with rx := rx, draws := k } ∧ (rx = s.rx ∨ s.done = true ∧ rx = []) := by
  unfold State.settleLeftovers
  split
  · exact ⟨s.rx, s.draws, rfl, .inl rfl⟩
  · rename_i b bs hx
    split
    · rename_i hd
      refine ⟨_, _, rfl, ?_⟩
      rw [hx]
      cases Config.dropLeftover s.draws
      · exact .inl rfl
      · exact .inr ⟨hd, rfl⟩
    · exact ⟨s.rx, s.draws, rfl, .inl rfl⟩

/-- Everything the round boundary can do. -/
theorem State.boundary_eq (s : State) :
    ∃ rx k, s.boundary = { s with rx := rx, draws := k, begun := true } ∧ (rx = s.rx ∨ s.done = true ∧ rx = []) := by
  obtain ⟨rx, k, h, hrx⟩ := s.settleLeftovers_eq
  exact ⟨rx, k, by unfold State.boundary; rw [h], hrx⟩

/-- Taking the START off its port and the round boundary do not meet. -/
theorem State.boundary_startReq (s : State) (x : Option Byte) :
    State.boundary { s with startReq := x } = { s.boundary with startReq := x } := by
  obtain ⟨phase, _, _, _, _, rx⟩ := s
  cases rx with
  | nil => rfl
  | cons b r => cases phase <;> rfl

/-- Taking the reset off its port and the round boundary do not meet. -/
theorem State.boundary_resetReq (s : State) (x : Option ResetKind) :
    State.boundary { s with resetReq := x } = { s.boundary with resetReq := x } := by
  obtain ⟨phase, _, _, _, _, rx⟩ := s
  cases rx with
  | nil => rfl
  | cons b r => cases phase <;> rfl

/-- With no byte left in hand, or mid-round, the boundary keeps the stream and draws nothing (R291). -/
theorem State.boundary_keep {s : State} (h : s.rx = [] ∨ s.done = false) : s.boundary = { s with begun := true } := by
  unfold State.boundary State.settleLeftovers
  split
  · rfl
  · rename_i hx
    have hd : s.done = false := h.resolve_left (by rw [hx]; simp)
    rw [if_neg (by simp [hd])]

@[simp] theorem State.boundary_begun (s : State) : s.boundary.begun = true := rfl

@[simp] theorem State.boundary_block (s : State) : s.boundary.block = s.block := by
  obtain ⟨rx, k, h, -⟩ := s.boundary_eq
  rw [h]; rfl

@[simp] theorem State.boundary_session (s : State) : s.boundary.session = s.session := by
  obtain ⟨rx, k, h, -⟩ := s.boundary_eq
  rw [h]

@[simp] theorem State.boundary_handed (s : State) : s.boundary.handed = s.handed := by
  obtain ⟨rx, k, h, -⟩ := s.boundary_eq
  rw [h]

@[simp] theorem State.boundary_tx (s : State) : s.boundary.tx = s.tx := by
  obtain ⟨rx, k, h, -⟩ := s.boundary_eq
  rw [h]

end Sys2Proof.Machine
end

