-- ==== Sys2Proof/Certificates/Slice0/Obligations.lean ====
section
/-! DEFINITION. Certificates/Slice0/Obligations.lean: the statements for the provers. Each docstring names the rules of spec/ it formalises. -/

open Sys2Proof Sys2Proof.Machine

/-! ### The classifier's bytes -/

/-- R100, R101: in Idle the byte 0x30 starts collecting and changes nothing but STATE, COUNT and CSUM; the bytes 0x31, 0x45 and 0x46 end the
round as Acknowledged and nothing else changes. -/
def Obligations.HeaderCollectsAcknowledgementEnds : Prop :=
  ∀ s : State, s.phase = .idle →
    (sortByte s.phase s.count 0x30 = .hdr ∧
      exec .hdr s = .next { s with phase := .collecting, count := 0, csum := 0 }) ∧
    sortByte s.phase s.count 0x31 = .ack1 ∧ sortByte s.phase s.count 0x45 = .ackE ∧
    sortByte s.phase s.count 0x46 = .ackF ∧
    ∀ i ∈ [Instr.ack1, .ackE, .ackF], exec i s = .next { s with phase := .acknowledged }

/-- R61, R103: every byte falls in exactly one class in Idle, 252 of them are noise, and noise changes nothing: a step consumes the byte
and drops it. -/
def Obligations.IdleBytesFallInOneClass : Prop :=
  (∀ (c : BitVec 6) (b : Byte),
    (sortByte .idle c b = .hdr ↔ b = 0x30) ∧ (sortByte .idle c b = .ack1 ↔ b = 0x31) ∧
    (sortByte .idle c b = .ackE ↔ b = 0x45) ∧ (sortByte .idle c b = .ackF ↔ b = 0x46) ∧
    (sortByte .idle c b = .noise b ↔ b ≠ 0x30 ∧ b ≠ 0x31 ∧ b ≠ 0x45 ∧ b ≠ 0x46)) ∧
  ((List.range 256).countP (fun n => sortByte .idle 0 (BitVec.ofNat 8 n) == .noise (BitVec.ofNat 8 n)) = 252) ∧
  ∀ (s : State) (b : Byte), s.phase = .idle → b ≠ 0x30 → b ≠ 0x31 → b ≠ 0x45 → b ≠ 0x46 →
    exec (.noise b) s = .next s ∧
    ∀ rest, Listening s → s.rx = b :: rest → step s = .next { s with rx := rest }

/-- R102: a payload byte of any value is stored at BASE + COUNT, summed and counted; every other byte of BUF and every other
register stays. -/
def Obligations.PayloadByteStoredSummedCounted : Prop :=
  ∀ (s : State) (b : Byte), Inv s → s.phase = .collecting → s.count.toNat < 32 →
    sortByte s.phase s.count b = .data b ∧ s.base.toNat + s.count.toNat ≤ 223 ∧
    ∃ t, exec (.data b) s = .next t ∧
      t = { s with buf := t.buf, csum := t.csum, count := t.count } ∧
      t.csum.toNat = (s.csum.toNat + b.toNat) % 256 ∧
      t.count.toNat = s.count.toNat + 1 ∧
      Memory.read t.buf (s.base.toNat + s.count.toNat) = some b ∧
      ∀ a, a ≠ s.base.toNat + s.count.toNat → Memory.read t.buf a = Memory.read s.buf a

/-- R109: the byte after 32 payload bytes is compared with CSUM; only STATE changes, so the byte is not stored. -/
def Obligations.ChecksumByteDecidesOutcome : Prop :=
  ∀ (s : State) (b : Byte), s.phase = .collecting → s.count.toNat = 32 →
    sortByte s.phase s.count b = .chk b ∧
    (b = s.csum → exec (.chk b) s = .next { s with phase := .checksumOk }) ∧
    (b ≠ s.csum → exec (.chk b) s = .next { s with phase := .checksumBad })

/-- R104, R105: EOS ends an unfinished round as Incomplete and keeps a terminal outcome; IN_READY is 1 exactly in Idle and Collecting; in a
terminal state it is 0 and a byte presented stays at the head of the stream. That the byte held there is a step which leaves the state as it is
(TERMINAL_HOLD answers a next state) is the model's choice (log 17): R33 and R110 name no step there. -/
def Obligations.EndOfStreamAndTerminalStates : Prop :=
  (∀ s : State,
    (s.phase = .idle ∨ s.phase = .collecting → exec .eos s = .next { s with phase := .incomplete }) ∧
    (s.phase ≠ .idle → s.phase ≠ .collecting → exec .eos s = .next s) ∧
    (s.inReady = true ↔ s.phase = .idle ∨ s.phase = .collecting)) ∧
  ∀ (s : State) (b : Byte),
    (s.phase = .checksumOk ∨ s.phase = .checksumBad ∨ s.phase = .acknowledged ∨ s.phase = .incomplete) →
    s.inReady = false ∧ sortByte s.phase s.count b = .terminalHold b ∧ exec (.terminalHold b) s = .next s ∧
    ∀ rest, Listening s → s.rx = b :: rest → step s = .next s

/-! ### Controls -/

/-- R106, R41: START(base) begins a round in every state when base is at most 192; a larger base is refused. -/
def Obligations.StartBeginsRoundOrIsRefused : Prop :=
  ∀ (s : State) (base : Byte),
    (base.toNat ≤ 192 → exec (.start base) s = .next { s with phase := .idle, count := 0, csum := 0, base := base }) ∧
    (192 < base.toNat → exec (.start base) s = .refused (.startBase base))

/-- R108, R280: reset in every state; only a power-up changes BUF, to contents drawn by `Config.bufInit` (log 1); no byte of the stream is
touched. That everything around the block stays is the model's reading (log 23). -/
def Obligations.ResetReturnsToIdle : Prop :=
  ∀ s : State,
    exec (.reset .warm) s = .next { s with phase := .idle, count := 0, csum := 0, base := 0 } ∧
    ∃ t, exec (.reset .powerUp) s = .next t ∧
      t = { s with phase := .idle, count := 0, csum := 0, base := 0, buf := t.buf, draws := t.draws } ∧
      Memory.wf t.buf = true ∧ ∀ a, a < 224 → Memory.read t.buf a = some (Config.bufInit s.draws a)

/-- R33: which instruction writes which register. Every other combination leaves it unchanged. -/
def Obligations.RegistersWrittenOnlyByTheirSteps : Prop :=
  ∀ (i : Instr) (s t : State), exec i s = .next t →
    (t.base ≠ s.base → (∃ b, i = .start b) ∨ ∃ k, i = .reset k) ∧
    (t.count ≠ s.count → i = .hdr ∨ (∃ b, i = .data b) ∨ (∃ b, i = .start b) ∨ ∃ k, i = .reset k) ∧
    (t.csum ≠ s.csum → i = .hdr ∨ (∃ b, i = .data b) ∨ (∃ b, i = .start b) ∨ ∃ k, i = .reset k) ∧
    (t.buf ≠ s.buf → (∃ b, i = .data b) ∨ i = .reset .powerUp) ∧
    (t.phase ≠ s.phase → i = .hdr ∨ i = .ack1 ∨ i = .ackE ∨ i = .ackF ∨ (∃ b, i = .chk b) ∨ i = .eos ∨
      (∃ b, i = .start b) ∨ ∃ k, i = .reset k)

/-- R107: only START or reset moves the classifier out of a terminal state: no other instruction does, and no step does unless a reset
or a START is offered or the host's transaction issues one. -/
def Obligations.TerminalOutcomeKeptUntilStartOrReset : Prop :=
  (∀ (i : Instr) (s t : State), terminal s.phase = true → exec i s = .next t → t.phase ≠ s.phase →
    (∃ b, i = .start b) ∨ ∃ k, i = .reset k) ∧
  ∀ s t : State, terminal s.phase = true → s.resetReq = none → s.startReq = none →
    (∀ k, s.session.pos ≠ .helloStart k) → (∀ k n, s.session.pos ≠ .roundStart k n) →
    step s = .next t → t.phase = s.phase

/-! ### The codec as a whole -/

/-- R31: a codec call changes nothing but the result given back, and that result depends only on the operands: on BUF only where an operand is a
snapshot of BUF, and on the letter-P policy (R199) only in GROUP_PACK and STRING_TO_GROUP. -/
def Obligations.CodecCallsAreStateless : Prop :=
  ∀ (i : Instr) (s t : State), codecInstr i = true → exec i s = .next t →
    t = { s with ret := t.ret } ∧
    ∀ s' : State, (takesSnapshot i = true → s'.buf = s.buf) → (usesLetterP i = true → s'.params.groupP = s.params.groupP) →
      exec i s' = .next { s' with ret := t.ret }

/-- R253: every codec call completes, on every value of its operands, in every state that meets the invariant, but for the two calls that
cannot: an m too large for FREQ_FROM_MHZ (refused, R220), and a snapshot that leaves BUF (a fault, R40). Where the rules of spec/ name no result
for an operand's value the call gives a free value back, and WRITE sends free payload bytes: the model's choice (log 29). Everything a rule says
apart from that one value still holds there: the sum is that of the payload, an image keeps its length, its magic and its zeros, and an entry is
accepted only with the magic and valid words. CH_ENCODE writes any name byte for byte, one with a 0x00 byte too, which is the model's choice (log
30). A text with a byte 0x80..0xFF has the tone word 0, and its group letters are those of its ASCII bytes: the model's choice too (log 32). A
number strictly between 300.04 and 300.05 has the tone word 3000, as the pseudocode of R224 gives it and its corner case (8) does not: the model's
choice (log 33). WRITE sends the frame `31 idx p c` of R66 and changes besides only `await` and `begun`, the model's own fields (log 5). -/
def Obligations.CodecCallsComplete : Prop :=
  (∀ (i : Instr) (s : State), codecInstr i = true → Inv s → snapshotInside i = true →
    (∀ m, i = .freqFromMhz m → freqWordOf m < 2 ^ 32) → ∃ r, exec i s = .next { s with ret := r }) ∧
  (∀ (s : State) (idx : Byte) (p : List Byte), ∃ (q : List Byte) (c : Byte),
    q.length = 32 ∧ (p.length = 32 → q = p) ∧ c.toNat = sumMod256 q ∧
    exec (.cmdWrite idx p) s =
      .next { s with tx := s.tx ++ [0x31, idx] ++ q ++ [c], await := some .acknowledged, begun := !s.done }) ∧
  (∀ (s : State) (t : Half), (∃ w, Answers (.toneCompose (.ctcss t)) s (.half w)) ∧ ∃ text, Answers (.ctcssText t) s (.bytes text)) ∧
  (∀ (s : State) (vs : List Byte), ∃ w, Answers (.groupPack vs) s (.half w)) ∧
  (∀ (s : State) (c : ChRecord), ∃ B, Answers (.chEncode c) s (.bytes B) ∧ ∀ k, k < 12 → byteAt B (20 + k) = c.name.getD k 0) ∧
  (∀ (s : State) (str : List Byte), (∃ b ∈ str, 128 ≤ b.toNat) → Answers (.stringToTone str) s (.half 0) ∧
    exec (.stringToGroup str) s = exec (.stringToGroup (str.filter (fun b => decide (b.toNat < 128)))) s) ∧
  (∀ (str sign point : List Byte) (d : Decimal) (s : State), NumberText str sign point d → DisputedTone sign d →
    Answers (.stringToTone str) s (.half 3000)) ∧
  (∀ (s : State) (plan : List BPEntry), ∃ img, Answers (.bpEncode plan) s (.bytes img) ∧ img.length = 224 ∧
    byteAt img 0 = 0x6D ∧ byteAt img 1 = 0xA4 ∧ ∀ a, 202 ≤ a → a < 224 → byteAt img a = 0) ∧
  ∀ (img : Arr) (bs : List Byte) (n : Nat) (s : State), arrBytes 224 img s = some bs →
    (∀ x, ∃ out, Answers (.bpEntryEncode img n x) s (.bytes out) ∧ out.length = 224) ∧
    (∃ x, Answers (.bpEntryDecode img n) s (.entry x) ∧ (x = bpDefault ∨
      byteAt bs 0 = 0x6D ∧ byteAt bs 1 = 0xA4 ∧ 1800000 ≤ x.startWord.toNat ∧ x.startWord.toNat < x.endWord.toNat ∧
        x.endWord.toNat ≤ 130000000)) ∧
    ∃ p c, Answers (.bpBlock img n) s (.block p c) ∧ p.length = 32 ∧ c.toNat = sumMod256 p

/-- R31, R42, R264: a call on a snapshot of BUF is the call on the bytes BUF holds. -/
def Obligations.SnapshotOperandIsWhatBufHolds : Prop :=
  ∀ s : State, Inv s →
    (∃ img : List Byte, img.length = 224 ∧ (∀ k, k < 224 → Memory.read s.buf k = img[k]?) ∧
      exec (.bpMagicOk (.buf 0)) s = exec (.bpMagicOk (.lit img)) s ∧
      exec (.bpDecode (.buf 0)) s = exec (.bpDecode (.lit img)) s ∧
      (∀ r x, exec (.bpEntryEncode (.buf 0) r x) s = exec (.bpEntryEncode (.lit img) r x) s) ∧
      (∀ r, exec (.bpEntryDecode (.buf 0) r) s = exec (.bpEntryDecode (.lit img) r) s) ∧
      (∀ n, exec (.bpBlock (.buf 0) n) s = exec (.bpBlock (.lit img) n) s)) ∧
    (∀ off, off + 33 ≤ 224 →
      ∃ bs : List Byte, bs.length = 33 ∧ (∀ k, k < 33 → Memory.read s.buf (off + k) = bs[k]?) ∧
      exec (.chDecode (.buf off)) s = exec (.chDecode (.lit bs)) s ∧
      exec (.chNameUnpack (.buf off)) s = exec (.chNameUnpack (.lit bs)) s ∧
      ∀ nm, exec (.chNamePack (.buf off) nm) s = exec (.chNamePack (.lit bs) nm) s) ∧
    (∀ off, off + 32 ≤ 224 →
      ∃ bs : List Byte, bs.length = 32 ∧ (∀ k, k < 32 → Memory.read s.buf (off + k) = bs[k]?) ∧
      exec (.checksum8 (.buf off)) s = exec (.checksum8 (.lit bs)) s)

/-! ### Host commands -/

/-- R66: the frames of the five host commands, in wire order, and the outcome the host waits for. Only the bytes sent and what the host
remembers of its command change; those two fields, `await` and `begun`, are the model's (log 5). R251 class 2b in their terms: after E or WRITE a
missing acknowledgement is judged only once the round of that command has begun and ended, never by the round before it. -/
def Obligations.HostCommandsSendTheirFrames : Prop :=
  (∀ (s : State) (idx : Byte) (p : List Byte),
    exec .cmdE s = .next { s with tx := s.tx ++ [0x45], await := some .acknowledged, begun := !s.done } ∧
    exec .cmdF s = .next { s with tx := s.tx ++ [0x46], await := none, begun := !s.done } ∧
    exec .cmdI s = .next { s with tx := s.tx ++ [0x49], await := none, begun := !s.done } ∧
    exec (.cmdRead idx) s = .next { s with tx := s.tx ++ [0x30, idx], await := some .checksumOk, begun := !s.done } ∧
    (p.length = 32 → ∃ c : Byte, c.toNat = sumMod256 p ∧
      exec (.cmdWrite idx p) s =
        .next { s with tx := s.tx ++ [0x31, idx] ++ p ++ [c], await := some .acknowledged, begun := !s.done })) ∧
  (∀ (i : Instr) (s t : State), commandInstr i = true → exec i s = .next t → t.missingAck = false) ∧
  (∀ s : State, s.boundary.begun = true) ∧
  ∀ s : State,
    (s.await = some .acknowledged → s.begun = true →
      (s.missingAck = true ↔ s.phase = .checksumOk ∨ s.phase = .checksumBad ∨ s.phase = .incomplete)) ∧
    (s.await ≠ some .acknowledged ∨ s.begun = false → s.missingAck = false)

/-! ### Band-plan codec -/

/-- R132, R133: the flags byte is `tx + 2*wrap + 4*mod + 32*bw`, unpacking gives the fields back, and every byte is the packing of its
fields, the reserved bw values 6 and 7 included. -/
def Obligations.FlagsBytePacksAndUnpacks : Prop :=
  (∀ (tx wrap : BitVec 1) (mod bw : BitVec 3) (s : State), ∃ f : Byte,
    Answers (.bpFlagsPack tx wrap mod bw) s (.byte f) ∧
    f.toNat = tx.toNat + 2 * wrap.toNat + 4 * mod.toNat + 32 * bw.toNat ∧
    Answers (.bpFlagsUnpack f) s (.flags { tx := tx, wrap := wrap, mod := mod, bw := bw })) ∧
  ∀ (f : Byte) (s : State), ∃ x : BpFlags,
    Answers (.bpFlagsUnpack f) s (.flags x) ∧
    f.toNat = x.tx.toNat + 2 * x.wrap.toNat + 4 * x.mod.toNat + 32 * x.bw.toNat

/-- R134: the entry's ten bytes, bit 31 of each word written 0, and every other byte of the image unchanged. -/
def Obligations.EntryEncodeWritesTenBytes : Prop :=
  ∀ (img : Arr) (bs : List Byte) (r : Nat) (x : BPEntry) (s : State),
    img.ok 224 = true → arrBytes 224 img s = some bs → 1 ≤ r → r ≤ 20 →
    ∃ out, Answers (.bpEntryEncode img r x) s (.bytes out) ∧ out.length = 224 ∧
      memRead32 out (2 + (r - 1) * 10) = x.startWord &&& 0x7FFFFFFF ∧
      memRead32 out (2 + (r - 1) * 10 + 4) = x.endWord &&& 0x7FFFFFFF ∧
      byteAt out (2 + (r - 1) * 10 + 8) = x.maxPower ∧
      (byteAt out (2 + (r - 1) * 10 + 9)).toNat = x.tx.toNat + 2 * x.wrap.toNat + 4 * x.mod.toNat + 32 * x.bw.toNat ∧
      ∀ a, a < 2 + (r - 1) * 10 ∨ 2 + (r - 1) * 10 + 10 ≤ a → byteAt out a = byteAt bs a

/-- R135, R69: the image is 224 bytes: the magic, each entry at `2 + (r-1)*10`, and zeros from 202 on. -/
def Obligations.PlanEncodeLaysOutImage : Prop :=
  ∀ (plan : List BPEntry) (s : State), plan.length = 20 →
    ∃ img, Answers (.bpEncode plan) s (.bytes img) ∧ img.length = 224 ∧
      byteAt img 0 = 0x6D ∧ byteAt img 1 = 0xA4 ∧
      (∀ (r : Nat) (x : BPEntry), 1 ≤ r → plan[r - 1]? = some x →
        memRead32 img (2 + (r - 1) * 10) = x.startWord &&& 0x7FFFFFFF ∧
        memRead32 img (2 + (r - 1) * 10 + 4) = x.endWord &&& 0x7FFFFFFF ∧
        byteAt img (2 + (r - 1) * 10 + 8) = x.maxPower ∧
        bpFlagsUnpack (byteAt img (2 + (r - 1) * 10 + 9)) = { tx := x.tx, wrap := x.wrap, mod := x.mod, bw := x.bw }) ∧
      ∀ a, 202 ≤ a → a < 224 → byteAt img a = 0

/-- R136, R137: the magic test looks at bytes 0 and 1; a pair of words is valid exactly when 1800000 <= s < t <= 130000000. -/
def Obligations.MagicAndValidityTests : Prop :=
  (∀ (img : Arr) (bs : List Byte) (s : State), img.ok 224 = true → arrBytes 224 img s = some bs →
    ∃ v, Answers (.bpMagicOk img) s (.bit v) ∧ (v = true ↔ byteAt bs 0 = 0x6D ∧ byteAt bs 1 = 0xA4)) ∧
  ∀ (a b : Word) (s : State),
    ∃ v, Answers (.bpEntryValid a b) s (.bit v) ∧
      (v = true ↔ 1800000 ≤ a.toNat ∧ a.toNat < b.toNat ∧ b.toNat ≤ 130000000)

/-- R138: an entry is populated from its bytes only if the magic matches and its masked words are valid, else it is BP_DEFAULT (R131). -/
def Obligations.EntryDecodeAcceptsOrDefaults : Prop :=
  ∀ (img : Arr) (bs : List Byte) (r : Nat) (s : State),
    img.ok 224 = true → arrBytes 224 img s = some bs → 1 ≤ r → r ≤ 20 →
    ∃ x, Answers (.bpEntryDecode img r) s (.entry x) ∧
      let e := 2 + (r - 1) * 10
      let a := memRead32 bs e &&& 0x7FFFFFFF
      let b := memRead32 bs (e + 4) &&& 0x7FFFFFFF
      let good := byteAt bs 0 = 0x6D ∧ byteAt bs 1 = 0xA4 ∧ 1800000 ≤ a.toNat ∧ a.toNat < b.toNat ∧ b.toNat ≤ 130000000
      (good → x = { startWord := a, endWord := b, maxPower := byteAt bs (e + 8),
                    tx := (byteAt bs (e + 9)).extractLsb' 0 1, wrap := (byteAt bs (e + 9)).extractLsb' 1 1,
                    mod := (byteAt bs (e + 9)).extractLsb' 2 3, bw := (byteAt bs (e + 9)).extractLsb' 5 3 }) ∧
      (¬ good → x = { startWord := 0, endWord := 0, maxPower := 0, tx := 0, wrap := 0, mod := 1, bw := 1 })

/-- R139: 20 entries, each decoded on its own; with valid magic each entry is decided on its own ten bytes alone; bytes 202..223 are never read;
wrong magic gives 20 defaults. -/
def Obligations.PlanDecodeIsEntrywise : Prop :=
  (∀ (img : Arr) (bs : List Byte) (s : State), img.ok 224 = true → arrBytes 224 img s = some bs →
    ∃ xs, Answers (.bpDecode img) s (.plan xs) ∧ xs.length = 20 ∧
      (∀ r, 1 ≤ r → r ≤ 20 → ∃ x, xs[r - 1]? = some x ∧ Answers (.bpEntryDecode img r) s (.entry x)) ∧
      (¬ (byteAt bs 0 = 0x6D ∧ byteAt bs 1 = 0xA4) → ∀ x ∈ xs, x = bpDefault)) ∧
  (∀ (bs bs' : List Byte) (r : Nat) (s : State), bs.length = 224 → bs'.length = 224 → 1 ≤ r → r ≤ 20 →
    byteAt bs 0 = 0x6D → byteAt bs 1 = 0xA4 → byteAt bs' 0 = 0x6D → byteAt bs' 1 = 0xA4 →
    (∀ k, k < 10 → byteAt bs (2 + (r - 1) * 10 + k) = byteAt bs' (2 + (r - 1) * 10 + k)) →
    ∃ xs xs' x, Answers (.bpDecode (.lit bs)) s (.plan xs) ∧ Answers (.bpDecode (.lit bs')) s (.plan xs') ∧
      xs[r - 1]? = some x ∧ xs'[r - 1]? = some x) ∧
  ∀ (bs bs' : List Byte) (s : State), bs.length = 224 → bs'.length = 224 → (∀ a, a < 202 → byteAt bs a = byteAt bs' a) →
    exec (.bpDecode (.lit bs)) s = exec (.bpDecode (.lit bs')) s

/-- R140: block `n` is bytes `32n .. 32n+31` of the image and their sum modulo 256. -/
def Obligations.BlockIsSliceAndChecksum : Prop :=
  ∀ (img : Arr) (bs : List Byte) (n : Nat) (s : State),
    img.ok 224 = true → arrBytes 224 img s = some bs → n < 7 →
    ∃ p c, Answers (.bpBlock img n) s (.block p c) ∧ p.length = 32 ∧
      (∀ k, k < 32 → p[k]? = some (byteAt bs (32 * n + k))) ∧ c.toNat = sumMod256 p

/-- R141: encoding a band plan and decoding the image gives each valid entry back with its words masked, and BP_DEFAULT for the others. -/
def Obligations.BandPlanRoundTrip : Prop :=
  ∀ (plan : List BPEntry) (s : State), plan.length = 20 →
    ∃ img xs, Answers (.bpEncode plan) s (.bytes img) ∧ Answers (.bpDecode (.lit img)) s (.plan xs) ∧ xs.length = 20 ∧
      ∀ (k : Nat) (x : BPEntry), plan[k]? = some x →
        xs[k]? = some
          (if 1800000 ≤ (x.startWord &&& 0x7FFFFFFF).toNat ∧
              (x.startWord &&& 0x7FFFFFFF).toNat < (x.endWord &&& 0x7FFFFFFF).toNat ∧
              (x.endWord &&& 0x7FFFFFFF).toNat ≤ 130000000
            then { x with startWord := x.startWord &&& 0x7FFFFFFF, endWord := x.endWord &&& 0x7FFFFFFF }
            else bpDefault)

/-- R142: decoding is idempotent through encoding, for every image. -/
def Obligations.DecodeIdempotentThroughEncode : Prop :=
  ∀ (img : Arr) (bs : List Byte) (s : State), img.ok 224 = true → arrBytes 224 img s = some bs →
    ∃ xs img2, Answers (.bpDecode img) s (.plan xs) ∧ Answers (.bpEncode xs) s (.bytes img2) ∧
      Answers (.bpDecode (.lit img2)) s (.plan xs)

/-! ### Channel codec -/

/-- R162, R163: the mode byte is `bw + 2*mod`; unpacking looks at bits 3:0 only. -/
def Obligations.ModeBytePacksAndUnpacks : Prop :=
  (∀ (bw : BitVec 1) (mod : BitVec 3) (s : State), ∃ m : Byte,
    Answers (.chModePack bw mod) s (.byte m) ∧ m.toNat = bw.toNat + 2 * mod.toNat ∧
    Answers (.chModeUnpack m) s (.mode { bw := bw, mod := mod })) ∧
  ∀ (m : Byte) (s : State), ∃ x : ChMode,
    Answers (.chModeUnpack m) s (.mode x) ∧ x.bw.toNat = m.toNat % 2 ∧ x.mod.toNat = m.toNat / 2 % 8

/-- R164, R165: the name field is bytes 20..31, cut to 12 and padded with zeros, the rest of the block unchanged; reading stops at the
first zero byte or at offset 32. -/
def Obligations.NameFieldPacksAndUnpacks : Prop :=
  ∀ (block : Arr) (bs : List Byte) (s : State), block.ok 33 = true → arrBytes 33 block s = some bs →
    (∀ name : List Byte, ∃ out, Answers (.chNamePack block name) s (.bytes out) ∧ out.length = 33 ∧
      (∀ k, k < 12 → byteAt out (20 + k) = name.getD k 0) ∧
      ∀ a, a < 20 ∨ a = 32 → byteAt out a = byteAt bs a) ∧
    ∃ nm : List Byte, Answers (.chNameUnpack block) s (.bytes nm) ∧ nm.length ≤ 12 ∧
      (∀ k, k < nm.length → byteAt nm k = byteAt bs (20 + k) ∧ byteAt bs (20 + k) ≠ 0) ∧
      (nm.length = 12 ∨ byteAt bs (20 + nm.length) = 0)

/-- R166: every field of the channel block at its offset, zeros at 16..19, the name field of a name of R160's bytes, and the checksum at offset
32. A name with a 0x00 byte stands in CodecCallsComplete (log 30). -/
def Obligations.ChannelEncodeLaysOutBlock : Prop :=
  ∀ (c : ChRecord) (s : State), ∃ B, Answers (.chEncode c) s (.bytes B) ∧ B.length = 33 ∧
    memRead32 B 0 = c.rxWord ∧ memRead32 B 4 = c.txWord ∧ memRead16 B 8 = c.rxTone ∧ memRead16 B 10 = c.txTone ∧
    byteAt B 12 = c.txPower ∧ memRead16 B 13 = c.groups ∧ (byteAt B 15).toNat = c.bw.toNat + 2 * c.mod.toNat ∧
    (∀ a, 16 ≤ a → a < 20 → byteAt B a = 0) ∧
    ((0 : Byte) ∉ c.name → ∀ k, k < 12 → byteAt B (20 + k) = c.name.getD k 0) ∧
    (byteAt B 32).toNat = sumMod256 (B.take 32)

/-- R167, R169: a block with rx = 0 is CH_INACTIVE whatever else it holds; otherwise every field is read from its offset; byte 32 does
not matter. -/
def Obligations.ChannelDecodeReadsFields : Prop :=
  (∀ (block : Arr) (bs : List Byte) (s : State), block.ok 33 = true → arrBytes 33 block s = some bs →
    (memRead32 bs 0 = 0 → Answers (.chDecode block) s (.record
      { rxWord := 0, txWord := 0, rxTone := 0, txTone := 0, txPower := 0, groups := 0, bw := 0, mod := 0, name := [] })) ∧
    (memRead32 bs 0 ≠ 0 → ∃ nm, Answers (.chNameUnpack block) s (.bytes nm) ∧ Answers (.chDecode block) s (.record
      { rxWord := memRead32 bs 0, txWord := memRead32 bs 4, rxTone := memRead16 bs 8, txTone := memRead16 bs 10,
        txPower := byteAt bs 12, groups := memRead16 bs 13, bw := (byteAt bs 15).extractLsb' 0 1,
        mod := (byteAt bs 15).extractLsb' 1 3, name := nm }))) ∧
  ∀ (bs : List Byte) (k : Byte) (s : State), bs.length = 33 →
    exec (.chDecode (.lit (bs.set 32 k))) s = exec (.chDecode (.lit bs)) s

/-- R168: a record with rx != 0 survives encoding and decoding whole (a name longer than 12 bytes comes back cut to its first 12); one with
rx = 0 comes back as CH_INACTIVE. -/
def Obligations.ChannelRoundTrip : Prop :=
  ∀ (c : ChRecord) (s : State), ∃ B r, Answers (.chEncode c) s (.bytes B) ∧ Answers (.chDecode (.lit B)) s (.record r) ∧
    (c.rxWord = 0 → r = { rxWord := 0, txWord := 0, rxTone := 0, txTone := 0, txPower := 0, groups := 0, bw := 0, mod := 0, name := [] }) ∧
    (c.rxWord ≠ 0 → (0 : Byte) ∉ c.name → r = { c with name := c.name.take 12 } ∧ (c.name.length ≤ 12 → r = c))

/-! ### Word sub-codecs -/

/-- R190, R191: little-endian, least significant byte first, and unpacking is the inverse. -/
def Obligations.LittleEndianWords : Prop :=
  (∀ (v : Half) (s : State), ∃ b0 b1 : Byte,
    Answers (.le16PackUnpack (.pack v)) s (.bytes [b0, b1]) ∧ v.toNat = b0.toNat + 256 * b1.toNat ∧
    Answers (.le16PackUnpack (.unpack b0 b1)) s (.half v)) ∧
  (∀ (b0 b1 : Byte) (s : State), ∃ v : Half,
    Answers (.le16PackUnpack (.unpack b0 b1)) s (.half v) ∧ Answers (.le16PackUnpack (.pack v)) s (.bytes [b0, b1])) ∧
  (∀ (v : Word) (s : State), ∃ b0 b1 b2 b3 : Byte,
    Answers (.le32PackUnpack (.pack v)) s (.bytes [b0, b1, b2, b3]) ∧
    v.toNat = b0.toNat + 256 * b1.toNat + 65536 * b2.toNat + 16777216 * b3.toNat ∧
    Answers (.le32PackUnpack (.unpack b0 b1 b2 b3)) s (.word v)) ∧
  ∀ (b0 b1 b2 b3 : Byte) (s : State), ∃ v : Word,
    Answers (.le32PackUnpack (.unpack b0 b1 b2 b3)) s (.word v) ∧
    Answers (.le32PackUnpack (.pack v)) s (.bytes [b0, b1, b2, b3])

/-- R193: the sum of 32 bytes modulo 256; the order of the bytes does not matter. -/
def Obligations.BlockChecksum : Prop :=
  ∀ (p : Arr) (bs : List Byte) (s : State), p.ok 32 = true → arrBytes 32 p s = some bs →
    ∃ c : Byte, Answers (.checksum8 p) s (.byte c) ∧ c.toNat = sumMod256 bs ∧
      ∀ qs : List Byte, qs.Perm bs → Answers (.checksum8 (.lit qs)) s (.byte c)

/-- R194: the class of every tone word, by its value. -/
def Obligations.ToneWordsClassified : Prop :=
  ∀ (w : Half) (s : State), ∃ t, Answers (.toneClassify w) s (.tone t) ∧
    (1 ≤ w.toNat → w.toNat ≤ 3000 → t = .ctcss w) ∧
    (w.toNat = 0 → t = .off) ∧
    (3001 ≤ w.toNat → w.toNat ≤ 32767 → t = .off) ∧
    (32768 ≤ w.toNat → w.toNat % 16384 < 512 →
      t = .dcs (BitVec.ofNat 9 (w.toNat % 512)) (BitVec.ofNat 1 (w.toNat / 16384 % 2))) ∧
    (32768 ≤ w.toNat → 512 ≤ w.toNat % 16384 → t = .off)

/-- R195: the word of every tone class with t in 0..3000, and classifying it gives the class back, but for CTCSS(0). -/
def Obligations.ToneComposeInverts : Prop :=
  ∀ s : State,
    Answers (.toneCompose .off) s (.half 0) ∧
    (∀ t : Half, t.toNat ≤ 3000 → Answers (.toneCompose (.ctcss t)) s (.half t)) ∧
    (∀ (code : BitVec 9) (inv : BitVec 1), ∃ w : Half, Answers (.toneCompose (.dcs code inv)) s (.half w) ∧
      w.toNat = 32768 + 16384 * inv.toNat + code.toNat) ∧
    ∀ (x : Tone) (w : Half), (∀ t, x = .ctcss t → 1 ≤ t.toNat ∧ t.toNat ≤ 3000) → Answers (.toneCompose x) s (.half w) →
      Answers (.toneClassify w) s (.tone x)

/-- R196: the three octal digits, most significant first, and the inverse. -/
def Obligations.DcsOctalDigits : Prop :=
  (∀ (c : BitVec 9) (s : State), ∃ d2 d1 d0 : BitVec 3,
    Answers (.dcsDigits (.digits c)) s (.digits d2 d1 d0) ∧
    c.toNat = d2.toNat * 64 + d1.toNat * 8 + d0.toNat ∧
    Answers (.dcsDigits (.code d2 d1 d0)) s (.code c)) ∧
  ∀ (d2 d1 d0 : BitVec 3) (s : State), ∃ c : BitVec 9,
    Answers (.dcsDigits (.code d2 d1 d0)) s (.code c) ∧ Answers (.dcsDigits (.digits c)) s (.digits d2 d1 d0)

/-- R197: the nonzero nibbles, lowest first. -/
def Obligations.GroupUnpackListsNibbles : Prop :=
  ∀ (g : Half) (s : State), ∃ vs : List Byte, Answers (.groupUnpack g) s (.bytes vs) ∧
    vs.map BitVec.toNat =
      [g.toNat % 16, g.toNat / 16 % 16, g.toNat / 256 % 16, g.toNat / 4096 % 16].filter (fun n => n != 0)

/-- R198, R200: GROUP_PACK shifts and ORs from the last value to the first; with values 1..15 the j-th value is nibble j, and at most four of
them survive packing and unpacking in their order. The value 16 takes part only under `Overflow` (R199). -/
def Obligations.GroupPackShiftsAndOrs : Prop :=
  (∀ s : State, Answers (.groupPack []) s (.half 0)) ∧
  (∀ (v : Byte) (vs : List Byte) (s : State),
    (∀ x ∈ v :: vs, 1 ≤ x.toNat ∧ x.toNat ≤ 16 ∧ (x = 16 → s.params.groupP = .overflow)) →
    ∃ w w' : Half, Answers (.groupPack vs) s (.half w') ∧ Answers (.groupPack (v :: vs)) s (.half w) ∧
      w = (w' <<< 4) ||| v.setWidth 16) ∧
  ∀ (vs : List Byte) (s : State), (∀ x ∈ vs, 1 ≤ x.toNat ∧ x.toNat ≤ 15) →
    ∃ w : Half, Answers (.groupPack vs) s (.half w) ∧
      (∀ j, j < 4 → w.toNat / 16 ^ j % 16 = (vs.getD j 0).toNat) ∧
      (vs.length ≤ 4 → Answers (.groupUnpack w) s (.bytes vs))

/-! ### Text forms -/

/-- R220, R221: the word of an exact decimal is `floor(m*100000 + 1/2)`, refused from 2^32 on; the display of a word has exactly five
decimals, denotes `w/100000`, and reads back as the word. -/
def Obligations.FrequencyConversions : Prop :=
  (∀ (m : Decimal) (s : State), freqWordOf m < 2 ^ 32 →
    ∃ w : Word, Answers (.freqFromMhz m) s (.word w) ∧
      2 * 10 ^ places m * w.toNat ≤ 2 * mant m * 100000 + 10 ^ places m ∧
      2 * mant m * 100000 + 10 ^ places m < 2 * 10 ^ places m * (w.toNat + 1)) ∧
  (∀ (m : Decimal) (s : State), 2 * 10 ^ places m * 2 ^ 32 ≤ 2 * mant m * 100000 + 10 ^ places m →
    exec (.freqFromMhz m) s = .refused .freqTooLarge) ∧
  ∀ (w : Word) (s : State), ∃ text d, Answers (.freqToMhz w) s (.mhz w.toNat 100000 text) ∧
    text = d.int.map (fun x => digitByte x.val) ++ [0x2E] ++ d.frac.map (fun x => digitByte x.val) ∧
    d.frac.length = 5 ∧ d.int ≠ [] ∧ mant d = w.toNat ∧ Answers (.freqFromMhz d) s (.word w)

/-- R223, R222, R229 (2): the text of a CTCSS tone is its value with exactly one decimal and no leading zeros, both operations give it, and
it reads back as the word. -/
def Obligations.CtcssTextRoundTrip : Prop :=
  ∀ (t : Half) (s : State), 1 ≤ t.toNat → t.toNat ≤ 3000 →
    ∃ text d, Answers (.ctcssText t) s (.bytes text) ∧ Answers (.toneToString t) s (.bytes text) ∧
      text = d.int.map (fun x => digitByte x.val) ++ [0x2E] ++ d.frac.map (fun x => digitByte x.val) ∧
      d.frac.length = 1 ∧ d.int ≠ [] ∧ (d.int.head? = some 0 → d.int = [0]) ∧ mant d = t.toNat ∧
      Answers (.stringToTone text) s (.half t)

/-- R222, R229 (1): the text of a word of class CTCSS is CTCSS_TEXT of it; the text of a DCS word is "D", three octal digits and "N" or "I",
and it reads back as the word; the text of a word of class Off is "Off", which reads back as 0. -/
def Obligations.DcsTextRoundTrip : Prop :=
  (∀ (code : BitVec 9) (inv : BitVec 1) (w : Half) (s : State), w.toNat = 32768 + 16384 * inv.toNat + code.toNat →
    ∃ d2 d1 d0 : BitVec 3, code.toNat = d2.toNat * 64 + d1.toNat * 8 + d0.toNat ∧
      ∃ text, text = [0x44, digitByte d2.toNat, digitByte d1.toNat, digitByte d0.toNat, if inv = 1 then 0x49 else 0x4E] ∧
        Answers (.toneToString w) s (.bytes text) ∧ Answers (.stringToTone text) s (.half w)) ∧
  (∀ (w t : Half) (s : State), Answers (.toneClassify w) s (.tone (.ctcss t)) →
    ∃ text, Answers (.ctcssText t) s (.bytes text) ∧ Answers (.toneToString w) s (.bytes text)) ∧
  (∀ (w : Half) (s : State), Answers (.toneClassify w) s (.tone .off) → Answers (.toneToString w) s (.bytes [0x4F, 0x66, 0x66])) ∧
  ∀ s : State, Answers (.stringToTone [0x4F, 0x66, 0x66]) s (.half 0)

/-- R224, R225, R226: a number, with or without a sign, becomes its value in tenths, halves up, or 0 when that is over 3000; "D", three octal
digits and "N" or "I" become that DCS word; every other ASCII text becomes 0. The numbers strictly between 300.04 and 300.05 (log 33) and the texts
with other bytes (log 32) stand in CodecCallsComplete. -/
def Obligations.ToneStringsRead : Prop :=
  (∀ (str sign point : List Byte) (d : Decimal) (s : State), NumberText str sign point d → ¬ DisputedTone sign d →
    ∃ k : Nat, 2 * 10 ^ places d * k ≤ 2 * mant d * 10 + 10 ^ places d ∧
      2 * mant d * 10 + 10 ^ places d < 2 * 10 ^ places d * (k + 1) ∧
      Answers (.stringToTone str) s (.half (if k ≤ 3000 then BitVec.ofNat 16 k else 0))) ∧
  (∀ (str : List Byte) (d2 d1 d0 : BitVec 3) (inv : BitVec 1) (s : State), DcsText str d2 d1 d0 inv →
    ∃ w : Half, Answers (.stringToTone str) s (.half w) ∧
      w.toNat = 32768 + 16384 * inv.toNat + (d2.toNat * 64 + d1.toNat * 8 + d0.toNat)) ∧
  ∀ (str : List Byte) (s : State), (∀ b ∈ str, b.toNat < 128) → (∀ sign point d, ¬ NumberText str sign point d) → (∀ d2 d1 d0 inv, ¬ DcsText str d2 d1 d0 inv) →
    Answers (.stringToTone str) s (.half 0)

/-- R227, R199: in an ASCII text only 'A'..'O' count, and 'P' under `Overflow`; every other character is skipped; the letters' values are packed.
A text with other bytes stands in CodecCallsComplete (log 32). -/
def Obligations.GroupStringsSkipOtherCharacters : Prop :=
  ∀ (str : List Byte) (s : State), (∀ b ∈ str, b.toNat < 128) → ∃ w vs, Answers (.stringToGroup str) s (.half w) ∧ Answers (.groupPack vs) s (.half w) ∧
    vs.map BitVec.toNat =
      ((str.map BitVec.toNat).filter
        (fun n => decide (0x41 ≤ n ∧ n ≤ 0x4F) || (n == 0x50 && s.params.groupP == .overflow))).map (fun n => n - 0x40)

/-- R228, R229 (3): the letters of a group word's values; a string of at most four letters 'A'..'O' survives. -/
def Obligations.GroupTextRoundTrip : Prop :=
  (∀ (g : Half) (s : State), ∃ vs text, Answers (.groupUnpack g) s (.bytes vs) ∧ Answers (.groupToString g) s (.bytes text) ∧
    text.map BitVec.toNat = vs.map (fun v => 0x40 + v.toNat)) ∧
  ∀ (str : List Byte) (s : State), str.length ≤ 4 → (∀ b ∈ str, 0x41 ≤ b.toNat ∧ b.toNat ≤ 0x4F) →
    ∃ w, Answers (.stringToGroup str) s (.half w) ∧ Answers (.groupToString w) s (.bytes str)

/-! ### The machine -/

/-- R35, R32: every step keeps the invariant, from every state that meets it: R35's relations, and that the record tables of a session are there
exactly while its operation runs; and no step from any state changes the open parameters (R9). The tables a session is created with, and where
they go at its end, are the model's choice (log 28). -/
def Obligations.InvariantKeptByEveryStep : Prop :=
  (∀ s t : State, Inv s → step s = .next t → Inv t) ∧ ∀ s t : State, step s = .next t → t.params = s.params

/-- R34, R280: the registers right after a power-up reset; BUF holds any bytes (log 1); the invariant holds. Its part about the host's session
rests on the model's choice that no operation runs and none is triggered there (log 6). -/
def Obligations.ResetMeetsInvariant : Prop :=
  Inv State.reset ∧ State.reset.phase = .idle ∧ State.reset.count = 0 ∧ State.reset.csum = 0 ∧ State.reset.base = 0

/-- R250, R102, R104, R106, R108: in every state that meets the invariant, whatever byte comes, and on EOS, START with base at most 192 and
reset too, the model answers a next state: no trap, no fault, no refusal. For a byte in a terminal state R110 names no step; that presenting it
answers the same state as a next state is the model's choice (log 17). -/
def Obligations.ClassifierNeverTraps : Prop :=
  ∀ s : State, Inv s →
    (∀ b, ∃ t, exec (sortByte s.phase s.count b) s = .next t) ∧ (∃ t, exec .eos s = .next t) ∧
    (∀ base : Byte, base.toNat ≤ 192 → ∃ t, exec (.start base) s = .next t) ∧ ∀ k, ∃ t, exec (.reset k) s = .next t

/-- R55, R60, R83: a step runs the decoded instruction. The link's next byte is consumed and run in the class STATE and COUNT give it; a
command frame or a codec call of the host that decodes to an instruction is taken off the queue and run (the form of these requests
is the model's, log 10, 16; so is the link's, log 2, 21). -/
def Obligations.StepRunsDecodedInstruction : Prop :=
  (∀ (s : State) (b : Byte) (l : Link) (i : Instr),
    Listening s → s.inReady = true → s.link.take = some (b, l) →
    decode (.rx s.phase s.count) [b] = .ok i [] → step s = exec i (s.setLink l)) ∧
  (∀ (s : State) (frame : List Byte) (rest : List HostReq) (i : Instr),
    Serving s (.command frame) rest → decode .tx frame = .ok i [] → step s = exec i { s with reqs := rest }) ∧
  ∀ (s : State) (op : CodecOp) (args : List Byte) (rest : List HostReq) (i : Instr),
    Serving s (.call op args) rest → decode (.call op) args = .ok i [] → step s = exec i { s with reqs := rest }

/-- R255, R288, R55: reset before START, START before a byte, a byte before EOS; a byte in hand goes before those of a chunk, and both before
what a device sends that never stops (log 21). That a reset and a START also go before the host's pending requests and the moves of its
transaction is the model's order (log 16): R255 does not place these. What the transport does with leftover bytes at the boundary before a START
or a reset is a free value: all of them stay, or, after a terminal state, all of them go (log 9). -/
def Obligations.EventsTakenInPriorityOrder : Prop :=
  (∀ (s : State) (k : ResetKind), s.resetReq = some k →
    step s = exec (.reset k) (State.boundary { s with resetReq := none })) ∧
  (∀ (s : State) (base : Byte), s.resetReq = none → s.startReq = some base →
    step s = exec (.start base) (State.boundary { s with startReq := none })) ∧
  (∀ s : State, ∃ rx k, s.boundary = { s with rx := rx, draws := k, begun := true } ∧
    (rx = s.rx ∨ (s.phase ≠ .idle ∧ s.phase ≠ .collecting ∧ rx = []))) ∧
  (∀ (s : State) (b : Byte) (rest : List Byte), Listening s → s.inReady = true → s.stream = b :: rest →
    ∃ rx line, step s = exec (sortByte s.phase s.count b) { s with rx := rx, line := line } ∧ rx ++ line.flatten = rest) ∧
  (∀ (s : State) (k : Nat), Listening s → s.inReady = true → s.stream = [] → s.closed = false → s.more = some k →
    step s = exec (sortByte s.phase s.count (Config.deviceByte k)) { s with more := some (k + 1) }) ∧
  ∀ s : State, Listening s → s.stream = [] → s.closed = true → step s = exec .eos s

/-- R284, R258, R285: with no byte and no end of stream a round hangs: any number of steps leaves the machine as it is; and any number of noise
bytes leaves it in Idle with nothing changed but the stream. A hang as steps that leave the state as it is is the model's form of R284 (log 17;
93 I14 says stuck). The host closing the transport, a request of the model's (log 3), ends a silent round whatever the host asks next, an opening
included: the next step presents EOS, the round ends Incomplete, and nothing else changes. While a round runs on a closed link, the stream goes
before every request and every move of a transaction: the model's order (log 3, 16). -/
def Obligations.HungRoundEndsByClosingTransport : Prop :=
  (∀ (s : State) (k : Nat), Listening s → s.inReady = true → s.stream = [] → s.closed = false → s.more = none →
    runSteps k s = .next s) ∧
  (∀ (s : State) (noise : List Byte) (l : Link), Listening s → s.phase = .idle → noise.all isNoise = true →
    s.link.run noise.length = (noise, l) → runSteps noise.length s = .next (s.setLink l)) ∧
  (∀ (s : State) (rest : List HostReq), Serving s .closePort rest → s.inReady = true → s.stream = [] →
    step s = .next { s with reqs := rest, closed := true } ∧
    runSteps 2 s = .next { s with reqs := rest, closed := true, phase := .incomplete }) ∧
  ∀ s : State, s.resetReq = none → s.startReq = none → s.session.failed = false → s.closed = true → s.inReady = true →
    Listening s ∧ (s.stream = [] → step s = .next { s with phase := .incomplete })

/-- Where a form stops by name (log 12, 13, 14): a byte class outside the state it is sorted in, or NOISE of a byte sorted otherwise (R60-R62), a
COUNT above 32 (I2), and, where BUF has its form, a snapshot that leaves it (R40). -/
def Obligations.FormsThatStopByName : Prop :=
  (∀ s : State, s.phase ≠ .idle → ∀ i ∈ [Instr.hdr, .ack1, .ackE, .ackF], exec i s = .refused .wrongClass) ∧
  (∀ (s : State) (b : Byte), s.phase ≠ .idle ∨ isNoise b = false → exec (.noise b) s = .refused .wrongClass) ∧
  (∀ (s : State) (b : Byte),
    (s.phase ≠ .collecting → exec (.data b) s = .refused .wrongClass ∧ exec (.chk b) s = .refused .wrongClass) ∧
    (s.phase = .collecting → s.count.toNat = 32 → exec (.data b) s = .refused .wrongClass) ∧
    (s.phase = .collecting → s.count.toNat < 32 → exec (.chk b) s = .refused .wrongClass) ∧
    (s.phase = .collecting → 32 < s.count.toNat →
      exec (.data b) s = .refused .countRange ∧ exec (.chk b) s = .refused .countRange) ∧
    (s.phase = .collecting → s.count.toNat < 32 → 224 ≤ s.base.toNat + s.count.toNat →
      exec (.data b) s = .fault (.noSuchAddress (s.base.toNat + s.count.toNat))) ∧
    (s.phase = .idle ∨ s.phase = .collecting → exec (.terminalHold b) s = .refused .wrongClass)) ∧
  ∀ (i : Instr) (s : State), codecInstr i = true → Memory.wf s.buf = true → snapshotInside i = false →
    ∃ a, 224 ≤ a ∧ exec i s = .fault (.noSuchAddress a)

/-- R111, R112, R113: a round fed noise, a header, 32 payload bytes and one more byte consumes exactly these, ends ChecksumOk if the last
byte is the payload's sum modulo 256 and ChecksumBad otherwise, and leaves the payload at BASE and every other byte of BUF as it was. The
bytes may come in any chunks, or from a device that never stops (log 21); they are those left after the boundary (log 9). -/
def Obligations.BlockRoundOutcome : Prop :=
  ∀ (s : State) (base c : Byte) (noise p : List Byte) (l : Link),
    Inv s → s.resetReq = none → s.startReq = some base → base.toNat ≤ 192 → hostActive s = false →
    noise.all isNoise = true → p.length = 32 →
    s.boundary.link.run (noise.length + 34) = (noise ++ [0x30] ++ p ++ [c], l) →
    ∃ t, runSteps (1 + noise.length + 34) s = .next t ∧ t.link = l ∧ t.base = base ∧
      t.phase = (if c.toNat = sumMod256 p then .checksumOk else .checksumBad) ∧
      (∀ k, k < 32 → Memory.read t.buf (base.toNat + k) = p[k]?) ∧
      ∀ a, a < base.toNat ∨ base.toNat + 32 ≤ a → Memory.read t.buf a = Memory.read s.buf a

/-- R112, R113: after noise, an acknowledgement byte ends the round as Acknowledged with BUF unchanged; EOS after noise alone ends it Incomplete
from Idle, with COUNT and CSUM 0 and BUF unchanged; EOS after a header and k payload bytes (k at most 32) ends it Incomplete with COUNT = k and
the k bytes stored. The bytes are those left after the boundary (log 9); the end of the stream is a level (log 3). -/
def Obligations.ShortRoundOutcomes : Prop :=
  (∀ (s : State) (base b : Byte) (noise : List Byte) (l : Link),
    s.resetReq = none → s.startReq = some base → base.toNat ≤ 192 → hostActive s = false →
    noise.all isNoise = true → b ∈ [(0x31 : Byte), 0x45, 0x46] → s.boundary.link.run (noise.length + 1) = (noise ++ [b], l) →
    ∃ t, runSteps (1 + noise.length + 1) s = .next t ∧ t.link = l ∧ t.phase = .acknowledged ∧ t.buf = s.buf) ∧
  (∀ (s : State) (base : Byte) (noise : List Byte) (l : Link),
    s.resetReq = none → s.startReq = some base → base.toNat ≤ 192 → hostActive s = false →
    noise.all isNoise = true → s.boundary.link.run noise.length = (noise, l) → l.take = none → l.closed = true →
    ∃ t, runSteps (1 + noise.length + 1) s = .next t ∧ t.link = l ∧ t.phase = .incomplete ∧ t.count = 0 ∧ t.csum = 0 ∧
      t.base = base ∧ t.buf = s.buf) ∧
  ∀ (s : State) (base : Byte) (noise p : List Byte) (l : Link),
    Inv s → s.resetReq = none → s.startReq = some base → base.toNat ≤ 192 → hostActive s = false →
    noise.all isNoise = true → p.length ≤ 32 →
    s.boundary.link.run (noise.length + 1 + p.length) = (noise ++ [0x30] ++ p, l) → l.take = none → l.closed = true →
    ∃ t, runSteps (1 + noise.length + 1 + p.length + 1) s = .next t ∧ t.link = l ∧ t.phase = .incomplete ∧
      t.count.toNat = p.length ∧ t.csum.toNat = sumMod256 p ∧
      (∀ k, k < p.length → Memory.read t.buf (base.toNat + k) = p[k]?) ∧
      ∀ a, a < base.toNat ∨ base.toNat + p.length ≤ a → Memory.read t.buf a = Memory.read s.buf a

/-- R26, R27: STATUS field by field (STATE in the numbers of R20), the three outputs, both read without any other effect; a write to STATUS is
refused (I19). -/
def Obligations.StatusViewAndOutputs : Prop :=
  (∀ s : State,
    ((s.phase = .idle → s.status.extractLsb' 0 3 = 0) ∧ (s.phase = .collecting → s.status.extractLsb' 0 3 = 1) ∧
      (s.phase = .checksumOk → s.status.extractLsb' 0 3 = 2) ∧ (s.phase = .checksumBad → s.status.extractLsb' 0 3 = 3) ∧
      (s.phase = .acknowledged → s.status.extractLsb' 0 3 = 4) ∧ (s.phase = .incomplete → s.status.extractLsb' 0 3 = 5)) ∧
    s.status.extractLsb' 3 5 = 0 ∧ s.status.extractLsb' 8 6 = s.count ∧
    s.status.extractLsb' 14 2 = 0 ∧ s.status.extractLsb' 16 8 = s.csum ∧ s.status.extractLsb' 24 8 = s.base ∧
    (s.done = true ↔ s.phase ≠ .idle ∧ s.phase ≠ .collecting) ∧ s.outcome = s.phase ∧ s.inReady = !s.done) ∧
  ∀ (s : State) (rest : List HostReq),
    (Serving s .readStatus rest → step s = .next { s with reqs := rest, ret := .word s.status }) ∧
    (Serving s .readOutputs rest → step s = .next { s with reqs := rest, ret := .outputs s.done s.outcome s.inReady }) ∧
    ∀ v, Serving s (.writeStatus v) rest → step s = .refused .statusReadOnly

/-- R264, R290: the host does not write BUF while DONE = 0 after a START; between rounds its bytes land at their addresses and no other byte
changes; a read gives back what BUF holds. That a write is refused whenever DONE = 0, after a reset before any START too, is the model's deduction
from 93 I18 (log 15): R264 does not forbid that one. What an access of no bytes does is the model's choice (log 31). -/
def Obligations.HostBufferAccessBetweenRounds : Prop :=
  ∀ (s : State) (a : Nat) (bs : List Byte) (rest : List HostReq), Inv s →
    (Serving s (.writeBuf a bs) rest → s.done = false → step s = .refused .bufWriteInRound) ∧
    (Serving s (.writeBuf a bs) rest → s.done = true → a + bs.length ≤ 224 →
      ∃ t, step s = .next t ∧ t = { s with reqs := rest, buf := t.buf } ∧
        (∀ k, k < bs.length → Memory.read t.buf (a + k) = bs[k]?) ∧
        ∀ x, x < a ∨ a + bs.length ≤ x → Memory.read t.buf x = Memory.read s.buf x) ∧
    ∀ n, Serving s (.readBuf a n) rest → a + n ≤ 224 →
      ∃ out : List Byte, step s = .next { s with reqs := rest, ret := .bytes out } ∧ out.length = n ∧
        ∀ k, k < n → out[k]? = Memory.read s.buf (a + k)

/-! ### The host's sequences -/

/-- R266: what a band-plan read round leads to. ChecksumBad or Incomplete, and Acknowledged under `Abort`, abort the loop: BUF is zeroed, F is
sent, no further READ, and the records decode to 20 defaults. ChecksumOk, and Acknowledged under `Continue`, go on: to the next block, or after
block 6 F is sent and the records become BP_DECODE of BUF. That the host's moves come one per machine step (log 6), and that the records are
handed back when the session is discarded (log 28), is the model's choice. -/
def Obligations.BandPlanReadRoundOutcomes : Prop :=
  ∀ (s : State) (n : Nat), Inv s → InTransaction s (.roundWait .bpRead n) →
    (s.phase = .checksumBad ∨ s.phase = .incomplete ∨ (s.phase = .acknowledged ∧ s.params.bpReadAck = .abort) →
      ∃ t, runSteps 3 s = .next t ∧ t.tx = s.tx ++ [0x46] ∧ (∀ a, a < 224 → Memory.read t.buf a = some 0) ∧
        t.handed = some { bp := List.replicate 20 bpDefault, ch := s.session.records.ch } ∧ t.session.pos = .idle ∧ t.phase = s.phase) ∧
    (s.phase = .checksumOk ∨ (s.phase = .acknowledged ∧ s.params.bpReadAck = .cont) →
      (n < 6 → step s = .next { s with session := { s.session with pos := .command .bpRead (n + 1) } }) ∧
      (n = 6 → ∃ t xs, runSteps 3 s = .next t ∧ t.tx = s.tx ++ [0x46] ∧ t.buf = s.buf ∧
        Answers (.bpDecode (.buf 0)) s (.plan xs) ∧ t.handed = some { bp := xs, ch := s.session.records.ch } ∧ t.session.pos = .idle ∧
        t.phase = s.phase))

/-- R268: a channel read round stores the decoded record only on ChecksumOk; any other outcome leaves every record and goes on. That a round
is judged in one machine step, and the position reached, are the model's choice (log 6). -/
def Obligations.ChannelReadStoresOnlyGoodRows : Prop :=
  ∀ (s : State) (n : Nat), Inv s → InTransaction s (.roundWait .chRead n) → 1 ≤ n → n ≤ 198 → s.done = true →
    ∃ t, step s = .next t ∧
      t.session.pos = (if n < 198 then .prepare .chRead (n + 1) else .goodbye .chRead false) ∧
      t.tx = s.tx ∧ t.buf = s.buf ∧ t.session.records.bp = s.session.records.bp ∧
      (s.phase ≠ .checksumOk → t.session.records.ch = s.session.records.ch) ∧
      (s.phase = .checksumOk → ∃ block, arrBytes 33 (.buf 0) s = some block ∧
        t.session.records.ch = s.session.records.ch.set (n - 1) (chDecode block))

/-- R266-R269: a transaction begins with E. When the handshake round ends Acknowledged the loop begins with its first item. When it ends in
anything else, the loop is skipped: exactly F is sent, BUF and the records are unchanged, and a write is over. One move of the sequence per
machine step, and so the count of steps and the positions (log 6), and the handing back of the records at the end (log 28), are the model's
choice. -/
def Obligations.HandshakeBeginsOrSkipsTheLoop : Prop :=
  (∀ (s : State) (k : Txn), InTransaction s (.hello k) →
    ∃ t, step s = .next t ∧ t.tx = s.tx ++ [0x45] ∧ t.block = s.block ∧ t.session = { s.session with pos := .helloStart k }) ∧
  ∀ (s : State) (k : Txn), InTransaction s (.helloWait k) → s.done = true →
    (s.phase = .acknowledged → step s = .next { s with session := { s.session with pos :=
      match k with
      | .bpRead => .command .bpRead 0
      | .bpWrite => .prepare .bpWrite 0
      | .chRead => .prepare .chRead 1
      | .chWrite => .command .chWrite 1 } }) ∧
    (s.phase ≠ .acknowledged →
      ∃ t, runSteps 2 s = .next t ∧ t.tx = s.tx ++ [0x46] ∧ t.buf = s.buf ∧
        (k = .bpRead → t.session = { s.session with pos := .harvest } ∧ t.handed = s.handed) ∧
        (k ≠ .bpRead → t.session = { s.session with pos := .idle, records := Records.none } ∧ t.handed = some s.session.records))

/-- R266-R269: what an item of a loop prepares and sends. A band-plan write puts BP_ENCODE of the records into BUF first, and each channel read
33 zeros; a read item sends its READ frame; a write item sends its 35-byte frame (the image's block, or the encoded record). A write round that
ends Acknowledged leads to the next item, or to I after the last; any other outcome ends the loop: only I follows, and BUF is unchanged. One
command per machine step, and so the count of steps and the positions (log 6), and the handing back of the records at the end (log 28), are the
model's choice. -/
def Obligations.ItemsPrepareSendAndStop : Prop :=
  (∀ (s : State) (n : Nat), Inv s → InTransaction s (.prepare .bpWrite n) → s.done = true →
    ∃ img t, step s = .next t ∧ Answers (.bpEncode s.session.records.bp) s (.bytes img) ∧
      (∀ a, a < 224 → Memory.read t.buf a = img[a]?) ∧ t.tx = s.tx ∧ t.session = { s.session with pos := .command .bpWrite n }) ∧
  (∀ (s : State) (n : Nat), Inv s → InTransaction s (.prepare .chRead n) → s.done = true →
    ∃ t, step s = .next t ∧ (∀ a, a < 33 → Memory.read t.buf a = some 0) ∧
      (∀ a, 33 ≤ a → Memory.read t.buf a = Memory.read s.buf a) ∧ t.tx = s.tx ∧
      t.session = { s.session with pos := .command .chRead n }) ∧
  (∀ (s : State) (k : Txn) (n : Nat), InTransaction s (.command k n) →
    (k = .bpRead ∧ n < 7 ∨ k = .chRead ∧ 1 ≤ n ∧ n ≤ 198) →
    ∃ (idx : Byte) (t : State), step s = .next t ∧ idx.toNat = (if k = .bpRead then 208 + n else n + 1) ∧
      t.tx = s.tx ++ [0x30, idx] ∧ t.buf = s.buf ∧ t.session = { s.session with pos := .roundStart k n }) ∧
  (∀ (s : State) (n : Nat), Inv s → InTransaction s (.command .bpWrite n) → n < 7 →
    ∃ p c t, step s = .next t ∧ t.tx = s.tx ++ [0x31, BitVec.ofNat 8 (208 + n)] ++ p ++ [c] ∧
      Answers (.bpBlock (.buf 0) n) s (.block p c) ∧ t.buf = s.buf ∧ t.session.pos = .roundStart .bpWrite n) ∧
  (∀ (s : State) (n : Nat) (x : ChRecord), InTransaction s (.command .chWrite n) → 1 ≤ n → n ≤ 198 →
    s.session.records.ch[n - 1]? = some x →
    ∃ B t, step s = .next t ∧ t.tx = s.tx ++ [0x31, BitVec.ofNat 8 (n + 1)] ++ B ∧
      Answers (.chEncode x) s (.bytes B) ∧ t.buf = s.buf ∧ t.session.pos = .roundStart .chWrite n) ∧
  ∀ (s : State) (k : Txn) (n : Nat), k = .bpWrite ∨ k = .chWrite → InTransaction s (.roundWait k n) → s.done = true →
    (s.phase = .acknowledged →
      (n < (if k = .bpWrite then 6 else 198) → step s = .next { s with session := { s.session with pos := .command k (n + 1) } }) ∧
      (n = (if k = .bpWrite then 6 else 198) → step s = .next { s with session := { s.session with pos := .goodbye k true } })) ∧
    (s.phase ≠ .acknowledged →
      ∃ t, runSteps 2 s = .next t ∧ t.tx = s.tx ++ [0x49] ∧ t.buf = s.buf ∧ t.session.pos = .idle ∧
        t.handed = some s.session.records)

/-- R263: the host STARTs a band-plan read round `n` at base `32n` and every other round at base 0; the records and the bytes sent stay. The
START as a machine step of its own (log 6), after the command (log 27), is the model's choice. -/
def Obligations.RoundsStartAtTheirBase : Prop :=
  (∀ (s : State) (k : Txn) (n : Nat), InTransaction s (.roundStart k n) → (k = .bpRead → n < 7) →
    ∃ t, step s = .next t ∧ t.phase = .idle ∧ t.count = 0 ∧ t.csum = 0 ∧ t.buf = s.buf ∧ t.tx = s.tx ∧
      t.base.toNat = (if k = .bpRead then 32 * n else 0) ∧ t.session = { s.session with pos := .roundWait k n }) ∧
  ∀ (s : State) (k : Txn), InTransaction s (.helloStart k) →
    ∃ t, step s = .next t ∧ t.phase = .idle ∧ t.count = 0 ∧ t.csum = 0 ∧ t.buf = s.buf ∧ t.tx = s.tx ∧
      t.base = 0 ∧ t.session = { s.session with pos := .helloWait k }

/-- R270, R272, R32, R281: a transport exception ends the transaction at once, sends nothing and rolls nothing back; inside a round it ends the
stream. That it ends the stream too where the host waits for a round that is over (DONE = 1) but not judged, and that elsewhere the stream stays
as it was, is the model's choice (log 19). A transaction asked for while one is in flight is dropped (log 18), and
otherwise begins. A session is created for the operation and discarded when it completes or aborts, so nothing of it is left for the next one;
that its tables come with the trigger and are handed back at the end is the model's choice (log 28). One such move per machine step is the
model's choice too (log 6). -/
def Obligations.TransactionsAbortAndExclude : Prop :=
  (∀ s : State, s.resetReq = none → s.startReq = none → s.session.failed = true →
    ∃ t, step s = .next t ∧ t.session.failed = false ∧ t.tx = s.tx ∧ t.block = s.block ∧
      (s.session.pos = .idle → t.session = { s.session with failed := false } ∧ t.handed = s.handed) ∧
      (s.session.pos ≠ .idle → t.session.pos = .idle ∧ t.session.records = Records.none ∧ t.handed = some s.session.records) ∧
      (waiting s.session.pos = true ∨ (s.session.pos = .idle ∧ s.inReady = true) → t.closed = true) ∧
      (waiting s.session.pos = false → (s.session.pos ≠ .idle ∨ s.inReady = false) → t.closed = s.closed)) ∧
  (∀ (s : State) (o : Order), s.resetReq = none → s.startReq = none → s.session.failed = false → s.ending = false → s.reqs = [] →
    s.session.want = some o →
    ∃ t, step s = .next t ∧ t.block = s.block ∧ t.tx = s.tx ∧ t.handed = s.handed ∧ t.session.want = none ∧
      (s.session.pos = .idle → t.session.pos = .hello o.txn ∧ t.session.records = o.records) ∧
      (s.session.pos ≠ .idle → t.session = { s.session with want := none })) ∧
  (∀ (s : State) (k : Txn) (c : Bool), InTransaction s (.goodbye k c) →
    ∃ t, step s = .next t ∧ t.tx = s.tx ++ [if c then 0x49 else 0x46] ∧ t.block = s.block ∧
      (k = .bpRead → t.session = { s.session with pos := .harvest } ∧ t.handed = s.handed) ∧
      (k ≠ .bpRead → t.session = { s.session with pos := .idle, records := Records.none } ∧ t.handed = some s.session.records)) ∧
  ∀ s : State, Inv s → InTransaction s .harvest →
    ∃ t xs, step s = .next t ∧ Answers (.bpDecode (.buf 0)) s (.plan xs) ∧ t.tx = s.tx ∧ t.block = s.block ∧
      t.session = { s.session with pos := .idle, records := Records.none } ∧ t.handed = some { bp := xs, ch := s.session.records.ch }

/-! ### Encodings -/

/-- R60-R66, R83: for every well-formed instruction, decoding its encoding gives it back, with no byte left over. The bytes of codec
operands are the model's form of them (log 10). -/
def Obligations.DecodeEncodeAgree : Prop := ∀ i : Instr, Sys2Proof.Laws.RoundTrip.Statement i

/-- The other direction, for host command frames and codec calls: bytes that decode are the encoding of what they decode to, followed by
the bytes left over, at that instruction's own port: no bit is dropped and no two frames mean the same. The form of codec operands is the
model's (log 10). -/
def Obligations.DecodedBytesAreTheEncoding : Prop :=
  ∀ (p : Port) (bs rest : List Byte) (i : Instr), (p = .tx ∨ ∃ op, p = .call op) → decode p bs = .ok i rest →
    portOf i = p ∧ bs = encode i ++ rest

/-- Words of the spec's encodings decode to the instructions they stand for: eight at the ports of the classifier and the commands (R61, R62,
R66), and five at call ports whose values are the spec's (R71, R75, R76, R78, R191). That those five bytes or words are offered as operand bytes
of a call rests on log 10: R83 (d) gives codec operands no byte form. -/
def Obligations.SampleWordsDecode : Prop :=
  decode (.rx .idle 0) [0x30] = .ok .hdr [] ∧ decode (.rx .idle 0) [0x46] = .ok .ackF [] ∧
  decode (.rx .idle 0) [0x49] = .ok (.noise 0x49) [] ∧ decode (.rx .collecting 31) [0x30] = .ok (.data 0x30) [] ∧
  decode (.rx .collecting 32) [0x31] = .ok (.chk 0x31) [] ∧ decode (.rx .incomplete 0) [0x45] = .ok (.terminalHold 0x45) [] ∧
  decode .tx [0x45] = .ok .cmdE [] ∧ decode .tx [0x30, 0xD6] = .ok (.cmdRead 214) [] ∧
  decode (.call .bpFlagsPack) [0xE6] = .ok (.bpFlagsPack 0 1 1 7) [] ∧
  decode (.call .chModePack) [0x07] = .ok (.chModePack 1 3) [] ∧
  decode (.call .toneClassify) [0x13, 0xC0] = .ok (.toneClassify 0xC013) [] ∧
  decode (.call .groupUnpack) [0x21, 0x43] = .ok (.groupUnpack 0x4321) [] ∧
  decode (.call .le32Pack) [0x31, 0x8D, 0xA8, 0x02] = .ok (.le32PackUnpack (.pack 44600625)) []
end

