-- ==== Sys2Proof/Laws/Exec.lean ====
section
/-! SUPPORT. Laws/Exec.lean: one inversion lemma per shared operation: what can follow if it answers a next state. -/

namespace Sys2Proof.Machine

/-- A codec call gives its result back, and only that. -/
@[simp] theorem giveBack_eq (r : Ret) (s : State) : giveBack r s = .next (s.answer r) := rfl

@[simp] theorem freeBytes_length (n : Nat) (byte : Nat → Byte) : (freeBytes n byte).length = n := by simp [freeBytes]

/-- The array a literal stands for has as many bytes as its type says. -/
@[simp] theorem ofLength_length (n : Nat) (bs : List Byte) : (ofLength n bs).length = n := by
  unfold ofLength
  split
  · assumption
  · exact freeBytes_length n _

/-- A literal of the right length stands for itself. -/
theorem ofLength_eq {n : Nat} {bs : List Byte} (h : bs.length = n) : ofLength n bs = bs := if_pos h

/-- A codec call on an array operand gives its result back, and only that. -/
theorem answerArr_eq_next {n : Nat} {a : Arr} {f : List Byte → Ret} {s t : State} (h : answerArr n a f s = .next t) :
    ∃ bs, arrBytes n a s = some bs ∧ t = s.answer (f bs) := by
  unfold answerArr at h
  split at h
  · rename_i bs hbs
    exact ⟨bs, hbs, by simpa using h.symm⟩
  · simp at h

/-- A codec call on an array operand that has its bytes completes. -/
theorem answerArr_next {n : Nat} {a : Arr} {f : List Byte → Ret} {s : State} {bs : List Byte} (h : arrBytes n a s = some bs) :
    answerArr n a f s = .next (s.answer (f bs)) := by
  simp [answerArr, h]

/-- An array operand has as many bytes as its type says. -/
theorem arrBytes_length {n : Nat} {a : Arr} {s : State} {bs : List Byte} (h : arrBytes n a s = some bs) : bs.length = n := by
  cases a with
  | lit bytes =>
    simp only [arrBytes, Option.some.injEq] at h
    rw [← h]; exact ofLength_length n bytes
  | buf off => exact (Memory.readRange_get h).1

/-- In a state whose BUF has its form, every array operand inside BUF has its bytes. -/
theorem arrBytes_isSome {n : Nat} {a : Arr} {s : State} (hm : Memory.wf s.buf = true) (h : insideBuf n a = true) :
    ∃ bs, arrBytes n a s = some bs := by
  cases a with
  | lit bytes => exact ⟨_, rfl⟩
  | buf off =>
    obtain ⟨bs, hb, _⟩ := Memory.readRange_isSome hm off n (of_decide_eq_true h)
    exact ⟨bs, hb⟩

/-- In a state whose BUF has its form, a snapshot that leaves BUF faults with an address BUF does not have (R40). -/
theorem answerArr_fault {n : Nat} {a : Arr} {f : List Byte → Ret} {s : State} (hm : Memory.wf s.buf = true) (hn : n ≠ 0)
    (h : insideBuf n a = false) : ∃ x, 224 ≤ x ∧ answerArr n a f s = .fault (.noSuchAddress x) := by
  cases a with
  | lit bytes => simp [insideBuf] at h
  | buf off =>
    have hx : 224 ≤ off + n - 1 := by have := of_decide_eq_false h; simp at this; omega
    refine ⟨off + n - 1, hx, ?_⟩
    unfold answerArr
    split
    · rename_i bs hbs
      have hl := (Memory.readRange_get hbs).2 (n - 1) (by omega)
      rw [List.getElem?_eq_getElem (by rw [(Memory.readRange_get hbs).1]; omega)] at hl
      have := (Memory.read_isSome hm (off + (n - 1))).1 (by rw [hl]; rfl)
      omega
    · rfl

/-- A byte class of Idle acts only there. -/
theorem inIdle_eq_next {s t u : State} (h : inIdle s t = .next u) : s.phase = .idle ∧ u = t := by
  unfold inIdle at h
  split at h
  · exact ⟨by assumption, by simpa using h.symm⟩
  · simp at h

/-- DATA stores only in Collecting, below 32, inside BUF. -/
theorem execData_eq_next {b : Byte} {s t : State} (h : execData b s = .next t) :
    s.phase = .collecting ∧ s.count.toNat < 32 ∧ s.payloadAddr < 224 ∧ t = s.storePayload b := by
  unfold execData at h
  split at h
  · split at h
    · split at h
      · exact ⟨by assumption, by assumption, by assumption, by simpa using h.symm⟩
      · simp at h
    · split at h <;> simp at h
  · simp at h

/-- CHK compares only in Collecting, at 32. -/
theorem execChk_eq_next {b : Byte} {s t : State} (h : execChk b s = .next t) :
    s.phase = .collecting ∧ s.count.toNat = 32 ∧ t = s.setPhase (if b = s.csum then .checksumOk else .checksumBad) := by
  unfold execChk at h
  split at h
  · split at h
    · exact ⟨by assumption, by assumption, by simpa using h.symm⟩
    · split at h <;> simp at h
  · simp at h

/-- EOS always completes. -/
theorem execEos_eq_next {s t : State} (h : execEos s = .next t) :
    (terminal s.phase = true ∧ t = s) ∨ (terminal s.phase = false ∧ t = s.setPhase .incomplete) := by
  unfold execEos at h
  split at h
  · exact Or.inl ⟨by assumption, by simpa using h.symm⟩
  · exact Or.inr ⟨by simpa using ‹¬ terminal s.phase = true›, by simpa using h.symm⟩

/-- START begins a round at an admitted base. -/
theorem execStart_eq_next {base : Byte} {s t : State} (h : execStart base s = .next t) :
    base.toNat + 32 ≤ 224 ∧ t = s.beginRound base := by
  unfold execStart at h
  split at h
  · exact ⟨by assumption, by simpa using h.symm⟩
  · simp at h

/-- RESET always completes. -/
theorem execReset_eq_next {k : ResetKind} {s t : State} (h : execReset k s = .next t) :
    t = (s.beginRound 0).redrawBuf ∨ t = s.beginRound 0 := by
  cases k
  · exact Or.inl (by simpa [execReset] using h.symm)
  · exact Or.inr (by simpa [execReset] using h.symm)

/-- A host command sends bytes and sets what the host awaits, and only that. -/
theorem exec_command_eq_next {i : Instr} {s t : State} (hi : commandInstr i = true) (h : exec i s = .next t) :
    ∃ bs e, t = s.send bs e := by
  cases i <;> simp only [commandInstr, Bool.false_eq_true] at hi <;> simp only [exec] at h
  case cmdE => exact ⟨_, _, by simpa [execCmdE] using h.symm⟩
  case cmdF => exact ⟨_, _, by simpa [execCmdF] using h.symm⟩
  case cmdI => exact ⟨_, _, by simpa [execCmdI] using h.symm⟩
  case cmdRead => exact ⟨_, _, by simpa [execCmdRead] using h.symm⟩
  case cmdWrite => exact ⟨_, _, by simpa [execCmdWrite] using h.symm⟩

/-- WRITE of a payload of 32 bytes sends it as it is (R66). -/
theorem execCmdWrite_next {idx : Byte} {p : List Byte} (h : p.length = 32) (s : State) :
    execCmdWrite idx p s = .next (s.send (0x31 :: idx :: (p ++ [checksum8Of p])) (some .acknowledged)) := by
  show Host.Outcome.next (s.send (0x31 :: idx :: (ofLength 32 p ++ [checksum8Of (ofLength 32 p)])) _) = _
  rw [ofLength_eq h]

/-- A codec call gives a result back, and only that (R31). -/
theorem exec_codec_eq_next {i : Instr} {s t : State} (hi : codecInstr i = true) (h : exec i s = .next t) :
    ∃ r, t = s.answer r := by
  cases i <;> simp only [codecInstr, classifierInstr, commandInstr, Bool.not_true, Bool.not_false, Bool.and_true, Bool.and_false,
    Bool.false_eq_true] at hi <;> simp only [exec] at h
  case freqFromMhz m =>
    unfold execFreqFromMhz at h
    split at h
    · exact ⟨_, by simpa using h.symm⟩
    · simp at h
  case le16PackUnpack form => cases form <;> exact ⟨_, (Host.Outcome.next.inj h).symm⟩
  case le32PackUnpack form => cases form <;> exact ⟨_, (Host.Outcome.next.inj h).symm⟩
  case dcsDigits form => cases form <;> exact ⟨_, (Host.Outcome.next.inj h).symm⟩
  all_goals first
    | exact ⟨_, (Host.Outcome.next.inj h).symm⟩
    | (obtain ⟨bs, _, ht⟩ := answerArr_eq_next h; exact ⟨_, ht⟩)

end Sys2Proof.Machine
end

