-- ==== Sys2Proof/Laws/BandPlan.lean ====
section
/-! SUPPORT. Laws/BandPlan.lean: what the band-plan codec's pure functions read and write, byte by byte. -/

namespace Sys2Proof.Machine

/-- The block checksum as a natural number (R193). -/
theorem checksum8Of_toNat (p : List Byte) : (checksum8Of p).toNat = sumMod256 p := by
  unfold checksum8Of sumMod256
  induction p with
  | nil => rfl
  | cons b p ih => simp [List.sum_cons, BitVec.toNat_add, ih]

/-- The flags byte as a natural number (R132). -/
theorem bpFlagsPack_toNat : ∀ (tx wrap : BitVec 1) (mod bw : BitVec 3), (bpFlagsPack ⟨tx, wrap, mod, bw⟩).toNat = tx.toNat + 2 * wrap.toNat + 4 * mod.toNat + 32 * bw.toNat := by decide

/-- An entry is ten bytes (R70). -/
theorem entryBytes_length (x : BPEntry) : (entryBytes x).length = 10 := rfl

/-- What an entry written at `e` reads as (R134). -/
theorem entryBytes_at {img : List Byte} {e : Nat} (x : BPEntry) (h : e + 10 ≤ img.length) :
   memRead32 (memWrite img e (entryBytes x)) e = x.startWord &&& 0x7FFFFFFF ∧
   memRead32 (memWrite img e (entryBytes x)) (e + 4) = x.endWord &&& 0x7FFFFFFF ∧
   byteAt (memWrite img e (entryBytes x)) (e + 8) = x.maxPower ∧
   byteAt (memWrite img e (entryBytes x)) (e + 9) = bpFlagsPack (entryFlags x) := by
  have hb : ∀ k, k < 10 → byteAt (memWrite img e (entryBytes x)) (e + k) = byteAt (entryBytes x) k := by
    intro k hk
    rw [byteAt_memWrite_in (by rw [entryBytes_length]; exact h) (by omega) (by rw [entryBytes_length]; omega)]
    congr 1; omega
  refine ⟨?_, ?_, hb 8 (by omega), hb 9 (by omega)⟩
  · simp only [memRead32]
    rw [hb 1 (by omega), hb 2 (by omega), hb 3 (by omega)]
    have := hb 0 (by omega)
    simp only [Nat.add_zero] at this; rw [this]
    exact le32Unpack_pack _
  · simp only [memRead32, Nat.add_assoc]
    rw [hb 4 (by omega), hb 5 (by omega), hb 6 (by omega), hb 7 (by omega)]
    exact le32Unpack_pack _

/-- Writing entries keeps the length of the image. -/
theorem encodeEntries_length : ∀ (plan : List BPEntry) (img : List Byte) (r : Nat), img.length = 224 → r + plan.length ≤ 21 → 1 ≤ r → (encodeEntries img r plan).length = 224
  | [], img, r, h, _, _ => h
  | x :: plan, img, r, h, h2, h3 => by
    refine encodeEntries_length plan _ (r + 1) ?_ (by simp at h2; omega) (by omega)
    unfold bpEntryEncode; rw [memWrite_length]; exact h
    rw [entryBytes_length, h, entryBase]; simp at h2 ⊢; omega

/-- Writing entries leaves every byte outside them. -/
theorem encodeEntries_out : ∀ (plan : List BPEntry) (img : List Byte) (r a : Nat), img.length = 224 → r + plan.length ≤ 21 → 1 ≤ r →
    (a < 2 + (r - 1) * 10 ∨ 2 + (r - 1 + plan.length) * 10 ≤ a) → byteAt (encodeEntries img r plan) a = byteAt img a
  | [], img, r, a, h, _, _, _ => rfl
  | x :: plan, img, r, a, h, h2, h3, ha => by
    simp at h2 ha
    have hb : entryBase r + (entryBytes x).length ≤ img.length := by rw [entryBytes_length, h, entryBase]; simp; omega
    have hl : (bpEntryEncode img r x).length = 224 := by unfold bpEntryEncode; rw [memWrite_length hb, h]
    rw [encodeEntries, encodeEntries_out plan _ (r + 1) a hl (by omega) (by omega) (by omega)]
    exact byteAt_memWrite_out hb (by rw [entryBytes_length, entryBase]; simp; omega)

/-- A word read depends on its four bytes only (R44). -/
theorem memRead32_congr {A B : List Byte} {e : Nat} (h : ∀ k, k < 4 → byteAt A (e + k) = byteAt B (e + k)) : memRead32 A e = memRead32 B e := by
  have h0 := h 0 (by omega); simp only [Nat.add_zero] at h0
  simp only [memRead32, h0, h 1 (by omega), h 2 (by omega), h 3 (by omega)]

/-- Each written entry stands at its base. -/
theorem encodeEntries_in : ∀ (plan : List BPEntry) (img : List Byte) (r k : Nat) (x : BPEntry), img.length = 224 → r + plan.length ≤ 21 → 1 ≤ r → plan[k]? = some x →
    ∀ j, j < 10 → byteAt (encodeEntries img r plan) (2 + (r + k - 1) * 10 + j) = byteAt (entryBytes x) j
  | [], img, r, k, x, h, _, _, hx => by simp at hx
  | y :: plan, img, r, k, x, h, h2, h3, hx => by
    simp at h2
    intro j hj
    have hb : entryBase r + (entryBytes y).length ≤ img.length := by rw [entryBytes_length, h, entryBase]; simp; omega
    have hl : (bpEntryEncode img r y).length = 224 := by unfold bpEntryEncode; rw [memWrite_length hb, h]
    rw [encodeEntries]
    cases k with
    | zero =>
      simp at hx; subst hx
      rw [encodeEntries_out plan _ (r + 1) _ hl (by omega) (by omega) (by left; simp; omega)]
      unfold bpEntryEncode
      rw [byteAt_memWrite_in hb (by simp [entryBase]) (by rw [entryBytes_length, entryBase]; simp; omega)]
      congr 1; simp [entryBase]
    | succ k =>
      have := encodeEntries_in plan _ (r + 1) k x hl (by omega) (by omega) (by simpa using hx) j hj
      rw [← this]; congr 3; omega

/-- The image has 224 bytes before the entries are written. -/
theorem blankImage_length : blankImage.length = 224 := by
  show (List.replicate 222 _).length + 1 + 1 = 224
  rw [List.length_replicate]

/-- The image has 224 bytes (R69). -/
theorem bpEncode_length (plan : List BPEntry) (h : plan.length = 20) : (bpEncode plan).length = 224 := encodeEntries_length plan _ 1 blankImage_length (by omega) (by omega)

/-- What entry `k + 1` of an encoded image reads as (R135). -/
theorem bpEncode_entry (plan : List BPEntry) (h : plan.length = 20) (k : Nat) (x : BPEntry) (hx : plan[k]? = some x) :
   memRead32 (bpEncode plan) (2 + k * 10) = x.startWord &&& 0x7FFFFFFF ∧
   memRead32 (bpEncode plan) (2 + k * 10 + 4) = x.endWord &&& 0x7FFFFFFF ∧
   byteAt (bpEncode plan) (2 + k * 10 + 8) = x.maxPower ∧
   byteAt (bpEncode plan) (2 + k * 10 + 9) = bpFlagsPack (entryFlags x) := by
  have hb : ∀ j, j < 10 → byteAt (bpEncode plan) (2 + k * 10 + j) = byteAt (entryBytes x) j := by
    intro j hj
    have := encodeEntries_in plan blankImage 1 k x blankImage_length (by omega) (by omega) hx j hj
    rw [← this]; unfold bpEncode; congr 3; omega
  refine ⟨?_, ?_, hb 8 (by omega), hb 9 (by omega)⟩
  · simp only [memRead32]
    rw [hb 1 (by omega), hb 2 (by omega), hb 3 (by omega)]
    have := hb 0 (by omega)
    simp only [Nat.add_zero] at this; rw [this]
    exact le32Unpack_pack _
  · simp only [memRead32, Nat.add_assoc]
    have e : 2 + (k * 10 + 4) = 2 + k * 10 + 4 := by omega
    have h4 := hb 4 (by omega); have h5 := hb 5 (by omega); have h6 := hb 6 (by omega); have h7 := hb 7 (by omega)
    simp only [Nat.add_assoc] at h4 h5 h6 h7
    rw [h4, h5, h6, h7]
    exact le32Unpack_pack _

/-- R137 over the naturals. -/
theorem bpEntryValid_iff (a b : Word) : bpEntryValid a b = true ↔ 1800000 ≤ a.toNat ∧ a.toNat < b.toNat ∧ b.toNat ≤ 130000000 := by
  have e1 : Config.bpFreqMinWord.toNat = 1800000 := rfl
  have e2 : Config.bpFreqMaxWord.toNat = 130000000 := rfl
  simp only [bpEntryValid, e1, e2, Bool.and_eq_true, decide_eq_true_eq]; omega

/-- R136 byte by byte. -/
theorem bpMagicOk_iff (bs : List Byte) : bpMagicOk bs = true ↔ byteAt bs 0 = 0x6D ∧ byteAt bs 1 = 0xA4 := by
  simp [bpMagicOk]

/-- An encoded image has its magic (R135). -/
theorem bpEncode_magic (plan : List BPEntry) (h : plan.length = 20) : bpMagicOk (bpEncode plan) = true := by
  rw [bpMagicOk_iff]; unfold bpEncode
  rw [encodeEntries_out plan _ 1 0 blankImage_length (by omega) (by omega) (by left; omega), encodeEntries_out plan _ 1 1 blankImage_length (by omega) (by omega) (by left; omega)]
  exact ⟨rfl, rfl⟩

/-- Entry `k` of a decoded plan (R139). -/
theorem bpDecode_get (bs : List Byte) (k : Nat) (h : k < 20) : (bpDecode bs)[k]? = some (bpEntryDecode bs (k + 1)) := by
  simp [bpDecode, h]

/-- A decoded plan has 20 entries (R139). -/
theorem bpDecode_length (bs : List Byte) : (bpDecode bs).length = 20 := by simp [bpDecode]

/-- The bytes of a slice. -/
theorem slice_get (B : List Byte) (a n k : Nat) (h : a + n ≤ B.length) (hk : k < n) : (slice B a n)[k]? = some (byteAt B (a + k)) := by
  simp [slice, hk, List.getElem?_drop, byteAt, List.getD_eq_getElem?_getD]
  have : a + k < B.length := by omega
  simp [this]

/-- The length of a slice. -/
theorem slice_length (B : List Byte) (a n : Nat) (h : a + n ≤ B.length) : (slice B a n).length = n := by
  simp [slice]; omega

/-- A byte of a slice. -/
theorem byteAt_slice (B : List Byte) (a n k : Nat) (h : a + n ≤ B.length) (hk : k < n) : byteAt (slice B a n) k = byteAt B (a + k) := by
  have := slice_get B a n k h hk
  simp only [byteAt, List.getD_eq_getElem?_getD, this]; rfl

/-- The bit-31 mask once is the mask twice (R79). -/
theorem freqMask_twice (w : Word) : w &&& 0x7FFFFFFF &&& 0x7FFFFFFF = w &&& 0x7FFFFFFF := by
  rw [BitVec.and_assoc, BitVec.and_self]

/-- A literal of the right length is its own bytes. -/
theorem arrBytes_lit {n : Nat} {bs : List Byte} (s : State) (h : bs.length = n) : arrBytes n (.lit bs) s = some bs :=
  congrArg some (ofLength_eq h)

/-- A call on an array operand is the call on its bytes (R31). -/
theorem answerArr_lit {n : Nat} {a : Arr} {s : State} {bs : List Byte} (h : arrBytes n a s = some bs) (f : List Byte → Ret) :
    answerArr n a f s = answerArr n (.lit bs) f s := by
  rw [answerArr_next h, answerArr_next (arrBytes_lit s (arrBytes_length h))]

/-- A call on a literal array of the right length completes. -/
theorem answerArr_lit_next {n : Nat} {bs : List Byte} {f : List Byte → Ret} {s : State} (h : bs.length = n) :
    answerArr n (.lit bs) f s = .next (s.answer (f bs)) :=
  answerArr_next (arrBytes_lit s h)

/-! The results inside the operands' types are those of the pure functions of the codec. -/

/-- Entry numbers 1..20 (R134, R138). -/
theorem entryIndexOk_iff (r : Nat) : entryIndexOk r = true ↔ 1 ≤ r ∧ r ≤ 20 := by simp [entryIndexOk]

theorem imageWithEntry_eq (img : List Byte) {r : Nat} (x : BPEntry) (h1 : 1 ≤ r) (h2 : r ≤ 20) :
    imageWithEntry img r x = bpEntryEncode img r x := if_pos ((entryIndexOk_iff r).2 ⟨h1, h2⟩)

theorem entryAt_eq (img : List Byte) {r : Nat} (h1 : 1 ≤ r) (h2 : r ≤ 20) : entryAt img r = bpEntryDecode img r :=
  if_pos ((entryIndexOk_iff r).2 ⟨h1, h2⟩)

theorem blockAt_eq (img : List Byte) {i : Nat} (h : i < 7) : blockAt img i = bpBlockPayload img i := if_pos h

theorem planOf_eq {plan : List BPEntry} (h : plan.length = 20) : planOf plan = plan := if_pos h

/-- A plan always has 20 entries (R135). -/
theorem planOf_length (plan : List BPEntry) : (planOf plan).length = 20 := by
  unfold planOf
  split
  · assumption
  · simp

/-- The image given back has 224 bytes for every entry number (R134). -/
theorem imageWithEntry_length {img : List Byte} (h : img.length = 224) (r : Nat) (x : BPEntry) :
    (imageWithEntry img r x).length = 224 := by
  unfold imageWithEntry
  split
  · rename_i hr
    have := (entryIndexOk_iff r).1 hr
    rw [bpEntryEncode, memWrite_length, h]
    rw [entryBytes_length, entryBase, h]; simp; omega
  · exact freeBytes_length _ _

/-- What R138 decodes, from any bytes, is BP_DEFAULT or an entry of an image with the magic and with valid words. -/
theorem bpEntryDecode_cases (img : List Byte) (r : Nat) : bpEntryDecode img r = bpDefault ∨
    bpMagicOk img = true ∧ bpEntryValid (bpEntryDecode img r).startWord (bpEntryDecode img r).endWord = true := by
  unfold bpEntryDecode
  split
  · rename_i h
    simp only [Bool.and_eq_true] at h
    exact .inr h
  · exact .inl rfl

/-- The entry given back for any number is BP_DEFAULT, or the magic stands in the image and its words are valid (R138). -/
theorem entryAt_cases {img : List Byte} (h : img.length = 224) (r : Nat) : entryAt img r = bpDefault ∨
    bpMagicOk img = true ∧ bpEntryValid (entryAt img r).startWord (entryAt img r).endWord = true := by
  unfold entryAt
  split
  · exact bpEntryDecode_cases img r
  · have hl : entryBase 1 + (freeBytes Config.bpEntryLen (Config.entryByte img r)).length ≤ img.length := by
      rw [freeBytes_length, h]; decide
    have hm : bpMagicOk (memWrite img (entryBase 1) (freeBytes Config.bpEntryLen (Config.entryByte img r))) = bpMagicOk img := by
      simp only [bpMagicOk, byteAt_memWrite_out hl (.inl (by decide : 0 < entryBase 1)),
        byteAt_memWrite_out hl (.inl (by decide : 1 < entryBase 1))]
    rw [← hm]
    exact bpEntryDecode_cases _ 1

/-- A payload given back has 32 bytes for every block number (R140). -/
theorem blockAt_length {img : List Byte} (h : img.length = 224) (i : Nat) : (blockAt img i).length = 32 := by
  unfold blockAt
  split
  · rename_i hi
    exact slice_length _ _ _ (by rw [h]; simp at hi ⊢; omega)
  · exact freeBytes_length _ _

/-- Bytes 202..223 of an encoded plan are zero (R135). -/
theorem bpEncode_tail (plan : List BPEntry) (h : plan.length = 20) {a : Nat} (h1 : 202 ≤ a) (h2 : a < 224) :
    byteAt (bpEncode plan) a = 0 := by
  unfold bpEncode
  rw [encodeEntries_out _ _ _ _ blankImage_length (by omega) (by omega) (by omega)]
  have : ∀ n : Fin 22, byteAt blankImage (202 + n.val) = 0 := by decide
  have := this ⟨a - 202, by omega⟩
  rwa [show 202 + (a - 202) = a by omega] at this

end Sys2Proof.Machine
end

