-- ==== Sys2Proof/Laws/Channel.lean ====
section
/-! SUPPORT. Laws/Channel.lean: what the channel codec's pure functions read and write. -/

namespace Sys2Proof.Machine

/-- The mode byte as a natural number (R162). -/
theorem chModePack_toNat : ∀ (bw : BitVec 1) (mod : BitVec 3), (chModePack ⟨bw, mod⟩).toNat = bw.toNat + 2 * mod.toNat := by decide

/-- A byte of the first of two joined lists. -/
theorem byteAt_append_left {A B : List Byte} {k : Nat} (h : k < A.length) : byteAt (A ++ B) k = byteAt A k := by
  simp [byteAt, List.getD_eq_getElem?_getD, List.getElem?_append_left h]

/-- The name field has 12 bytes (R164). -/
theorem nameField_length (name : List Byte) : (nameField name).length = 12 := by
  simp [nameField]; omega

/-- The name field holds the name, then zeros (R164). -/
theorem nameField_at (name : List Byte) (k : Nat) (h : k < 12) : byteAt (nameField name) k = name.getD k 0 := by
  have e : nameField name = name.take 12 ++ List.replicate (12 - name.length) 0 := rfl
  simp only [byteAt, e, List.getD_eq_getElem?_getD, List.getElem?_append, List.length_take]
  by_cases hk : k < name.length
  · rw [if_pos (by omega)]; simp [h]
  · rw [if_neg (by omega), List.getElem?_replicate, if_pos (by omega), List.getElem?_eq_none (l := name) (by omega)]; rfl

/-- The bytes before the first zero byte. -/
theorem takeWhile_nonzero (l : List Byte) : (l.takeWhile (fun b => b != 0)).length ≤ l.length ∧
   (∀ k, k < (l.takeWhile (fun b => b != 0)).length → byteAt (l.takeWhile (fun b => b != 0)) k = byteAt l k ∧ byteAt l k ≠ 0) ∧
   ((l.takeWhile (fun b => b != 0)).length = l.length ∨ byteAt l (l.takeWhile (fun b => b != 0)).length = 0) := by
  induction l with
  | nil => simp
  | cons b l ih =>
    obtain ⟨h1, h2, h3⟩ := ih
    rw [List.takeWhile_cons]
    by_cases hb : b = 0
    · subst hb; simp [byteAt]
    · rw [if_pos (by simpa using hb)]
      refine ⟨by simp; exact h1, ?_, by simpa [byteAt] using h3⟩
      intro k hk
      cases k with
      | zero => exact ⟨rfl, hb⟩
      | succ k => simpa [byteAt] using h2 k (by simpa using hk)

/-- The block before its checksum, field by field (R166). -/
theorem chFields_eq (c : ChRecord) : chFields c = le32Pack c.rxWord ++ le32Pack c.txWord ++ le16Pack c.rxTone ++ le16Pack c.txTone ++ [c.txPower] ++ le16Pack c.groups ++ [chModePack (chMode c)] ++ [0,0,0,0] ++ nameField c.name ++ [0] := by
  unfold chFields chNamePack
  have key : ∀ (B : List Byte), memWrite B 20 (nameField c.name) = B.take 20 ++ nameField c.name ++ B.drop 32 := by
    intro B; unfold memWrite; rw [nameField_length]
  simp only [key]
  generalize nameField c.name = nf
  rfl

/-- The 32 payload bytes of an encoded record. -/
def chHead (c : ChRecord) : List Byte := le32Pack c.rxWord ++ le32Pack c.txWord ++ le16Pack c.rxTone ++ le16Pack c.txTone ++ [c.txPower] ++ le16Pack c.groups ++ [chModePack (chMode c)] ++ [0,0,0,0] ++ nameField c.name

/-- There are 32 of them. -/
theorem chHead_length (c : ChRecord) : (chHead c).length = 32 := by
  simp [chHead, nameField_length]

/-- Overwriting the last byte. -/
theorem memWrite_last {H : List Byte} {x y : Byte} {n : Nat} (h : H.length = n) : memWrite (H ++ [y]) n [x] = H ++ [x] := by
  subst h; simp [memWrite]

/-- All bytes but the last. -/
theorem slice_head {H : List Byte} {y : Byte} {n : Nat} (h : H.length = n) : slice (H ++ [y]) 0 n = H := by
  subst h; simp [slice]

/-- An encoded record is its payload and the payload's checksum (R166). -/
theorem chEncode_eq (c : ChRecord) : chEncode c = chHead c ++ [checksum8Of (chHead c)] := by
  have e : chFields c = chHead c ++ [0] := chFields_eq c
  have hl := chHead_length c
  unfold chEncode
  rw [e, memWrite_last hl, slice_head hl]

/-- An encoded record has 33 bytes (R166). -/
theorem chEncode_length (c : ChRecord) : (chEncode c).length = 33 := by rw [chEncode_eq, List.length_append, chHead_length]; rfl

/-- What the fields of an encoded record read as (R82, R166). -/
theorem chHead_fields (c : ChRecord) (t : List Byte) : memRead32 (chHead c ++ t) 0 = c.rxWord ∧ memRead32 (chHead c ++ t) 4 = c.txWord ∧ memRead16 (chHead c ++ t) 8 = c.rxTone ∧ memRead16 (chHead c ++ t) 10 = c.txTone ∧
    byteAt (chHead c ++ t) 12 = c.txPower ∧ memRead16 (chHead c ++ t) 13 = c.groups ∧ byteAt (chHead c ++ t) 15 = chModePack (chMode c) ∧
    (∀ a, 16 ≤ a → a < 20 → byteAt (chHead c ++ t) a = 0) ∧ (∀ k, k < 12 → byteAt (chHead c ++ t) (20 + k) = byteAt (nameField c.name) k) := by
  refine ⟨le32Unpack_pack _, le32Unpack_pack _, le16Unpack_pack _, le16Unpack_pack _, rfl, le16Unpack_pack _, rfl, ?_, ?_⟩
  · intro a h1 h2
    obtain rfl | rfl | rfl | rfl : a = 16 ∨ a = 17 ∨ a = 18 ∨ a = 19 := by omega
    all_goals rfl
  · intro k hk
    unfold chHead
    rw [List.append_assoc]
    unfold byteAt
    rw [List.getD_append_right _ _ _ _ (by simp), show 20 + k - _ = k by simp]
    exact byteAt_append_left (by rw [nameField_length]; exact hk)

/-- A name that fits and holds no zero byte reads back from its field (R165). -/
theorem takeWhile_nameField (name : List Byte) (h : name.length ≤ 12) (h0 : (0 : Byte) ∉ name) : (nameField name).takeWhile (fun b => b != 0) = name := by
  unfold nameField
  rw [List.take_of_length_le (by simpa using h), List.takeWhile_append_of_pos]
  · have : (List.replicate (Config.nameLen - name.length) (0:Byte)).takeWhile (fun b => b != 0) = [] := by
      cases (Config.nameLen - name.length) <;> simp [List.replicate_succ]
    rw [this, List.append_nil]
  · intro b hb; simp; rintro rfl; exact h0 hb

/-- A decoded record has a name of at most 12 bytes, none of them zero (R160, R165). -/
theorem chDecode_ok (bs : List Byte) : (chDecode bs).ok = true := by
  unfold chDecode
  split
  · decide
  · unfold ChRecord.ok chRecordOf
    simp only [Bool.and_eq_true, List.all_eq_true, bne_iff_ne, chNameUnpack]
    refine ⟨decide_eq_true ?_, ?_⟩
    · refine le_trans (List.takeWhile_prefix _).length_le ?_
      unfold slice; rw [List.length_take]; exact Nat.min_le_left _ _
    · intro b hb
      have := List.mem_takeWhile_imp hb
      simpa using this

end Sys2Proof.Machine
end

