-- ==== Sys2Proof/Laws/Session.lean ====
section
/-! SUPPORT. Laws/Session.lean: one inversion lemma per operation of the host's side: everything that can follow if it answers a next state. -/

namespace Sys2Proof

/-- Reading one thing after another succeeds only if both do. -/
theorem Parse.bind_eq_ok {α β : Type} {x : Parse α} {k : α → List Byte → Parse β} {b : β} {r : List Byte}
    (h : x.bind k = .ok b r) : ∃ a r', x = .ok a r' ∧ k a r' = .ok b r := by
  cases x with
  | bad e => simp at h
  | ok a r' => exact ⟨a, r', rfl, by simpa using h⟩

/-- A byte was read off the front. -/
theorem pByte_eq_ok {bs r : List Byte} {b : Byte} (h : pByte bs = .ok b r) : bs = b :: r := by
  cases bs with
  | nil => simp [pByte] at h
  | cons c cs => simpa using h

end Sys2Proof

namespace Sys2Proof.Machine

/-- What decodes at the command port is a host command. -/
theorem decodeCommand_class {bs rest : List Byte} {i : Instr} (h : decodeCommand bs = .ok i rest) : commandInstr i = true := by
  unfold decodeCommand at h
  obtain ⟨c, r, -, h⟩ := Parse.bind_eq_ok h
  split at h
  · simp only [Parse.ok.injEq] at h; rw [← h.1]; rfl
  split at h
  · simp only [Parse.ok.injEq] at h; rw [← h.1]; rfl
  split at h
  · simp only [Parse.ok.injEq] at h; rw [← h.1]; rfl
  split at h
  · obtain ⟨idx, r', -, h⟩ := Parse.bind_eq_ok h
    simp only [Parse.ok.injEq] at h; rw [← h.1]; rfl
  split at h
  · obtain ⟨idx, r1, -, h⟩ := Parse.bind_eq_ok h
    obtain ⟨p, r2, -, h⟩ := Parse.bind_eq_ok h
    obtain ⟨k, r3, -, h⟩ := Parse.bind_eq_ok h
    split at h
    · simp only [Parse.ok.injEq] at h; rw [← h.1]; rfl
    · simp at h
  · simp at h

/-- What decodes at a call port is a codec operation. -/
theorem decodeCall_class {op : CodecOp} {bs rest : List Byte} {i : Instr} (h : decodeCall op bs = .ok i rest) :
    codecInstr i = true := by
  cases op <;> simp only [decodeCall] at h
  all_goals first
    | (obtain ⟨_, _, _, h⟩ := Parse.bind_eq_ok h; obtain ⟨_, _, _, h⟩ := Parse.bind_eq_ok h
       obtain ⟨_, _, _, h⟩ := Parse.bind_eq_ok h; obtain ⟨_, _, _, h⟩ := Parse.bind_eq_ok h
       simp only [Parse.ok.injEq] at h; rw [← h.1]; rfl)
    | (obtain ⟨_, _, _, h⟩ := Parse.bind_eq_ok h; obtain ⟨_, _, _, h⟩ := Parse.bind_eq_ok h
       obtain ⟨_, _, _, h⟩ := Parse.bind_eq_ok h
       simp only [Parse.ok.injEq] at h; rw [← h.1]; rfl)
    | (obtain ⟨_, _, _, h⟩ := Parse.bind_eq_ok h; obtain ⟨_, _, _, h⟩ := Parse.bind_eq_ok h
       simp only [Parse.ok.injEq] at h; rw [← h.1]; rfl)
    | (obtain ⟨_, _, _, h⟩ := Parse.bind_eq_ok h
       simp only [Parse.ok.injEq] at h; rw [← h.1]; rfl)
    | (simp only [Parse.ok.injEq] at h; rw [← h.1]; rfl)

/-- A host write to BUF completes only between rounds and inside BUF, and changes BUF only. -/
theorem hostWriteBuf_eq_next {a : Nat} {bs : List Byte} {s t : State} (h : hostWriteBuf a bs s = .next t) :
    s.done = true ∧ a + bs.length ≤ 224 ∧ t = s.setBuf (Memory.writeRange s.buf a bs) := by
  unfold hostWriteBuf at h
  split at h
  · simp at h
  · rename_i h1
    split at h
    · exact ⟨by simpa using h1, by assumption, by simpa using h.symm⟩
    · simp at h

/-- A host write to BUF between rounds and inside BUF completes. -/
theorem hostWriteBuf_next {a : Nat} {bs : List Byte} {s : State} (h1 : s.done = true) (h2 : a + bs.length ≤ 224) :
    hostWriteBuf a bs s = .next (s.setBuf (Memory.writeRange s.buf a bs)) := by
  simp [hostWriteBuf, h1, h2]

/-- A host read of BUF gives the bytes back, and only that. -/
theorem hostReadBuf_eq_next {a n : Nat} {s t : State} (h : hostReadBuf a n s = .next t) :
    ∃ bs, Memory.readRange s.buf a n = some bs ∧ t = s.answer (.bytes bs) := by
  unfold hostReadBuf at h
  split at h
  · exact ⟨_, by assumption, by simpa using h.symm⟩
  · simp at h

/-- A frame at the command port sends bytes, and only that. -/
theorem runFrame_tx_eq_next {frame : List Byte} {s t : State} (h : runFrame .tx frame s = .next t) :
    ∃ bs e, t = s.send bs e := by
  simp only [runFrame, decode] at h
  split at h
  · exact exec_command_eq_next (decodeCommand_class (by assumption)) h
  · simp at h
  · simp at h

/-- A codec call gives a result back, and only that. -/
theorem runFrame_call_eq_next {op : CodecOp} {args : List Byte} {s t : State} (h : runFrame (.call op) args s = .next t) :
    ∃ r, t = s.answer r := by
  simp only [runFrame, decode] at h
  split at h
  · exact exec_codec_eq_next (decodeCall_class (by assumption)) h
  · simp at h
  · simp at h

/-- A request sends bytes, or gives a result back, or opens or closes the transport, or writes BUF between rounds. -/
theorem serveReq_eq_next {r : HostReq} {s t : State} (h : serveReq r s = .next t) :
    (∃ bs e, t = s.send bs e) ∨ (∃ x, t = s.answer x) ∨ (∃ b, t = s.setClosed b) ∨
      ∃ a bs, s.done = true ∧ a + bs.length ≤ 224 ∧ t = s.setBuf (Memory.writeRange s.buf a bs) := by
  cases r with
  | command frame => exact .inl (runFrame_tx_eq_next h)
  | call op args => exact .inr (.inl (runFrame_call_eq_next h))
  | readBuf a n =>
    obtain ⟨bs, -, rfl⟩ := hostReadBuf_eq_next h
    exact .inr (.inl ⟨_, rfl⟩)
  | writeBuf a bs =>
    obtain ⟨h1, h2, rfl⟩ := hostWriteBuf_eq_next h
    exact .inr (.inr (.inr ⟨a, bs, h1, h2, rfl⟩))
  | readStatus => exact .inr (.inl ⟨_, by simpa [serveReq] using h.symm⟩)
  | writeStatus v => simp [serveReq] at h
  | readOutputs => exact .inr (.inl ⟨_, by simpa [serveReq] using h.symm⟩)
  | openPort => exact .inr (.inr (.inl ⟨_, by simpa [serveReq] using h.symm⟩))
  | closePort => exact .inr (.inr (.inl ⟨_, by simpa [serveReq] using h.symm⟩))

/-- Where the host issues a START. -/
def startsRound : Pos → Bool
  | .helloStart _ => true
  | .roundStart _ _ => true
  | _ => false

/-- The next item of a loop, or its end, lies inside the operation. -/
theorem nextItem_ne_idle (k : Txn) (n : Nat) : nextItem k n ≠ .idle := by
  unfold nextItem
  split
  · split <;> exact fun h => Pos.noConfusion h
  · exact fun h => Pos.noConfusion h

/-- What follows the handshake round lies inside the operation. -/
theorem afterHello_ne_idle (k : Txn) (ph : Phase) : afterHello k ph ≠ .idle := by
  unfold afterHello
  split
  · cases k <;> exact fun h => Pos.noConfusion h
  · exact fun h => Pos.noConfusion h

/-- After F or I the band-plan read goes on to decode BUF; any other operation ends. -/
theorem afterGoodbye_eq (k : Txn) (s : State) : afterGoodbye k s = if k = .bpRead then s.setPos .harvest else s.endSession := by
  cases k <;> rfl

/-- Everything one move of a transaction can do: nothing, a move inside the operation, or its end. -/
theorem txnMove_eq_next {s t : State} (h : txnMove s = .next t) :
    t = s ∨ s.session.pos ≠ .idle ∧
    ((∃ p, p ≠ .idle ∧ t = s.setPos p) ∨ (∃ bs e p, p ≠ .idle ∧ t = (s.send bs e).setPos p) ∨ (∃ bs e, t = (s.send bs e).endSession) ∨
    (startsRound s.session.pos = true ∧ ∃ b p, b.toNat + 32 ≤ 224 ∧ p ≠ .idle ∧ t = (s.boundary.beginRound b).setPos p) ∨
    (s.done = true ∧ ∃ bs p, bs.length ≤ 224 ∧ p ≠ .idle ∧ t = (s.setBuf (Memory.writeRange s.buf 0 bs)).setPos p) ∨
    (∃ n block p, s.phase = .checksumOk ∧ p ≠ .idle ∧ t = (s.setChannel n (chDecode block)).setPos p) ∨
    (∃ img, t = (s.setPlan (bpDecode img)).endSession)) := by
  by_cases hi : s.session.pos = .idle
  · left; unfold txnMove at h; rw [hi] at h; simpa using h.symm
  refine .inr ⟨hi, ?_⟩
  unfold txnMove at h
  split at h
  case h_1 hp => exact absurd hp hi
  case h_2 =>
    obtain ⟨u, hu, rfl⟩ := mapNext_eq_next h
    obtain ⟨bs, e, rfl⟩ := exec_command_eq_next rfl hu
    exact .inr (.inl ⟨_, _, _, by simp, rfl⟩)
  case h_3 hp =>
    obtain ⟨u, hu, rfl⟩ := mapNext_eq_next h
    obtain ⟨hb, rfl⟩ := execStart_eq_next hu
    exact .inr (.inr (.inr (.inl ⟨by rw [hp]; rfl, _, _, hb, by simp, rfl⟩)))
  case h_4 k hp =>
    refine .inl ?_
    split at h
    · exact ⟨_, afterHello_ne_idle _ _, by simpa using h.symm⟩
    · exact ⟨.helloWait k, by simp, by rw [← hp]; simpa [State.setPos] using h.symm⟩
  case h_5 k n hp =>
    cases k <;> simp only [prepareItem] at h
    case bpRead => exact .inl ⟨.command .bpRead n, by simp, by simpa using h.symm⟩
    case chWrite => exact .inl ⟨.command .chWrite n, by simp, by simpa using h.symm⟩
    all_goals
      obtain ⟨u, hu, rfl⟩ := mapNext_eq_next h
      obtain ⟨hd, hb, rfl⟩ := hostWriteBuf_eq_next hu
      exact .inr (.inr (.inr (.inr (.inl ⟨hd, _, _, by rwa [Nat.zero_add] at hb, by simp, rfl⟩))))
  case h_6 k n hp =>
    obtain ⟨u, hu, rfl⟩ := mapNext_eq_next h
    cases k <;> simp only [commandItem] at hu
    case bpWrite =>
      split at hu
      · obtain ⟨bs, e, rfl⟩ := exec_command_eq_next rfl hu
        exact .inr (.inl ⟨_, _, _, by simp, rfl⟩)
      · simp at hu
    all_goals
      obtain ⟨bs, e, rfl⟩ := exec_command_eq_next rfl hu
      exact .inr (.inl ⟨_, _, _, by simp, rfl⟩)
  case h_7 hp =>
    obtain ⟨u, hu, rfl⟩ := mapNext_eq_next h
    obtain ⟨hb, rfl⟩ := execStart_eq_next hu
    exact .inr (.inr (.inr (.inl ⟨by rw [hp]; rfl, _, _, hb, by simp, rfl⟩)))
  case h_8 k n hp =>
    split at h
    case isFalse => exact .inl ⟨.roundWait k n, by simp, by rw [← hp]; simpa [State.setPos] using h.symm⟩
    case isTrue hd =>
      cases k <;> simp only [judgeItem] at h
      case bpRead =>
        split at h
        · obtain ⟨u, hu, rfl⟩ := mapNext_eq_next h
          obtain ⟨hd, hb, rfl⟩ := hostWriteBuf_eq_next hu
          exact .inr (.inr (.inr (.inr (.inl ⟨hd, _, _, by rwa [Nat.zero_add] at hb, by simp, rfl⟩))))
        · exact .inl ⟨_, nextItem_ne_idle _ _, by simpa using h.symm⟩
      case chRead =>
        split at h
        · rename_i hok
          split at h
          · exact .inr (.inr (.inr (.inr (.inr (.inl ⟨_, _, _, hok, nextItem_ne_idle _ _, by simpa using h.symm⟩)))))
          · simp at h
        · exact .inl ⟨_, nextItem_ne_idle _ _, by simpa using h.symm⟩
      all_goals
        refine .inl ⟨_, ?_, by simpa using h.symm⟩
        split
        · exact nextItem_ne_idle _ _
        · exact fun h => Pos.noConfusion h
  case h_9 k c hp =>
    obtain ⟨u, hu, rfl⟩ := mapNext_eq_next h
    obtain ⟨bs, e, rfl⟩ := exec_command_eq_next (by cases c <;> rfl) hu
    rw [afterGoodbye_eq]
    split
    · exact .inr (.inl ⟨_, _, _, by simp, rfl⟩)
    · exact .inr (.inr (.inl ⟨_, _, rfl⟩))
  case h_10 =>
    unfold harvestPlan at h
    split at h
    · exact .inr (.inr (.inr (.inr (.inr (.inr ⟨_, by simpa using h.symm⟩)))))
    · simp at h

/-- Everything one move of the host's flow can do. -/
theorem hostMove_eq_next {s t : State} (h : hostMove s = .next t) :
    (s.session.failed = true ∧ t = abortTxn s) ∨
    (s.session.failed = false ∧ ∃ r rest, s.reqs = r :: rest ∧ serveReq r { s with reqs := rest } = .next t) ∨
    (s.session.failed = false ∧ s.reqs = [] ∧ ∃ o, s.session.want = some o ∧ t = acceptTxn o s) ∨
    (s.session.failed = false ∧ s.reqs = [] ∧ s.session.want = none ∧ txnMove s = .next t) := by
  unfold hostMove at h
  split at h
  · exact .inl ⟨by assumption, by simpa using h.symm⟩
  · rename_i hf
    have hf : s.session.failed = false := by simpa using hf
    split at h
    · exact .inr (.inl ⟨hf, _, _, by assumption, h⟩)
    · split at h
      · exact .inr (.inr (.inl ⟨hf, by assumption, _, by assumption, by simpa using h.symm⟩))
      · exact .inr (.inr (.inr ⟨hf, by assumption, by assumption, h⟩))

/-- Everything the stream can do: a byte taken off it and run, EOS run, a byte presented that stays, or nothing. -/
theorem feed_eq_next {s t : State} (h : feed s = .next t) :
    (s.inReady = true ∧ ∃ b l, s.link.take = some (b, l) ∧ exec (sortByte s.phase s.count b) (s.setLink l) = .next t) ∨
    (exec .eos s = .next t) ∨
    (s.inReady = false ∧ ∃ b, exec (sortByte s.phase s.count b) s = .next t) ∨ t = s := by
  unfold feed at h
  split at h
  · rename_i hr
    split at h
    · exact .inl ⟨hr, _, _, by assumption, h⟩
    · split at h
      · exact .inr (.inl h)
      · exact .inr (.inr (.inr (by simpa using h.symm)))
  · rename_i hr
    split at h
    · exact .inr (.inr (.inl ⟨by simpa using hr, _, h⟩))
    · split at h
      · exact .inr (.inl h)
      · exact .inr (.inr (.inr (by simpa using h.symm)))

/-- Everything a step can do. -/
theorem step_eq_next {s t : State} (h : step s = .next t) :
    (∃ k, s.resetReq = some k ∧ exec (.reset k) (State.boundary { s with resetReq := none }) = .next t) ∨
    (s.resetReq = none ∧ ∃ b, s.startReq = some b ∧ exec (.start b) (State.boundary { s with startReq := none }) = .next t) ∨
    (s.resetReq = none ∧ s.startReq = none ∧ hostActive s = true ∧ hostMove s = .next t) ∨
    (s.resetReq = none ∧ s.startReq = none ∧ hostActive s = false ∧ feed s = .next t) := by
  unfold step advance at h
  split at h
  · exact .inl ⟨_, by assumption, h⟩
  · rename_i h1
    split at h
    · exact .inr (.inl ⟨h1, _, by assumption, h⟩)
    · rename_i h2
      split at h
      · exact .inr (.inr (.inl ⟨h1, h2, by assumption, h⟩))
      · exact .inr (.inr (.inr ⟨h1, h2, by simpa using ‹¬ hostActive s = true›, h⟩))

end Sys2Proof.Machine
end

