-- ==== Sys2Proof/Laws/Rounds.lean ====
section
/-! SUPPORT. Laws/Rounds.lean: single steps of a round and of the host, and how runs compose. -/

namespace Sys2Proof.Machine

/-- With nothing else to do, a step takes the stream (R255). -/
theorem listening_step {s : State} (h : Listening s) : step s = feed s := by
  obtain ⟨h1, h2, h3⟩ := h
  simp [step, advance, h1, h2, h3]

/-- With a request queued, a step serves it. -/
theorem serving_step {s : State} {r : HostReq} {rest : List HostReq} (h : Serving s r rest) : step s = serveReq r { s with reqs := rest } := by
  obtain ⟨h1, h2, h3, h4, h5⟩ := h
  have : hostActive s = true := by simp [hostActive, h4, h5]
  simp [step, advance, h1, h2, this, hostMove, h3, h5]

/-- With only a transaction to run, a step moves it. -/
theorem txn_step {s : State} {p : Pos} (h : InTransaction s p) (hr : p ≠ .idle) (hw : waiting p = false ∨ s.done = true) : step s = txnMove s := by
  obtain ⟨h1, h2, h3, h4, h5, h6, h7⟩ := h
  have : hostActive s = true := by
    simp only [hostActive, txnReady, State.busy, h4, h7, Bool.or_eq_true, Bool.and_eq_true]
    right; refine ⟨rfl, .inr ⟨by simp [hr], ?_⟩⟩
    obtain hw | hw := hw <;> simp [hw]
  simp [step, advance, h1, h2, this, hostMove, h3, h5, h6]

/-- A transaction whose position moves still is what the next step moves. -/
theorem InTransaction.setPos {s : State} {p : Pos} (h : InTransaction s p) (q : Pos) : InTransaction (s.setPos q) q :=
  ⟨h.1, h.2.1, h.2.2.1, h.2.2.2.1, h.2.2.2.2.1, h.2.2.2.2.2.1, rfl⟩

/-- When an item's round has ended, a step judges it. -/
theorem txn_judge {s : State} {k : Txn} {n : Nat} (h : InTransaction s (.roundWait k n)) (hd : s.done = true) : step s = judgeItem k n s := by
  rw [txn_step h (by simp) (.inr hd)]
  simp only [txnMove, h.2.2.2.2.2.2, hd, if_true]

/-- At the end of a transaction a step sends F or I. -/
theorem txn_goodbye {s : State} {k : Txn} {c : Bool} (h : InTransaction s (.goodbye k c)) :
    step s = .next (afterGoodbye k (s.send [if c then 0x49 else 0x46] none)) := by
  rw [txn_step h (by simp) (.inl rfl)]
  simp only [txnMove, h.2.2.2.2.2.2]; cases c <;> rfl

/-- A round that takes bytes has not ended. -/
theorem terminal_of_inReady {s : State} (h : s.inReady = true) : terminal s.phase = false := by
  unfold State.inReady at h
  cases hp : s.phase <;> simp [hp] at h <;> rfl

/-- A byte in hand is the next byte. -/
theorem nextByte_cons (b : Byte) (r : List Byte) (line : List (List Byte)) : nextByte (b :: r) line = some (b, r, line) := by
  cases line <;> rfl

/-- The next byte is the first of the stream, whatever chunks it comes in. -/
theorem nextByte_stream (rx : List Byte) (line : List (List Byte)) (b : Byte) (r : List Byte) (h : rx ++ line.flatten = b :: r) :
    ∃ rx' line', nextByte rx line = some (b, rx', line') ∧ rx' ++ line'.flatten = r := by
  induction line generalizing rx with
  | nil =>
    cases rx with
    | nil => simp at h
    | cons x xs =>
      simp only [List.flatten_nil, List.append_nil, List.cons.injEq] at h
      obtain ⟨rfl, rfl⟩ := h
      exact ⟨xs, [], rfl, by simp⟩
  | cons c cs ih =>
    cases rx with
    | nil => exact ih c (by simpa using h)
    | cons x xs =>
      simp only [List.cons_append, List.cons.injEq] at h
      obtain ⟨rfl, rfl⟩ := h
      exact ⟨xs, c :: cs, rfl, rfl⟩

/-- No byte of the stream is left. -/
theorem nextByte_none (rx : List Byte) (line : List (List Byte)) (h : rx ++ line.flatten = []) : nextByte rx line = none := by
  induction line generalizing rx with
  | nil => cases rx with
    | nil => rfl
    | cons x xs => simp at h
  | cons c cs ih => cases rx with
    | nil => exact ih c (by simpa using h)
    | cons x xs => simp at h

/-- A byte in hand or in a chunk is the link's next byte; whether the link is closed, and what comes after, stays. -/
theorem Link.take_stream {l : Link} {b : Byte} {r : List Byte} (h : l.rx ++ l.line.flatten = b :: r) :
    ∃ rx line, l.take = some (b, { l with rx := rx, line := line }) ∧ rx ++ line.flatten = r := by
  obtain ⟨rx, line, hn, hf⟩ := nextByte_stream l.rx l.line b r h
  exact ⟨rx, line, by unfold Link.take; rw [hn], hf⟩

/-- With no byte in hand and none in a chunk, a closed link has no next byte. -/
theorem Link.take_closed {l : Link} (h : l.rx ++ l.line.flatten = []) (hc : l.closed = true) : l.take = none := by
  unfold Link.take; rw [nextByte_none _ _ h, hc]; rfl

/-- With no byte in hand and none in a chunk, an open link's next byte is the device's, if it sends on. -/
theorem Link.take_more {l : Link} (h : l.rx ++ l.line.flatten = []) (hc : l.closed = false) :
    l.take = l.more.map (fun k => (Config.deviceByte k, { l with more := some (k + 1) })) := by
  unfold Link.take; rw [nextByte_none _ _ h, hc]; cases l.more <;> rfl

/-- The first byte of a run, and the run of the others. -/
theorem Link.run_cons {l l' : Link} {n : Nat} {b : Byte} {bs : List Byte} (h : Link.run (n + 1) l = (b :: bs, l')) :
    ∃ l1, l.take = some (b, l1) ∧ Link.run n l1 = (bs, l') := by
  unfold Link.run at h
  split at h
  · rename_i c l1 ht
    simp only [Prod.mk.injEq, List.cons.injEq] at h
    obtain ⟨⟨rfl, h1⟩, h2⟩ := h
    exact ⟨l1, ht, Prod.ext h1 h2⟩
  · simp at h

/-- The next byte of the link is consumed and run in its class (R60). -/
theorem feed_take {s : State} {b : Byte} {l : Link} (h : Listening s) (hr : s.inReady = true) (hx : s.link.take = some (b, l)) :
    step s = exec (sortByte s.phase s.count b) (s.setLink l) := by
  rw [listening_step h]; unfold feed; rw [if_pos hr, hx]

/-- A byte in hand is consumed and run in its class (R60). -/
theorem feed_cons {s : State} {b : Byte} {r : List Byte} (h : Listening s) (hr : s.inReady = true) (hx : s.rx = b :: r) :
    step s = exec (sortByte s.phase s.count b) { s with rx := r } :=
  feed_take (l := { s.link with rx := r }) h hr (by unfold Link.take State.link; rw [hx, nextByte_cons])

/-- In a round, with no byte left on a closed link, EOS is run (R104). -/
theorem feed_eos {s : State} (h : Listening s) (hr : s.inReady = true) (hx : s.link.take = none) (hc : s.closed = true) :
    step s = exec .eos s := by
  rw [listening_step h]; unfold feed; rw [if_pos hr, hx, hc]; rfl

/-- In a terminal state, with no byte in hand on a closed link, EOS is run (R104). -/
theorem feed_eos_terminal {s : State} (h : Listening s) (hr : s.inReady = false) (hx : s.rx = []) (hc : s.closed = true) :
    step s = exec .eos s := by
  rw [listening_step h]; unfold feed; rw [if_neg (by simp [hr]), hx, hc]; rfl

/-- With no byte and no end of stream a round waits (R284). -/
theorem feed_wait {s : State} (h : Listening s) (hr : s.inReady = true) (hx : s.link.take = none) (hc : s.closed = false) :
    step s = .next s := by
  rw [listening_step h]; unfold feed; rw [if_pos hr, hx, hc]; rfl

/-- One step, then the others. -/
theorem runSteps_succ {s u : State} (k : Nat) (h : step s = .next u) : runSteps (k + 1) s = runSteps k u := by
  simp only [runSteps, h]

/-- Some steps, then some more. -/
theorem runSteps_add (a b : Nat) {s t : State} (h : runSteps a s = .next t) : runSteps (a + b) s = runSteps b t := by
  induction a generalizing s with
  | zero => simp only [runSteps, Host.Outcome.next.injEq] at h; subst h; rw [Nat.zero_add]
  | succ a ih =>
    cases hu : step s with
    | next u =>
      rw [runSteps_succ a hu] at h
      rw [show a + 1 + b = (a + b) + 1 by omega, runSteps_succ _ hu]
      exact ih h
    | fault r => simp [runSteps, hu] at h
    | refused r => simp [runSteps, hu] at h

/-- One step. -/
theorem runSteps_one {s t : State} (h : step s = .next t) : runSteps 1 s = .next t := by simp [runSteps, h]

/-- HDR in Idle (R100). -/
theorem exec_hdr_next {s : State} (h : s.phase = .idle) : exec .hdr s = .next s.enterCollecting := if_pos h

/-- NOISE in Idle (R103). -/
theorem exec_noise_next {s : State} {b : Byte} (h : s.phase = .idle) (hb : isNoise b = true) : exec (.noise b) s = .next s := by
  show execNoise b s = _
  unfold execNoise inIdle; rw [if_pos hb, if_pos h]

/-- DATA in Collecting below 32 (R102). -/
theorem exec_data_next {s : State} {b : Byte} (h : s.phase = .collecting) (hc : s.count.toNat < 32) (ha : s.payloadAddr < 224) : exec (.data b) s = .next (s.storePayload b) := by
  show execData b s = _
  unfold execData; rw [if_pos h, if_pos (show s.count.toNat < Config.blockPayload from hc), if_pos ha]

/-- CHK in Collecting at 32 (R109). -/
theorem exec_chk_next {s : State} {b : Byte} (h : s.phase = .collecting) (hc : s.count.toNat = 32) : exec (.chk b) s = .next (s.setPhase (if b = s.csum then .checksumOk else .checksumBad)) := by
  show execChk b s = _
  unfold execChk; rw [if_pos h, if_pos (show s.count.toNat = Config.blockPayload from hc)]

/-- Below 32 a byte is payload (R62). -/
theorem sortByte_data {s : State} (b : Byte) (h : s.phase = .collecting) (hc : s.count.toNat < 32) : sortByte s.phase s.count b = .data b := by
  rw [h]; exact if_pos hc

/-- At 32 a byte is the checksum (R62). -/
theorem sortByte_chk {s : State} (b : Byte) (h : s.phase = .collecting) (hc : s.count.toNat = 32) : sortByte s.phase s.count b = .chk b := by
  rw [h]; exact if_neg (show ¬ s.count.toNat < 32 by omega)

/-- IN_READY is the opposite of DONE (R27). -/
theorem inReady_eq (s : State) : s.inReady = !s.done := by
  unfold State.inReady State.done
  cases s.phase <;> rfl

/-- The host stays idle while its session, its requests and the end of the stream stay, and DONE stays or a round runs. -/
theorem hostActive_congr {s t : State} (h : hostActive s = false) (hs : t.session = s.session) (hr : t.reqs = s.reqs) (hc : t.closed = s.closed)
    (hd : t.done = s.done ∨ t.done = false) : hostActive t = false := by
  unfold hostActive txnReady State.busy State.ending at *
  rw [inReady_eq] at *
  rw [hs, hr, hc]
  cases hsd : s.done <;> cases htd : t.done <;> simp_all

/-- While a round runs on a closed link, the stream goes before the host (R265, R285; log 3). -/
theorem listening_of_ending {s : State} (h1 : s.resetReq = none) (h2 : s.startReq = none) (h3 : s.session.failed = false)
    (h4 : s.ending = true) : Listening s := ⟨h1, h2, by simp [hostActive, h3, h4]⟩

/-- Taking a byte neither ends the stream nor opens it. -/
theorem Link.take_keeps_closed {l l' : Link} {b : Byte} (h : l.take = some (b, l')) : l'.closed = l.closed := by
  unfold Link.take at h
  split at h
  · simp only [Option.some.injEq, Prod.mk.injEq] at h; rw [← h.2]
  · split at h
    · simp at h
    · split at h
      · simp only [Option.some.injEq, Prod.mk.injEq] at h; rw [← h.2]
      · simp at h

/-- Where the next step takes the stream, so does the step after a byte. -/
theorem Listening.setLink {s : State} {l : Link} {b : Byte} (h : Listening s) (ht : s.link.take = some (b, l)) : Listening (s.setLink l) :=
  ⟨h.1, h.2.1, hostActive_congr h.2.2 rfl rfl (Link.take_keeps_closed ht) (.inl rfl)⟩

/-- After START the stream is next, if the host did not run before. -/
theorem start_quiet {s : State} {base : Byte} (hq : hostActive s = false) : Listening ({ s with startReq := none, resetReq := none }.beginRound base) :=
  ⟨rfl, rfl, hostActive_congr hq rfl rfl rfl (.inr rfl)⟩

/-- The block's part of the invariant depends on the block only, the rest on the session and what was handed back. -/
theorem Inv.congr_block {s t : State} (h : Inv s) (hb : t.block = s.block) (h1 : t.session.pos ≠ .idle → t.session.records.ok = true)
    (h2 : t.session.pos = .idle → t.session.records = Records.none) (h3 : ∀ o, t.session.want = some o → o.records.ok = true)
    (h4 : ∀ r, t.handed = some r → r.ok = true) : Inv t := by
  have e1 : t.phase = s.phase := congrArg Block.phase hb
  have e2 : t.count = s.count := congrArg Block.count hb
  have e3 : t.csum = s.csum := congrArg Block.csum hb
  have e4 : t.base = s.base := congrArg Block.base hb
  have e5 : t.buf = s.buf := congrArg Block.buf hb
  exact ⟨e5 ▸ h.bufWf, e2 ▸ h.countLe, e4 ▸ h.baseLe, by rw [e1, e2, e3, e4, e5]; exact h.csumEq, h1, h2, h3, h4⟩

/-- The invariant depends on the block, the session and what was handed back only. -/
theorem Inv.congr {s t : State} (h : Inv s) (hb : t.block = s.block) (h1 : t.session = s.session) (h2 : t.handed = s.handed) : Inv t :=
  h.congr_block hb (h1 ▸ h.sessionOk) (h1 ▸ h.sessionGone) (h1 ▸ h.wantOk) (h2 ▸ h.handedOk)

/-- The invariant holds after a move inside the operation. -/
theorem Inv.setPos {s : State} (h : Inv s) (hi : s.session.pos ≠ .idle) {p : Pos} (hp : p ≠ .idle) : Inv (s.setPos p) :=
  h.congr_block rfl (fun _ => h.sessionOk hi) (fun e => absurd e hp) h.wantOk h.handedOk

/-- The invariant holds after the end of an operation. -/
theorem Inv.endSession {s : State} (h : Inv s) (hi : s.session.pos ≠ .idle) : Inv s.endSession :=
  h.congr_block rfl (fun e => absurd rfl e) (fun _ => rfl) h.wantOk (fun r hr => by
    simp only [State.endSession_handed, Option.some.injEq] at hr; exact hr ▸ h.sessionOk hi)

end Sys2Proof.Machine
end

