-- ==== Sys2Proof/Laws/Words.lean ====
section
/-! SUPPORT. Laws/Words.lean: the word sub-codecs over the naturals, and the decimal texts. -/

namespace Sys2Proof.Machine

/-- Bit 15 of a tone word (R194). -/
theorem and_8000 (w : Half) : w &&& 0x8000 ≠ 0 ↔ 32768 ≤ w.toNat := by
  have hw := w.isLt
  have e : (w &&& 0x8000).toNat = (w.toNat.testBit 15).toNat * 2 ^ 15 := by
    rw [BitVec.toNat_and]; exact Nat.and_two_pow w.toNat 15
  have h0 : (w &&& 0x8000 = 0) ↔ (w &&& 0x8000).toNat = 0 := ⟨fun h => by rw [h]; rfl, fun h => BitVec.eq_of_toNat_eq h⟩
  rw [Ne, h0, e, Nat.testBit_eq_decide_div_mod_eq]
  by_cases h : w.toNat / 2 ^ 15 % 2 = 1
  · simp; omega
  · simp; omega

/-- The low 14 bits of a tone word (R194). -/
theorem and_3fff (w : Half) : (w &&& 0x3FFF).toNat = w.toNat % 16384 := by
  rw [BitVec.toNat_and]; exact Nat.and_two_pow_sub_one_eq_mod w.toNat 14

/-- The DCS word as a natural number (R195). -/
theorem dcsWord_toNat : ∀ (code : BitVec 9) (inv : BitVec 1), ((0x8000 : Half) ||| code.setWidth 16 ||| (inv.setWidth 16 <<< 14)).toNat = 32768 + 16384 * inv.toNat + code.toNat := by decide +kernel

/-- Nibble `k` of a group word as a natural number (R78). -/
theorem nibble_toNat (g : Half) (k : Nat) : (nibble g k).toNat = g.toNat / 2 ^ (4 * k) % 16 := by
  simp [nibble, Nat.shiftRight_eq_div_pow]; omega

/-- One step of GROUP_PACK as natural numbers (R198). -/
theorem groupPack_cons_toNat (v : Byte) (vs : List Byte) (h : v.toNat ≤ 15) : (groupPack (v :: vs)).toNat = (groupPack vs).toNat * 16 % 65536 + v.toNat := by
  show (((groupPack vs) <<< 4) ||| v.setWidth 16).toNat = _
  have hv : (v.setWidth 16 : Half).toNat = v.toNat := by simp; omega
  have e := Nat.two_pow_add_eq_or_of_lt (i := 4) (b := v.toNat) (by omega) ((groupPack vs).toNat * 16 % 65536 / 16)
  have hm : 2 ^ 4 * ((groupPack vs).toNat * 16 % 65536 / 16) = (groupPack vs).toNat * 16 % 65536 := by omega
  rw [hm] at e
  rw [BitVec.toNat_or, hv, BitVec.toNat_shiftLeft, Nat.shiftLeft_eq, e]

/-- Values that R198 names pass its check. -/
theorem groupOperandsOk_of (vs : List Byte) (pol : Config.GroupPPolicy) (h : ∀ x ∈ vs, 1 ≤ x.toNat ∧ x.toNat ≤ 16 ∧ (x = 16 → pol = .overflow)) : groupOperandsOk pol vs = true := by
  simp only [groupOperandsOk, List.all_eq_true]
  intro v hv
  obtain ⟨h1, h2, h3⟩ := h v hv
  simp [groupValueOk, h1, h2]
  by_cases hx : v = 16
  · right; exact h3 hx
  · left; exact hx

/-- The word of values that R198 names is that of its pseudocode. -/
theorem groupWordFor_eq {vs : List Byte} {pol : Config.GroupPPolicy} (h : ∀ x ∈ vs, 1 ≤ x.toNat ∧ x.toNat ≤ 16 ∧ (x = 16 → pol = .overflow)) :
    groupWordFor pol vs = groupPack vs := if_pos (groupOperandsOk_of vs pol h)

/-- The word of CTCSS(t) with t in 0..3000 is t (R195). -/
theorem toneWordFor_ctcss {t : Half} (h : t.toNat ≤ 3000) : toneWordFor (.ctcss t) = t := if_pos h

/-- The text of t in 1..3000 is that of R223. -/
theorem ctcssTextFor_eq {t : Half} (h1 : 1 ≤ t.toNat) (h2 : t.toNat ≤ 3000) : ctcssTextFor t = ctcssTextOf t := if_pos ⟨h1, h2⟩

/-- Rounding half up, as two inequalities (R220, R224). -/
theorem roundScaled_bounds (m : Decimal) (sc : Nat) : 2 * 10 ^ places m * roundScaled m sc ≤ 2 * mant m * sc + 10 ^ places m ∧
   2 * mant m * sc + 10 ^ places m < 2 * 10 ^ places m * (roundScaled m sc + 1) := by
  have hp : 0 < 2 * 10 ^ places m := by positivity
  unfold roundScaled
  refine ⟨Nat.mul_div_le _ _, ?_⟩
  exact Nat.lt_mul_div_succ _ hp

/-- The decimal digits of a natural number before `acc`, as `natTextAux` writes them. -/
def digitsAux : Nat → Nat → List (Fin 10) → List (Fin 10)
  | 0, _, acc => acc
  | fuel + 1, n, acc => if h : n < 10 then ⟨n, h⟩ :: acc else digitsAux fuel (n / 10) (⟨n % 10, by omega⟩ :: acc)

/-- `natTextAux` writes digits. -/
theorem natTextAux_digits (fuel n : Nat) (acc : List (Fin 10)) (h : fuel ≠ 0) : natTextAux fuel n (acc.map fun x => digitByte x.val) = (digitsAux fuel n acc).map fun x => digitByte x.val := by
  induction fuel generalizing n acc with
  | zero => exact absurd rfl h
  | succ f ih =>
    unfold natTextAux digitsAux
    split
    · rfl
    · by_cases hf : f = 0
      · subst hf; rfl
      · exact ih (n / 10) (⟨n % 10, by omega⟩ :: acc) hf

/-- The value of a list of decimal digits. -/
def digitsVal (l : List (Fin 10)) : Nat := l.foldl (fun acc x => 10 * acc + x.val) 0

/-- The value of digits read after a prefix. -/
theorem foldl_digitsVal (l : List (Fin 10)) (a : Nat) : l.foldl (fun acc x => 10 * acc + x.val) a = a * 10 ^ l.length + digitsVal l := by
  induction l generalizing a with
  | nil => simp [digitsVal]
  | cons x l ih =>
    unfold digitsVal
    simp only [List.foldl_cons, List.length_cons]
    rw [ih, ih (10 * 0 + x.val), Nat.pow_succ]; ring

/-- The digits written have the value of the number. -/
theorem digitsAux_val (fuel n : Nat) (acc : List (Fin 10)) (h : n < 10 ^ fuel) : digitsVal (digitsAux fuel n acc) = n * 10 ^ acc.length + digitsVal acc := by
  induction fuel generalizing n acc with
  | zero => simp at h; subst h; simp [digitsAux]
  | succ f ih =>
    unfold digitsAux
    split
    · unfold digitsVal; rw [List.foldl_cons, foldl_digitsVal]; simp [digitsVal]
    · rw [ih]
      · unfold digitsVal; rw [List.foldl_cons, foldl_digitsVal, List.length_cons, Nat.pow_succ]
        simp only [Nat.mul_zero, Nat.zero_add]
        have := Nat.div_add_mod n 10
        set q := n / 10; set r := n % 10
        rw [← this]; simp only [digitsVal]; ring
      · rw [Nat.pow_succ] at h; omega

/-- At least one digit is written. -/
theorem digitsAux_ne (fuel n : Nat) (acc : List (Fin 10)) (h : fuel ≠ 0) : digitsAux fuel n acc ≠ [] := by
  induction fuel generalizing n acc with
  | zero => exact absurd rfl h
  | succ f ih =>
    unfold digitsAux
    split
    · simp
    · by_cases hf : f = 0
      · subst hf; simp [digitsAux]
      · exact ih _ _ hf

/-- No leading zero is written (R223). -/
theorem digitsAux_head (fuel n : Nat) (acc : List (Fin 10)) (h : n < 10 ^ fuel) (h0 : n ≠ 0) : (digitsAux fuel n acc).head? ≠ some 0 := by
  induction fuel generalizing n acc with
  | zero => simp at h; omega
  | succ f ih =>
    unfold digitsAux
    split
    · simp [Fin.ext_iff]; exact h0
    · exact ih _ _ (by rw [Nat.pow_succ] at h; omega) (by omega)

/-- `natText` writes digits. -/
theorem natText_digits (n : Nat) : natText n = (digitsAux 10 n []).map fun x => digitByte x.val := natTextAux_digits 10 n [] (by decide)

/-- The mantissa of a decimal from its two parts. -/
theorem mant_split (i f : List (Fin 10)) : mant ⟨i, f⟩ = digitsVal i * 10 ^ f.length + digitsVal f := by
  unfold mant; simp only [List.foldl_append]; rw [foldl_digitsVal]; rfl

/-- A digit is no sign and no point. -/
theorem digit_byte_ne (x : Fin 10) : digitByte x.val ≠ 0x2B ∧ digitByte x.val ≠ 0x2D ∧ digitByte x.val ≠ 0x2E := by revert x; decide

/-- An optional sign is dropped (R225). -/
theorem dropSign_text {sign t : List Byte} (h : sign ∈ [[], [0x2B], [0x2D]]) (ht : ∀ b r, t = b :: r → b ≠ 0x2B ∧ b ≠ 0x2D) : dropSign (sign ++ t) = t := by
  simp only [List.mem_cons, List.not_mem_nil, or_false] at h
  rcases h with rfl | rfl | rfl
  · cases t with
    | nil => rfl
    | cons b r => obtain ⟨h1, h2⟩ := ht b r rfl; simp only [List.nil_append, dropSign]; rw [if_neg]; simp only [not_or]; exact ⟨h1, h2⟩
  · rfl
  · rfl

/-- Digits as ASCII bytes. -/
abbrev digitsText (l : List (Fin 10)) : List Byte := l.map (fun x => digitByte x.val)

/-- All digits are taken. -/
theorem spanDigits_text (l : List (Fin 10)) : spanDigits (digitsText l) = (l, []) := by
  have := spanDigits_digits l [] (by simp); simpa using this

/-- The digits up to the point are taken. -/
theorem spanDigits_point (l : List (Fin 10)) (r : List Byte) : spanDigits (digitsText l ++ (0x2E :: r)) = (l, 0x2E :: r) := by
  apply spanDigits_digits; intro b r' h; simp at h; rw [← h.1]; exact digitOf_point

/-- A text with a point is a NUMBER (R225). -/
theorem parseNumber_point {sign : List Byte} (h : sign ∈ [[], [0x2B], [0x2D]]) (i f : List (Fin 10)) (hne : i ≠ [] ∨ f ≠ []) :
   parseNumber (sign ++ digitsText i ++ [0x2E] ++ digitsText f) = some ⟨i, f⟩ := by
  have hd : dropSign (sign ++ digitsText i ++ [0x2E] ++ digitsText f) = digitsText i ++ (0x2E :: digitsText f) := by
    rw [List.append_assoc, List.append_assoc]
    apply dropSign_text h
    intro b r hb
    cases i with
    | nil => simp [digitsText] at hb; rw [← hb.1]; decide
    | cons x i => simp [digitsText] at hb; rw [← hb.1]; exact ⟨(digit_byte_ne x).1, (digit_byte_ne x).2.1⟩
  unfold parseNumber
  rw [hd, spanDigits_point]
  simp only [spanDigits_text]
  rw [if_pos]
  refine ⟨trivial, trivial, ?_⟩
  rintro ⟨rfl, rfl⟩; simp at hne

/-- A text of digits is a NUMBER (R225). -/
theorem parseNumber_int {sign : List Byte} (h : sign ∈ [[], [0x2B], [0x2D]]) (i : List (Fin 10)) (hne : i ≠ []) :
   parseNumber (sign ++ digitsText i) = some ⟨i, []⟩ := by
  have hd : dropSign (sign ++ digitsText i) = digitsText i := by
    apply dropSign_text h
    intro b r hb
    cases i with
    | nil => simp [digitsText] at hb
    | cons x i => simp [digitsText] at hb; rw [← hb.1]; exact ⟨(digit_byte_ne x).1, (digit_byte_ne x).2.1⟩
  unfold parseNumber
  rw [hd, spanDigits_text]
  simp only
  rw [if_neg hne]

/-- What `spanDigits` takes and what it leaves are the text. -/
theorem spanDigits_split (t : List Byte) : t = digitsText (spanDigits t).1 ++ (spanDigits t).2 := by
  induction t with
  | nil => rfl
  | cons b r ih =>
    unfold spanDigits
    split
    · rename_i d hd
      have hb : b = digitByte d.val := by
        revert b d; decide +kernel
      simp only [digitsText, List.map_cons, List.cons_append]
      rw [hb]; exact congrArg _ ih
    · rfl

/-- What `dropSign` drops is a sign (R225). -/
theorem dropSign_split (t : List Byte) : ∃ sign, sign ∈ [[], [0x2B], [(0x2D : Byte)]] ∧ t = sign ++ dropSign t := by
  cases t with
  | nil => exact ⟨[], by simp, rfl⟩
  | cons b r =>
    by_cases h : b = 0x2B ∨ b = 0x2D
    · refine ⟨[b], by simpa using h, ?_⟩
      simp only [dropSign, if_pos h]; rfl
    · refine ⟨[], by simp, ?_⟩
      simp only [dropSign, if_neg h]; rfl

/-- A text that parses as a number is a NUMBER (R225). -/
theorem parseNumber_eq_some {str : List Byte} {d : Decimal} (h : parseNumber str = some d) : ∃ sign point, NumberText str sign point d := by
  obtain ⟨sign, hs, he⟩ := dropSign_split str
  unfold parseNumber at h
  simp only at h
  generalize dropSign str = u at h he
  have h1 := spanDigits_split u
  split at h
  · rename_i hp
    split at h
    · simp at h
    · rename_i hne
      simp only [Option.some.injEq] at h; subst h
      exact ⟨sign, [], hs, .inr ⟨rfl, hne, rfl⟩, by rw [hp] at h1; rw [he]; conv_lhs => {rw [h1]}; simp [digitsText]⟩
  · rename_i b rest hp
    have h2 := spanDigits_split rest
    split at h
    · rename_i hc
      obtain ⟨rfl, hq, hn⟩ := hc
      simp only [Option.some.injEq] at h; subst h
      refine ⟨sign, [0x2E], hs, .inl ⟨rfl, ?_⟩, ?_⟩
      · by_contra hcon; simp only [not_or, ne_eq, not_not] at hcon; exact hn hcon
      · rw [hq, List.append_nil] at h2
        rw [hp] at h1
        rw [he]
        conv_lhs => rw [h1, h2]
        simp [digitsText]
    · simp at h

/-- A NUMBER (R225) parses as its digits. -/
theorem parseNumber_of_text {str sign point : List Byte} {d : Decimal} (h : NumberText str sign point d) : parseNumber str = some d := by
  obtain ⟨hs, hp, rfl⟩ := h
  obtain ⟨rfl, h⟩ | ⟨rfl, h1, h2⟩ := hp
  · exact parseNumber_point hs d.int d.frac h
  · rw [h2]; simp only [List.map_nil, List.append_nil]
    rw [show d = ⟨d.int, []⟩ by rw [← h2]]
    exact parseNumber_int hs d.int h1

/-- A text that parses as a DCS text is one (R226). -/
theorem parseDcs_eq_some {str : List Byte} {t : Tone} (h : parseDcs str = some t) :
    ∃ d2 d1 d0 inv, DcsText str d2 d1 d0 inv ∧ t = .dcs (dcsCode d2 d1 d0) inv := by
  have hoct : ∀ (b : Byte) (d : BitVec 3), octalOf b = some d → b = digitByte d.toNat := by decide +kernel
  have hpol : ∀ (b : Byte) (i : BitVec 1), polarityOf b = some i → b = if i = 1 then 0x49 else 0x4E := by decide +kernel
  unfold parseDcs at h
  split at h
  · rename_i h0 b2 b1 b0 x
    split at h
    · rename_i d2 d1 d0 inv e2 e1 e0 ex
      split at h
      · rename_i hh
        refine ⟨d2, d1, d0, inv, ?_, by simpa using h.symm⟩
        unfold DcsText
        rw [hh, hoct _ _ e2, hoct _ _ e1, hoct _ _ e0, hpol _ _ ex]
      · simp at h
    · simp at h
  · simp at h

/-- A DCS text (R226) parses as its digits. -/
theorem parseDcs_of_text {str : List Byte} {d2 d1 d0 : BitVec 3} {inv : BitVec 1} (h : DcsText str d2 d1 d0 inv) :
    parseDcs str = some (.dcs (dcsCode d2 d1 d0) inv) := by
  have hoct : ∀ d : BitVec 3, octalOf (digitByte d.toNat) = some d := by decide
  have hpol : ∀ i : BitVec 1, polarityOf (if i = 1 then 0x49 else 0x4E) = some i := by decide
  unfold DcsText at h; subst h
  unfold parseDcs
  simp only [hoct, hpol, if_true]

/-- A text that begins with "D" is no NUMBER (R225). -/
theorem parseNumber_dcs (r : List Byte) : parseNumber (0x44 :: r) = none := by
  unfold parseNumber
  rw [show dropSign (0x44 :: r) = 0x44 :: r from rfl, show spanDigits (0x44 :: r) = ([], 0x44 :: r) by unfold spanDigits; rfl]
  exact if_neg (fun h => absurd h.1 (by decide))

/-- The tone word of a NUMBER (R224): its tenths, halves up, or 0 when they are over 3000, since no NUMBER is a DCS text. -/
theorem toneWordOf_number {str sign point : List Byte} {d : Decimal} (h : NumberText str sign point d) :
    toneWordOf str = if roundScaled d 10 ≤ 3000 then BitVec.ofNat 16 (roundScaled d 10) else 0 := by
  have hpn := parseNumber_of_text h
  have hd : dcsOrOff str = 0 := by
    unfold dcsOrOff
    cases hpd : parseDcs str with
    | none => rfl
    | some t =>
      obtain ⟨d2, d1, d0, inv, hd, _⟩ := parseDcs_eq_some hpd
      rw [hd, parseNumber_dcs] at hpn
      simp at hpn
  unfold toneWordOf
  rw [hpn, hd]

/-- The tenths of a number strictly between 300.04 and 300.05 round to 3000 (log 33). -/
theorem roundScaled_disputed {sign : List Byte} {d : Decimal} (h : DisputedTone sign d) : roundScaled d 10 = 3000 := by
  obtain ⟨-, h1, h2⟩ := h
  unfold roundScaled
  generalize 10 ^ places d = p at h1 h2 ⊢
  exact Nat.div_eq_of_lt_le (by omega) (by omega)

/-- A text that is neither a NUMBER nor a DCS text has the tone word 0 (R224). -/
theorem toneWordOf_other {str : List Byte} (h1 : ∀ sign point d, ¬ NumberText str sign point d) (h2 : ∀ d2 d1 d0 inv, ¬ DcsText str d2 d1 d0 inv) :
    toneWordOf str = 0 := by
  unfold toneWordOf dcsOrOff
  cases hp : parseNumber str with
  | some d =>
    obtain ⟨_, _, h⟩ := parseNumber_eq_some hp
    exact absurd h (h1 _ _ _)
  | none =>
    cases hd : parseDcs str with
    | some t =>
      obtain ⟨_, _, _, _, h, _⟩ := parseDcs_eq_some hd
      exact absurd h (h2 _ _ _ _)
    | none => rfl

/-- The bytes of a NUMBER are ASCII (R225). -/
theorem NumberText.ascii {str sign point : List Byte} {d : Decimal} (h : NumberText str sign point d) : ∀ b ∈ str, b.toNat < 128 := by
  have hd : ∀ x : Fin 10, (digitByte x.val).toNat < 128 := by decide
  obtain ⟨hs, hp, rfl⟩ := h
  intro b hb
  simp only [List.mem_append, List.mem_map] at hb
  obtain ((hb | ⟨x, -, rfl⟩) | hb) | ⟨x, -, rfl⟩ := hb
  · simp only [List.mem_cons, List.not_mem_nil, or_false] at hs
    rcases hs with rfl | rfl | rfl <;> simp at hb <;> subst hb <;> decide
  · exact hd x
  · rcases hp with ⟨rfl, -⟩ | ⟨rfl, -⟩ <;> simp at hb; subst hb; decide
  · exact hd x

/-- The bytes of a DCS text are ASCII (R226). -/
theorem DcsText.ascii {str : List Byte} {d2 d1 d0 : BitVec 3} {inv : BitVec 1} (h : DcsText str d2 d1 d0 inv) : ∀ b ∈ str, b.toNat < 128 := by
  have hd : ∀ x : BitVec 3, (digitByte x.toNat).toNat < 128 := by decide
  have hi : ∀ i : BitVec 1, (if i = 1 then 0x49 else 0x4E : Byte).toNat < 128 := by decide
  unfold DcsText at h
  subst h
  intro b hb
  simp only [List.mem_cons, List.not_mem_nil, or_false] at hb
  rcases hb with rfl | rfl | rfl | rfl | rfl
  · decide
  · exact hd d2
  · exact hd d1
  · exact hd d0
  · exact hi inv

/-- The letters of a text are those of its ASCII bytes (R199, R227). -/
theorem groupWordOf_ascii (pol : Config.GroupPPolicy) (str : List Byte) :
    groupWordOf pol (str.filter (fun b => decide (b.toNat < 128))) = groupWordOf pol str := by
  have hl : ∀ b : Byte, ¬ b.toNat < 128 → letterValue pol b = none := by
    intro b hb
    refine if_neg ?_
    rintro (h | ⟨rfl, -⟩)
    · omega
    · exact hb (by decide)
  unfold groupWordOf
  congr 1
  induction str with
  | nil => rfl
  | cons b str ih =>
    rw [List.filter_cons]
    split
    · rw [List.filterMap_cons, List.filterMap_cons, ih]
    · rename_i hb
      rw [List.filterMap_cons, hl b (by simpa using hb), ih]

end Sys2Proof.Machine
end

