-- ==== Sys2Proof/Tests/Slice0.lean ====
section
/-! SUPPORT. Tests/Slice0.lean: the model's own tests. Expected results come from the spec's rules, encodings and vectors (30, 40-44, 95), not
from the model. After them, for every obligation with hypotheses, a concrete case that meets them (names `hyp_<obligation>`). -/

namespace Sys2Proof.Tests

set_option Elab.async false

open Sys2Proof Sys2Proof.Machine

/-! ### Small states -/

/-- After reset, with every byte of BUF 0xEE (95 section 2) and the policies fixed. -/
def s0 : State :=
  { State.reset with buf := (List.range 224).map (fun a => (a, (0xEE : Byte))), params := { groupP := .skip, bpReadAck := .cont } }

/-- `s0` under the policy `Overflow`. -/
def sOver : State := { s0 with params := { groupP := .overflow, bpReadAck := .cont } }

/-- A round with base `b` after the header and `n` payload bytes 0xEE. -/
def sColl (b : Byte) (n : Nat) : State :=
  { s0 with phase := .collecting, count := BitVec.ofNat 6 n, csum := checksum8Of (List.replicate n 0xEE), base := b }

/-- `s0` in another classifier state. -/
def sIn (ph : Phase) : State := { s0 with phase := ph }

/-- A request of the host is next, the classifier in state `ph`. -/
def sReq (ph : Phase) (r : HostReq) : State := { sIn ph with reqs := [r] }

/-- The canonical records: 20 times BP_DEFAULT (R131), 198 times CH_INACTIVE (R161). -/
def recs : Records := { bp := List.replicate 20 bpDefault, ch := List.replicate 198 chInactive }

/-- A transaction stands at `p` with the canonical records, the classifier in state `ph`. -/
def sTxn (ph : Phase) (p : Pos) : State := { sIn ph with session := { Session.fresh with pos := p, records := recs } }

/-- What an instruction gives back in `s`, or nothing where it stops. -/
def given (i : Instr) (s : State) : Option Ret :=
  match exec i s with
  | .next t => some t.ret
  | .fault _ => none
  | .refused _ => none

theorem s0_bufWf : Memory.wf s0.buf = true := by decide +kernel

theorem recs_ok : recs.ok = true := by decide +kernel

/-- The invariant holds in `s0` and wherever only the classifier state (not Collecting) differs. -/
theorem inv_sIn (ph : Phase) (h : ph ≠ .collecting) : Inv (sIn ph) :=
  ⟨s0_bufWf, by show (0 : BitVec 6).toNat ≤ 32; decide, by show (0 : Byte).toNat + 32 ≤ 224; decide, fun hc => absurd hc h,
    fun e => absurd rfl e, fun _ => rfl, nofun, nofun⟩

theorem inv_s0 : Inv s0 := inv_sIn .idle (by decide)

/-- The invariant holds wherever an operation runs with the canonical records. -/
theorem inv_sTxn (ph : Phase) (p : Pos) (h : ph ≠ .collecting) (hp : p ≠ .idle) : Inv (sTxn ph p) :=
  (inv_sIn ph h).congr_block rfl (fun _ => recs_ok) (fun e => absurd e hp) nofun nofun

theorem inv_sReq (ph : Phase) (r : HostReq) (h : ph ≠ .collecting) : Inv (sReq ph r) := Inv.congr (inv_sIn ph h) rfl rfl rfl

/-- The invariant holds one byte before the last payload byte of the highest admitted base. -/
theorem inv_sColl : Inv (sColl 192 31) :=
  ⟨s0_bufWf, by decide, by decide, fun _ => ⟨List.replicate 31 0xEE, by decide +kernel, rfl⟩,
    fun e => absurd rfl e, fun _ => rfl, nofun, nofun⟩

/-! ### Well-formedness: a term that each check admits and one that it refuses -/

theorem test_wf_noise : Instr.wf (.noise 0x49) = true ∧ Instr.wf (.noise 0x30) = false := by decide
theorem test_wf_cmdWrite : Instr.wf (.cmdWrite 2 (List.replicate 32 0)) = true ∧ Instr.wf (.cmdWrite 2 (List.replicate 31 0)) = false := by decide
theorem test_wf_image : Instr.wf (.bpMagicOk (.buf 0)) = true ∧ Instr.wf (.bpMagicOk (.buf 1)) = false ∧
    Instr.wf (.bpDecode (.lit [0x6D, 0xA4])) = false := by decide
theorem test_wf_entryIndex : Instr.wf (.bpEntryDecode (.buf 0) 20) = true ∧ Instr.wf (.bpEntryDecode (.buf 0) 0) = false ∧
    Instr.wf (.bpEntryEncode (.buf 0) 21 bpDefault) = false := by decide
theorem test_wf_blockIndex : Instr.wf (.bpBlock (.buf 0) 6) = true ∧ Instr.wf (.bpBlock (.buf 0) 7) = false := by decide
theorem test_wf_plan : Instr.wf (.bpEncode (List.replicate 20 bpDefault)) = true ∧
    Instr.wf (.bpEncode (List.replicate 19 bpDefault)) = false := by decide
theorem test_wf_block : Instr.wf (.chDecode (.buf 191)) = true ∧ Instr.wf (.chDecode (.buf 192)) = false ∧
    Instr.wf (.chNameUnpack (.lit [])) = false ∧ Instr.wf (.chNamePack (.buf 192) []) = false := by decide
theorem test_wf_checksum8 : Instr.wf (.checksum8 (.buf 192)) = true ∧ Instr.wf (.checksum8 (.buf 193)) = false := by decide
theorem test_wf_toneCompose : Instr.wf (.toneCompose (.ctcss 3000)) = true ∧ Instr.wf (.toneCompose (.ctcss 3001)) = false := by decide
theorem test_wf_groupPack : Instr.wf (.groupPack [1, 16]) = true ∧ Instr.wf (.groupPack [0]) = false ∧
    Instr.wf (.groupPack [17]) = false := by decide
theorem test_wf_ctcssText : Instr.wf (.ctcssText 3000) = true ∧ Instr.wf (.ctcssText 0) = false ∧
    Instr.wf (.ctcssText 3001) = false := by decide

/-! ### Decoding: bytes written out from the spec's encodings -/

/-- R61: `00110000`, `00110001`, `01000101`, `01000110` in Idle, and 0x49, 0x00, 0xFF as noise. -/
theorem test_decode_idle :
    decode (.rx .idle 0) [0x30] = .ok .hdr [] ∧ decode (.rx .idle 0) [0x31] = .ok .ack1 [] ∧
    decode (.rx .idle 0) [0x45] = .ok .ackE [] ∧ decode (.rx .idle 0) [0x46] = .ok .ackF [] ∧
    decode (.rx .idle 0) [0x49] = .ok (.noise 0x49) [] ∧ decode (.rx .idle 0) [0x00] = .ok (.noise 0x00) [] ∧
    decode (.rx .idle 0) [0xFF] = .ok (.noise 0xFF) [] := by decide

/-- R62: COUNT alone decides in Collecting: 0..31 payload, 32 the checksum. R105: held in every terminal state. -/
theorem test_decode_collecting :
    decode (.rx .collecting 0) [0x30] = .ok (.data 0x30) [] ∧ decode (.rx .collecting 31) [0x46] = .ok (.data 0x46) [] ∧
    decode (.rx .collecting 32) [0x45] = .ok (.chk 0x45) [] ∧ decode (.rx .checksumOk 32) [0x30] = .ok (.terminalHold 0x30) [] ∧
    decode (.rx .checksumBad 32) [0x00] = .ok (.terminalHold 0x00) [] ∧
    decode (.rx .acknowledged 0) [0x31] = .ok (.terminalHold 0x31) [] ∧
    decode (.rx .incomplete 7) [0x46] = .ok (.terminalHold 0x46) [] := by decide

/-- R104, R106, R108: the controls. -/
theorem test_decode_controls :
    decode .eos [] = .ok .eos [] ∧ decode .start [0xC0] = .ok (.start 0xC0) [] ∧
    decode (.reset .powerUp) [] = .ok (.reset .powerUp) [] ∧ decode (.reset .warm) [] = .ok (.reset .warm) [] := by decide

/-- R66: E 45, F 46, I 49, READ 30 idx; 0x32 begins no command; a READ without its index is short. -/
theorem test_decode_commands :
    decode .tx [0x45] = .ok .cmdE [] ∧ decode .tx [0x46] = .ok .cmdF [] ∧ decode .tx [0x49] = .ok .cmdI [] ∧
    decode .tx [0x30, 0xD0] = .ok (.cmdRead 208) [] ∧ decode .tx [0x32] = .bad (.notACommand 0x32) ∧
    decode .tx [0x30] = .bad .shortFrame := by decide

/-- R66: WRITE 31 idx p[0..31] c: block 6 of the image of 95 BP-4, checksum 24; another checksum is no WRITE frame. -/
theorem test_decode_write :
    decode .tx ([0x31, 0xD6] ++ (List.replicate 9 0 ++ [0x24] ++ List.replicate 22 0) ++ [0x24]) =
      .ok (.cmdWrite 214 (List.replicate 9 0 ++ [0x24] ++ List.replicate 22 0)) [] ∧
    decode .tx ([0x31, 0xD6] ++ (List.replicate 9 0 ++ [0x24] ++ List.replicate 22 0) ++ [0x25]) = .bad .badChecksum := by decide

/-- R71: `BBBMMMWT` 0xE6 = 111 001 1 0 and 0xBD = 101 111 0 1. -/
theorem test_decode_flags :
    decode (.call .bpFlagsPack) [0xE6] = .ok (.bpFlagsPack 0 1 1 7) [] ∧
    decode (.call .bpFlagsPack) [0xBD] = .ok (.bpFlagsPack 1 0 7 5) [] ∧
    decode (.call .bpFlagsUnpack) [0xE6] = .ok (.bpFlagsUnpack 0xE6) [] := by decide

/-- R70: the ten bytes of 95 S-1 as an operand, with a snapshot of BUF and the entry number before them (log 10). -/
theorem test_decode_entry :
    decode (.call .bpEntryEncode) [0x01, 0x00, 0x01, 0x40, 0x92, 0xD2, 0x00, 0xC0, 0x80, 0x09, 0x01, 0xFF, 0x27] =
      .ok (.bpEntryEncode (.buf 0) 1
        { startWord := 13800000, endWord := 17400000, maxPower := 255, tx := 1, wrap := 1, mod := 1, bw := 1 }) [] := by decide

/-- R131, R132: twenty times `00 00 00 00 00 00 00 00 00 24` are twenty default entries (log 10). -/
theorem test_decode_plan :
    decode (.call .bpEncode) ((List.replicate 20 [0, 0, 0, 0, 0, 0, 0, 0, 0, 0x24]).flatten) =
      .ok (.bpEncode (List.replicate 20 bpDefault)) [] := by decide

/-- The other band-plan calls: a snapshot at offset 0, and the number after it (log 10); words little-endian (R43). -/
theorem test_decode_bandplan :
    decode (.call .bpMagicOk) [1, 0] = .ok (.bpMagicOk (.buf 0)) [] ∧
    decode (.call .bpEntryValid) [0x40, 0x77, 0x1B, 0x00, 0x80, 0xA4, 0xBF, 0x07] = .ok (.bpEntryValid 1800000 130000000) [] ∧
    decode (.call .bpEntryDecode) [1, 0, 20] = .ok (.bpEntryDecode (.buf 0) 20) [] ∧
    decode (.call .bpDecode) [1, 0] = .ok (.bpDecode (.buf 0)) [] ∧
    decode (.call .bpBlock) [1, 0, 6] = .ok (.bpBlock (.buf 0) 6) [] ∧ decode (.call .bpDecode) [2, 0] = .bad .badField := by decide

/-- R75: `0000MMMB` 0x07 = 011 1; bits 7:4 are 0 in the packing row and ignored in the unpacking row. -/
theorem test_decode_mode :
    decode (.call .chModePack) [0x07] = .ok (.chModePack 1 3) [] ∧ decode (.call .chModePack) [0x17] = .bad .badField ∧
    decode (.call .chModeUnpack) [0xF2] = .ok (.chModeUnpack 0xF2) [] := by decide

/-- R74: the fields of 95 CH-1 in their order (log 10), and the block operands. -/
theorem test_decode_channel :
    decode (.call .chEncode) [0x31, 0x8D, 0xA8, 0x02, 0x31, 0x8D, 0xA8, 0x02, 0x75, 0x03, 0x00, 0x00, 0x33, 0x21, 0x00, 0x02,
        0x54, 0x65, 0x73, 0x74, 0x43, 0x48] =
      .ok (.chEncode
        { rxWord := 44600625, txWord := 44600625, rxTone := 885, txTone := 0, txPower := 51, groups := 0x21, bw := 0, mod := 1,
          name := [0x54, 0x65, 0x73, 0x74, 0x43, 0x48] }) [] ∧
    decode (.call .chDecode) [1, 0] = .ok (.chDecode (.buf 0)) [] ∧
    decode (.call .chNamePack) [1, 0, 0x41, 0x42] = .ok (.chNamePack (.buf 0) [0x41, 0x42]) [] ∧
    decode (.call .chNameUnpack) [1, 0] = .ok (.chNameUnpack (.buf 0)) [] := by decide

/-- R190, R191: 885 is `75 03`, 44600625 is `31 8D A8 02`. -/
theorem test_decode_words :
    decode (.call .le16Pack) [0x75, 0x03] = .ok (.le16PackUnpack (.pack 885)) [] ∧
    decode (.call .le16Unpack) [0x75, 0x03] = .ok (.le16PackUnpack (.unpack 0x75 0x03)) [] ∧
    decode (.call .le32Pack) [0x31, 0x8D, 0xA8, 0x02] = .ok (.le32PackUnpack (.pack 44600625)) [] ∧
    decode (.call .le32Unpack) [0x31, 0x8D, 0xA8, 0x02] = .ok (.le32PackUnpack (.unpack 0x31 0x8D 0xA8 0x02)) [] ∧
    decode (.call .checksum8) [1, 0xC0] = .ok (.checksum8 (.buf 192)) [] := by decide

/-- R76, R196: `1P00000CCCCCCCCC` 0xC013 is code 19 inverted; 0xA013 has bit 13 set; the code 19 alone, and its digits 0 2 3. -/
theorem test_decode_tones :
    decode (.call .toneClassify) [0x13, 0xC0] = .ok (.toneClassify 0xC013) [] ∧
    decode (.call .toneCompose) [2, 0x13, 0xC0] = .ok (.toneCompose (.dcs 19 1)) [] ∧
    decode (.call .toneCompose) [2, 0x13, 0xA0] = .bad .badField ∧
    decode (.call .toneCompose) [1, 0x75, 0x03] = .ok (.toneCompose (.ctcss 885)) [] ∧
    decode (.call .toneCompose) [0] = .ok (.toneCompose .off) [] ∧
    decode (.call .dcsDigits) [0x13, 0x00] = .ok (.dcsDigits (.digits 19)) [] ∧
    decode (.call .dcsDigits) [0x00, 0x02] = .bad .badField ∧
    decode (.call .dcsCode) [0, 2, 3] = .ok (.dcsDigits (.code 0 2 3)) [] := by decide

/-- R78: `DDDDCCCCBBBBAAAA` 0x4321; the values of GROUP_PACK a byte each (log 10). -/
theorem test_decode_groups :
    decode (.call .groupUnpack) [0x21, 0x43] = .ok (.groupUnpack 0x4321) [] ∧
    decode (.call .groupPack) [1, 2, 16] = .ok (.groupPack [1, 2, 16]) [] := by decide

/-- 44: words little-endian, strings as ASCII, an exact decimal as its text (log 10, 25). -/
theorem test_decode_text :
    decode (.call .freqFromMhz) [0x31, 0x33, 0x38, 0x2E, 0x35] = .ok (.freqFromMhz { int := [1, 3, 8], frac := [5] }) [] ∧
    decode (.call .freqFromMhz) [0x31, 0x33, 0x38] = .bad .shortFrame ∧
    decode (.call .freqToMhz) [0x31, 0x8D, 0xA8, 0x02] = .ok (.freqToMhz 44600625) [] ∧
    decode (.call .toneToString) [0x13, 0x80] = .ok (.toneToString 0x8013) [] ∧
    decode (.call .ctcssText) [0x75, 0x03] = .ok (.ctcssText 885) [] ∧
    decode (.call .stringToTone) [0x38, 0x38] = .ok (.stringToTone [0x38, 0x38]) [] ∧
    decode (.call .stringToGroup) [0x41] = .ok (.stringToGroup [0x41]) [] ∧
    decode (.call .groupToString) [0x21, 0x00] = .ok (.groupToString 0x21) [] := by decide

/-- The host's table words: HDR, I, READ 0xD0, a DCS tone word, a u32 (log 11). -/
theorem test_tableWords :
    decodeTableWord 8 0x30 = some .hdr ∧ decodeTableWord 8 0x49 = some .cmdI ∧ decodeTableWord 16 0xD030 = some (.cmdRead 208) ∧
    decodeTableWord 16 0xC013 = some (.toneClassify 0xC013) ∧
    decodeTableWord 32 0x02A88D31 = some (.le32PackUnpack (.pack 44600625)) := by decide

/-- The step after placing the table word HDR collects. -/
theorem test_withFetchWord : step (s0.withFetchWord 8 0x30) = .next s0.enterCollecting := rfl

/-! ### Steps, from the vectors of 95 and the examples of the rules -/

/-- 40 R102's example: BASE 0x40, COUNT 5, CSUM 0x10, byte 0xF5. -/
theorem test_data : ∃ t, exec (.data 0xF5) { sColl 0x40 5 with csum := 0x10 } = .next t ∧
    Memory.read t.buf 0x45 = some 0xF5 ∧ Memory.read t.buf 0x46 = some 0xEE ∧ t.csum = 0x05 ∧ t.count = 6 :=
  ⟨_, rfl, by decide +kernel, by decide +kernel, by decide, by decide⟩
/-- 40 R102: at COUNT 31 the step stores the last byte and COUNT becomes 32. -/
theorem test_data_last : exec (.data 0x30) (sColl 192 31) = .next ((sColl 192 31).storePayload 0x30) := rfl
/-- 40 R109's example: CSUM 0x34: 0x34 is good, 0x35 is bad. -/
theorem test_chk : exec (.chk 0x34) { sColl 0 32 with csum := 0x34 } = .next { sColl 0 32 with csum := 0x34, phase := .checksumOk } ∧
    exec (.chk 0x35) { sColl 0 32 with csum := 0x34 } = .next { sColl 0 32 with csum := 0x34, phase := .checksumBad } := ⟨rfl, rfl⟩
/-- 40 R100: the header. -/
theorem test_hdr : exec .hdr s0 = .next { s0 with phase := .collecting } := rfl
/-- 95 CL-1, CL-2: acknowledgements. -/
theorem test_ack : exec .ack1 s0 = .next (sIn .acknowledged) ∧ exec .ackE s0 = .next (sIn .acknowledged) ∧
    exec .ackF s0 = .next (sIn .acknowledged) := ⟨rfl, rfl, rfl⟩
/-- 40 R103: 0x49 is noise. -/
theorem test_noise : exec (.noise 0x49) s0 = .next s0 := rfl
/-- 40 R104's example, and CL-16. -/
theorem test_eos : exec .eos (sColl 0x40 12) = .next { sColl 0x40 12 with phase := .incomplete } ∧
    exec .eos (sIn .acknowledged) = .next (sIn .acknowledged) := ⟨rfl, rfl⟩
/-- 40 R105's example: the byte 0x30 stays. -/
theorem test_terminalHold : step { sIn .acknowledged with rx := [0x30] } = .next { sIn .acknowledged with rx := [0x30] } := rfl
/-- 40 R106's example, and CL-15. -/
theorem test_start : exec (.start 0x60) (sIn .checksumBad) = .next { s0 with base := 0x60 } ∧
    exec (.start 0xC1) s0 = .refused (.startBase 0xC1) := ⟨rfl, rfl⟩
/-- 70 R280: a warm reset in Collecting keeps BUF. -/
theorem test_reset : exec (.reset .warm) (sColl 0x40 12) = .next s0 := rfl
/-- 30 R66: what each command sends; in Idle a round runs already, so it is the command's (60 R263). -/
theorem test_commands : exec .cmdE s0 = .next { s0 with tx := [0x45], await := some .acknowledged, begun := true } ∧
    exec .cmdF s0 = .next { s0 with tx := [0x46], begun := true } ∧ exec .cmdI s0 = .next { s0 with tx := [0x49], begun := true } ∧
    exec (.cmdRead 0xD0) s0 = .next { s0 with tx := [0x30, 0xD0], await := some .checksumOk, begun := true } := ⟨rfl, rfl, rfl, rfl⟩
/-- 60 R251 (2b): E sent after a round that ended Incomplete is no missing acknowledgement; it is once its own round, START and EOS, ended so. -/
theorem test_missingAck : ∃ t u v, exec .cmdE (sIn .incomplete) = .next t ∧ t.missingAck = false ∧
    step { t with startReq := some 0, closed := true } = .next u ∧ u.missingAck = false ∧ step u = .next v ∧ v.missingAck = true :=
  ⟨_, _, _, rfl, rfl, rfl, rfl, rfl, rfl⟩
/-- 95 P3: the WRITE frame of CH-3 ends with C0. -/
theorem test_write : ∃ t, exec (.cmdWrite 6 [0x60, 0x92, 0xDF, 0, 0x60, 0x92, 0xDF, 0, 0x13, 0x80, 0x13, 0xC0, 0xFF, 0x21, 0x43, 7, 0, 0, 0, 0,
      0x41, 0x42, 0x43, 0x44, 0x45, 0x46, 0x47, 0x48, 0x49, 0x4A, 0x4B, 0x4C]) s0 = .next t ∧
    t.tx.length = 35 ∧ t.tx.getLast? = some 0xC0 := ⟨_, rfl, by decide, by decide⟩
/-- 95 BP-1, BP-2. -/
theorem test_flags : given (.bpFlagsPack 1 0 7 5) s0 = some (.byte 0xBD) ∧
    given (.bpFlagsUnpack 0xE6) s0 = some (.flags { tx := 0, wrap := 1, mod := 1, bw := 7 }) := by decide +kernel
/-- 95 BP-3: the bytes 2..11 of entry 1, the rest of the image kept. -/
theorem test_entryEncode : given (.bpEntryEncode (.lit (List.replicate 224 0xAA)) 1
      { startWord := 13800000, endWord := 17400000, maxPower := 255, tx := 1, wrap := 1, mod := 1, bw := 1 }) s0 =
    some (.bytes ([0xAA, 0xAA, 0x40, 0x92, 0xD2, 0x00, 0xC0, 0x80, 0x09, 0x01, 0xFF, 0x27] ++ List.replicate 212 0xAA)) := by decide +kernel
/-- 41 R135's example: 20 defaults. -/
theorem test_encode : given (.bpEncode (List.replicate 20 bpDefault)) s0 =
    some (.bytes ([0x6D, 0xA4] ++ (List.replicate 20 [0, 0, 0, 0, 0, 0, 0, 0, 0, 0x24]).flatten ++ List.replicate 22 0)) := by decide +kernel
/-- 41 R136's examples. -/
theorem test_magicOk : given (.bpMagicOk (.lit (0x6D :: 0xA4 :: List.replicate 222 0))) s0 = some (.bit true) ∧
    given (.bpMagicOk (.lit (0xA4 :: 0x6D :: List.replicate 222 0))) s0 = some (.bit false) := by decide +kernel
/-- 95 BP-12; and a word with bit 31 set is over the range (R137). -/
theorem test_entryValid : given (.bpEntryValid 129999999 130000000) s0 = some (.bit true) ∧
    given (.bpEntryValid 130000000 130000000) s0 = some (.bit false) ∧
    given (.bpEntryValid 1800000 0x80000000) s0 = some (.bit false) := by decide +kernel
/-- 95 BP-9: bit 31 of the stored start word is masked. -/
theorem test_entryDecode : given (.bpEntryDecode (.lit ([0x6D, 0xA4, 0x40, 0x92, 0xD2, 0x80, 0xC0, 0x80, 0x09, 0x01, 0xFF, 0x27] ++
      List.replicate 212 0)) 1) s0 =
    some (.entry { startWord := 13800000, endWord := 17400000, maxPower := 255, tx := 1, wrap := 1, mod := 1, bw := 1 }) := by
  decide +kernel
/-- 95 BP-10: a snapshot of a BUF without the magic. -/
theorem test_decodePlan : given (.bpDecode (.buf 0)) s0 = some (.plan (List.replicate 20 bpDefault)) := by decide +kernel
/-- 95 BP-7: block 0 of 20 defaults has checksum 7D. -/
theorem test_block : given (.bpBlock (.lit ([0x6D, 0xA4] ++ (List.replicate 20 [0, 0, 0, 0, 0, 0, 0, 0, 0, 0x24]).flatten ++
      List.replicate 22 0)) 0) s0 =
    some (.block ([0x6D, 0xA4] ++ (List.replicate 3 [0, 0, 0, 0, 0, 0, 0, 0, 0, 0x24]).flatten) 0x7D) := by decide +kernel
/-- 95 CH-6, and 42 R163 corner (2). -/
theorem test_mode : given (.chModePack 1 7) s0 = some (.byte 0x0F) ∧
    given (.chModeUnpack 0xF2) s0 = some (.mode { bw := 0, mod := 1 }) := by decide +kernel
/-- 95 CH-7: a name of 14 bytes is cut to 12, and byte 32 stays. -/
theorem test_namePack : given (.chNamePack (.lit (List.replicate 33 0xAA))
      [0x41, 0x42, 0x43, 0x44, 0x45, 0x46, 0x47, 0x48, 0x49, 0x4A, 0x4B, 0x4C, 0x4D, 0x4E]) s0 =
    some (.bytes (List.replicate 20 0xAA ++ [0x41, 0x42, 0x43, 0x44, 0x45, 0x46, 0x47, 0x48, 0x49, 0x4A, 0x4B, 0x4C, 0xAA])) := by
  decide +kernel
/-- 42 R165's example: `41 42 00 43` gives AB. -/
theorem test_nameUnpack : given (.chNameUnpack (.lit (List.replicate 20 1 ++ [0x41, 0x42, 0, 0x43] ++ List.replicate 9 1))) s0 =
    some (.bytes [0x41, 0x42]) := by decide +kernel
/-- 95 CH-1. -/
theorem test_chEncode : given (.chEncode
      { rxWord := 44600625, txWord := 44600625, rxTone := 885, txTone := 0, txPower := 51, groups := 0x21, bw := 0, mod := 1,
        name := [0x54, 0x65, 0x73, 0x74, 0x43, 0x48] }) s0 =
    some (.bytes [0x31, 0x8D, 0xA8, 0x02, 0x31, 0x8D, 0xA8, 0x02, 0x75, 0x03, 0, 0, 0x33, 0x21, 0, 0x02, 0, 0, 0, 0,
      0x54, 0x65, 0x73, 0x74, 0x43, 0x48, 0, 0, 0, 0, 0, 0, 0xC9]) := by decide +kernel
/-- 95 CH-4: mode bits 7:4 and bytes 16..19 ignored, the name ends at the first zero, byte 32 not checked. -/
theorem test_chDecode : given (.chDecode (.lit [0x60, 0x92, 0xDF, 0, 0x60, 0x92, 0xDF, 0, 0x13, 0x80, 0x13, 0xC0, 0xFF, 0x21, 0x43, 0xFF,
      0x55, 0, 0, 0, 0x41, 0x42, 0x43, 0, 0x45, 0x46, 0x47, 0x48, 0x49, 0x4A, 0x4B, 0x4C, 0xC0])) s0 =
    some (.record
      { rxWord := 14652000, txWord := 14652000, rxTone := 0x8013, txTone := 0xC013, txPower := 255, groups := 0x4321, bw := 1, mod := 7,
        name := [0x41, 0x42, 0x43] }) := by decide +kernel
/-- 95 LE-1, LE-2, both ways. -/
theorem test_le : given (.le16PackUnpack (.pack 885)) s0 = some (.bytes [0x75, 0x03]) ∧
    given (.le16PackUnpack (.unpack 0x75 0x03)) s0 = some (.half 885) ∧
    given (.le32PackUnpack (.pack 44600625)) s0 = some (.bytes [0x31, 0x8D, 0xA8, 0x02]) ∧
    given (.le32PackUnpack (.unpack 0x31 0x8D 0xA8 0x02)) s0 = some (.word 44600625) := by decide +kernel
/-- 95 CK-1, CK-2. -/
theorem test_checksum8 : given (.checksum8 (.lit (0x6D :: 0xA4 :: List.replicate 30 0))) s0 = some (.byte 0x11) ∧
    given (.checksum8 (.lit (List.replicate 32 0xFF))) s0 = some (.byte 0xE0) := by decide +kernel
/-- 95 TN-10, TN-13. -/
theorem test_toneClassify : given (.toneClassify 0xC013) s0 = some (.tone (.dcs 19 1)) ∧
    given (.toneClassify 0x8200) s0 = some (.tone .off) := by decide +kernel
/-- 43 R195's example, and its largest CTCSS word. -/
theorem test_toneCompose : given (.toneCompose (.dcs 19 1)) s0 = some (.half 0xC013) ∧
    given (.toneCompose (.ctcss 3000)) s0 = some (.half 3000) := by decide +kernel
/-- 43 R196's example, both ways. -/
theorem test_dcsDigits : given (.dcsDigits (.digits 19)) s0 = some (.digits 0 2 3) ∧
    given (.dcsDigits (.code 0 2 3)) s0 = some (.code 19) := by decide +kernel
/-- 95 GR-7, GR-8. -/
theorem test_groups : given (.groupUnpack 0x0301) s0 = some (.bytes [1, 3]) ∧ given (.groupPack [1, 3]) s0 = some (.half 0x0031) := by
  decide +kernel
/-- 95 GR-5: the value 16 under `Overflow`; under `Skip` R198 names no result for it, and the word given back is free (log 29). -/
theorem test_groupPack_overflow : given (.groupPack [1, 16]) sOver = some (.half 0x0101) ∧
    given (.groupPack [1, 16]) s0 = some (.half (Config.groupWord .skip [1, 16])) := ⟨by decide +kernel, rfl⟩
/-- Calls on values that R223, R195 and R140 do not name, as the host makes them: each call completes (log 29). -/
theorem test_unstated_calls : (∃ text, step (sReq .idle (.call .ctcssText [0, 0])) = .next { s0 with ret := .bytes text }) ∧
    (∃ w, step (sReq .idle (.call .toneCompose [1, 0xB9, 0x0B])) = .next { s0 with ret := .half w }) ∧
    decode (.call .bpBlock) [1, 0, 7] = .ok (.bpBlock (.buf 0) 7) [] ∧ ∃ t, exec (.bpBlock (.buf 0) 7) s0 = .next t :=
  ⟨⟨_, rfl⟩, ⟨_, rfl⟩, by decide, by
    obtain ⟨bs, h⟩ := arrBytes_isSome (n := Config.bpImageLen) (a := .buf 0) s0_bufWf (by decide)
    simp only [exec, execBpBlock]
    exact ⟨_, answerArr_next h⟩⟩
/-- 95 FQ-1: 446.00625, and 0.000005 rounds up. -/
theorem test_freqFromMhz : given (.freqFromMhz { int := [4, 4, 6], frac := [0, 0, 6, 2, 5] }) s0 = some (.word 44600625) ∧
    given (.freqFromMhz { int := [0], frac := [0, 0, 0, 0, 0, 5] }) s0 = some (.word 1) := by decide +kernel
/-- 95 FQ-2: "42949.67295". -/
theorem test_freqToMhz : given (.freqToMhz 0xFFFFFFFF) s0 =
    some (.mhz 4294967295 100000 [0x34, 0x32, 0x39, 0x34, 0x39, 0x2E, 0x36, 0x37, 0x32, 0x39, 0x35]) := by decide +kernel
/-- 95 TN-12 "D777I", TN-5 "Off". -/
theorem test_toneToString : given (.toneToString 0xC1FF) s0 = some (.bytes [0x44, 0x37, 0x37, 0x37, 0x49]) ∧
    given (.toneToString 3001) s0 = some (.bytes [0x4F, 0x66, 0x66]) := by decide +kernel
/-- 44 R223: 1 is "0.1", 3000 is "300.0". -/
theorem test_ctcssText : given (.ctcssText 1) s0 = some (.bytes [0x30, 0x2E, 0x31]) ∧
    given (.ctcssText 3000) s0 = some (.bytes [0x33, 0x30, 0x30, 0x2E, 0x30]) := by decide +kernel
/-- 95 TS-4, TS-5: "300.04" is 3000, "300.05" is 0. -/
theorem test_stringToTone : given (.stringToTone [0x33, 0x30, 0x30, 0x2E, 0x30, 0x34]) s0 = some (.half 3000) ∧
    given (.stringToTone [0x33, 0x30, 0x30, 0x2E, 0x30, 0x35]) s0 = some (.half 0) := by decide +kernel
/-- 95 TS-7 "5.", TS-9 "d023n". -/
theorem test_stringToTone_forms : given (.stringToTone [0x35, 0x2E]) s0 = some (.half 0x32) ∧
    given (.stringToTone [0x64, 0x30, 0x32, 0x33, 0x6E]) s0 = some (.half 0) := by decide +kernel
/-- 95 GR-2 "ABCDE", GR-4 and GR-5 "P". -/
theorem test_stringToGroup : given (.stringToGroup [0x41, 0x42, 0x43, 0x44, 0x45]) s0 = some (.half 0x4321) ∧
    given (.stringToGroup [0x50]) s0 = some (.half 0) ∧ given (.stringToGroup [0x50]) sOver = some (.half 0x10) := by decide +kernel
/-- 95 GR-6, GR-7: 0x4321 is "ABCD", 0x0301 is "AC". -/
theorem test_groupToString : given (.groupToString 0x4321) s0 = some (.bytes [0x41, 0x42, 0x43, 0x44]) ∧
    given (.groupToString 0x0301) s0 = some (.bytes [0x41, 0x43]) := by decide +kernel
/-- 10 R26: STATE 1, COUNT 12, CSUM 0xF8, BASE 0x40 as one word (95 CL-5's registers). -/
theorem test_status : ({ sColl 0x40 12 with csum := 0xF8 } : State).status = 0x40F80C01 := by decide
/-- 70 R285: the transport closed and opened again: the hung round gets EOS in between. -/
theorem test_closeThenOpen : runSteps 3 { s0 with reqs := [.closePort, .openPort] } = .next (sIn .incomplete) := rfl
/-- 70 R290, 93 I18 and I19: a BUF write while DONE = 0 and a STATUS write are refused. -/
theorem test_hostRefusals : step (sReq .idle (.writeBuf 0 [1])) = .refused .bufWriteInRound ∧
    step (sReq .acknowledged (.writeStatus 0)) = .refused .statusReadOnly := ⟨rfl, rfl⟩
/-- 60 R255: with a reset, a START, a byte and the end of the stream all offered, the reset goes first. -/
theorem test_priority :
    step { s0 with resetReq := some .warm, startReq := some 0x20, rx := [0x45], closed := true } =
      .next { s0 with startReq := some 0x20, rx := [0x45], closed := true, begun := true } := rfl
/-- 70 R288, 92 D45: before a reset that follows a terminal state the leftover byte stays or goes, as the draw says; in a round it stays. -/
theorem test_resetLeftovers :
    step { sIn .acknowledged with resetReq := some .warm, rx := [0x45] } =
      .next { s0 with rx := if Config.dropLeftover 1 then [] else [0x45], draws := 2, begun := true } ∧
    step { sColl 0x40 12 with resetReq := some .warm, rx := [0x45] } = .next { s0 with rx := [0x45], begun := true } := ⟨rfl, rfl⟩
/-- 60 R273, 93 I20: a device that never stops sending: its next byte is sorted as any other, after those in hand. -/
theorem test_endless : step { sColl 0 12 with more := some 3 } = .next ({ sColl 0 12 with more := some 4 }.storePayload (Config.deviceByte 3)) ∧
    step { s0 with rx := [0x30], more := some 3 } = .next { s0.enterCollecting with more := some 3 } := ⟨rfl, rfl⟩
/-- 10 R32, 70 R281: the session a new operation gets holds the trigger's records, not those an earlier one left. -/
theorem test_sessionCreated :
    let earlier : Records := { bp := recs.bp, ch := List.replicate 198 { chInactive with rxWord := 7 } }
    let order : Order := { txn := .chWrite, records := recs }
    ∃ t, step { s0 with session := { Session.fresh with want := some order }, handed := some earlier } = .next t ∧
    t.session = { Session.fresh with pos := .hello .chWrite, records := recs } := ⟨_, rfl, rfl⟩
/-- 10 R32, 70 R281: when a channel write completes with I, its session is gone and its records are handed back. -/
theorem test_sessionDiscarded : ∃ t, step (sTxn .acknowledged (.goodbye .chWrite true)) = .next t ∧ t.tx = [0x49] ∧
    t.session = Session.fresh ∧ t.handed = some recs := ⟨_, rfl, rfl, rfl, rfl⟩
/-- 91 N5: the next chunk is taken when the one in hand is used up. -/
theorem test_chunks : step { s0 with line := [[], [0x45, 0x30]] } = .next { sIn .acknowledged with rx := [0x30] } := rfl

/-! ### Every obligation with hypotheses: concrete cases that meet them, clause by clause, at the ends of the ranges -/

/-- The image of 95 BP-9 (entry 1 populated) and a block whose rx word is 14652000. -/
def imgOne : List Byte := [0x6D, 0xA4, 0x40, 0x92, 0xD2, 0x80, 0xC0, 0x80, 0x09, 0x01, 0xFF, 0x27] ++ List.replicate 212 0

/-- A channel block with rx = 14652000 and a name of three bytes. -/
def blockOne : List Byte := [0x60, 0x92, 0xDF, 0] ++ List.replicate 16 0 ++ [0x41, 0x42, 0x43] ++ List.replicate 10 0

/-- The name of twelve bytes, the longest (R160). -/
def recTwelve : ChRecord := { chInactive with rxWord := 14652000, name := List.replicate 12 0x41 }

theorem arr_image : (Arr.buf 0).ok 224 = true ∧ arrBytes 224 (.buf 0) s0 = some (List.replicate 224 0xEE) ∧
    (Arr.lit imgOne).ok 224 = true ∧ arrBytes 224 (.lit imgOne) s0 = some imgOne := by decide +kernel
theorem arr_first : (Arr.buf 0).ok 33 = true ∧ arrBytes 33 (.buf 0) s0 = some (List.replicate 33 0xEE) := by decide +kernel
theorem arr_block : (Arr.buf 191).ok 33 = true ∧ arrBytes 33 (.buf 191) s0 = some (List.replicate 33 0xEE) ∧
    (Arr.lit blockOne).ok 33 = true ∧ arrBytes 33 (.lit blockOne) s0 = some blockOne := by decide +kernel

theorem hyp_HeaderCollectsAcknowledgementEnds : s0.phase = .idle := rfl
theorem hyp_IdleBytesFallInOneClass : s0.phase = .idle ∧
    (0x49 : Byte) ≠ 0x30 ∧ (0x49 : Byte) ≠ 0x31 ∧ (0x49 : Byte) ≠ 0x45 ∧ (0x49 : Byte) ≠ 0x46 ∧
    Listening { s0 with rx := [0x49, 0x30] } ∧ ({ s0 with rx := [0x49, 0x30] } : State).rx = 0x49 :: [0x30] :=
  ⟨rfl, by decide, by decide, by decide, by decide, ⟨rfl, rfl, rfl⟩, rfl⟩
theorem hyp_PayloadByteStoredSummedCounted :
    Inv (sColl 192 31) ∧ (sColl 192 31).phase = .collecting ∧ (sColl 192 31).count.toNat < 32 := ⟨inv_sColl, rfl, by decide⟩
theorem hyp_ChecksumByteDecidesOutcome : (sColl 192 32).phase = .collecting ∧ (sColl 192 32).count.toNat = 32 ∧
    (0xC0 : Byte) = (sColl 192 32).csum ∧ (0xC1 : Byte) ≠ (sColl 192 32).csum := ⟨rfl, by decide, by decide, by decide⟩
theorem hyp_EndOfStreamAndTerminalStates :
    s0.phase = .idle ∧ (sColl 0 12).phase = .collecting ∧ (sIn .incomplete).phase ≠ .idle ∧ (sIn .incomplete).phase ≠ .collecting ∧
    (sIn .checksumOk).phase = .checksumOk ∧ (sIn .checksumBad).phase = .checksumBad ∧ (sIn .acknowledged).phase = .acknowledged ∧
    (sIn .incomplete).phase = .incomplete ∧ Listening { sIn .acknowledged with rx := [0x30] } ∧
    ({ sIn .acknowledged with rx := [0x30] } : State).rx = 0x30 :: [] :=
  ⟨rfl, rfl, by decide, by decide, rfl, rfl, rfl, rfl, ⟨rfl, rfl, rfl⟩, rfl⟩
theorem hyp_StartBeginsRoundOrIsRefused : (192 : Byte).toNat ≤ 192 ∧ 192 < (193 : Byte).toNat := by decide
/-- A changed BASE, COUNT, CSUM, BUF and STATE, each with the step that changes it. -/
theorem hyp_RegistersWrittenOnlyByTheirSteps :
    (∃ t, exec (.start 0x20) s0 = .next t ∧ t.base ≠ s0.base) ∧
    (∃ t, exec (.data 0xF5) (sColl 0x40 5) = .next t ∧ t.count ≠ (sColl 0x40 5).count ∧ t.csum ≠ (sColl 0x40 5).csum ∧
      t.buf ≠ (sColl 0x40 5).buf) ∧
    ∃ t, exec .hdr s0 = .next t ∧ t.phase ≠ s0.phase :=
  ⟨⟨_, rfl, by decide⟩, ⟨_, rfl, by decide, by decide, by decide +kernel⟩, ⟨_, rfl, by decide⟩⟩
theorem hyp_TerminalOutcomeKeptUntilStartOrReset :
    (terminal (sIn .acknowledged).phase = true ∧ ∃ t, exec (.start 0) (sIn .acknowledged) = .next t ∧ t.phase ≠ (sIn .acknowledged).phase) ∧
    (terminal (sIn .acknowledged).phase = true ∧ (sIn .acknowledged).resetReq = none ∧ (sIn .acknowledged).startReq = none ∧
      (∀ k, (sIn .acknowledged).session.pos ≠ .helloStart k) ∧ (∀ k n, (sIn .acknowledged).session.pos ≠ .roundStart k n) ∧
      ∃ t, step (sIn .acknowledged) = .next t) :=
  ⟨⟨rfl, _, rfl, by decide⟩, rfl, rfl, rfl, fun k h => Pos.noConfusion h, fun k n h => Pos.noConfusion h, _, rfl⟩
/-- A call without a snapshot in a state with another BUF and another policy; a call on a snapshot and one on letters in states with the same. -/
theorem hyp_CodecCallsAreStateless :
    (let s' : State := { sOver with buf := powerUpBuf 7 }
     codecInstr (.toneClassify 885) = true ∧ (∃ t, exec (.toneClassify 885) s0 = .next t) ∧
      (takesSnapshot (.toneClassify 885) = true → s'.buf = s0.buf) ∧
      (usesLetterP (.toneClassify 885) = true → s'.params.groupP = s0.params.groupP)) ∧
    (codecInstr (.chDecode (.buf 0)) = true ∧ (∃ t, exec (.chDecode (.buf 0)) s0 = .next t) ∧
      (takesSnapshot (.chDecode (.buf 0)) = true → sOver.buf = s0.buf) ∧
      (usesLetterP (.chDecode (.buf 0)) = true → sOver.params.groupP = s0.params.groupP)) ∧
    (let s' : State := { s0 with buf := powerUpBuf 7 }
     codecInstr (.stringToGroup [0x50]) = true ∧ (∃ t, exec (.stringToGroup [0x50]) s0 = .next t) ∧
      (takesSnapshot (.stringToGroup [0x50]) = true → s'.buf = s0.buf) ∧
      (usesLetterP (.stringToGroup [0x50]) = true → s'.params.groupP = s0.params.groupP)) :=
  ⟨⟨rfl, ⟨_, rfl⟩, nofun, nofun⟩, ⟨rfl, ⟨_, answerArr_next (n := 33) (a := .buf 0) (s := s0) (f := fun bs => .record (chDecode bs)) arr_first.2⟩, fun _ => rfl, nofun⟩, rfl, ⟨_, rfl⟩, nofun, fun _ => rfl⟩
/-- The largest m that fits (42949.67295), the last snapshot of a block that fits, the value 16 under `Skip`, block 7, a payload of 32 bytes, and
`300.041`. -/
theorem hyp_CodecCallsComplete : Inv s0 ∧
    (let m : Decimal := { int := [4, 2, 9, 4, 9], frac := [6, 7, 2, 9, 5] }
     codecInstr (.freqFromMhz m) = true ∧ snapshotInside (.freqFromMhz m) = true ∧ freqWordOf m < 2 ^ 32) ∧
    (codecInstr (.chDecode (.buf 191)) = true ∧ snapshotInside (.chDecode (.buf 191)) = true) ∧
    (codecInstr (.groupPack [1, 16]) = true ∧ snapshotInside (.groupPack [1, 16]) = true ∧ s0.params.groupP = .skip) ∧
    (codecInstr (.bpBlock (.buf 0) 7) = true ∧ snapshotInside (.bpBlock (.buf 0) 7) = true ∧
      arrBytes 224 (.buf 0) s0 = some (List.replicate 224 0xEE)) ∧ (List.replicate 32 (0 : Byte)).length = 32 ∧
    (∃ b ∈ [(0x31 : Byte), 0x80], 128 ≤ b.toNat) ∧
    (let d : Decimal := { int := [3, 0, 0], frac := [0, 4, 1] }
     NumberText [0x33, 0x30, 0x30, 0x2E, 0x30, 0x34, 0x31] [] [0x2E] d ∧ DisputedTone [] d) :=
  ⟨inv_s0, by decide +kernel, by decide, ⟨by decide, by decide, rfl⟩, ⟨by decide, by decide, arr_image.2.1⟩, by decide, by decide,
    by unfold NumberText; decide, by unfold DisputedTone; decide⟩
theorem hyp_SnapshotOperandIsWhatBufHolds : Inv s0 ∧ 191 + 33 ≤ 224 ∧ 192 + 32 ≤ 224 := ⟨inv_s0, by decide, by decide⟩
theorem hyp_HostCommandsSendTheirFrames : (List.replicate 32 (0xFF : Byte)).length = 32 ∧
    (commandInstr .cmdE = true ∧ ∃ t, exec .cmdE (sIn .incomplete) = .next t) ∧
    (let s : State := { sIn .incomplete with await := some .acknowledged, begun := true }; s.await = some .acknowledged ∧ s.begun = true) ∧
    (let s : State := { sIn .incomplete with await := some .checksumOk, begun := true }; s.await ≠ some .acknowledged ∨ s.begun = false) ∧
    (let s : State := { sIn .incomplete with await := some .acknowledged, begun := false }; s.await ≠ some .acknowledged ∨ s.begun = false) :=
  ⟨by decide, ⟨rfl, _, rfl⟩, ⟨rfl, rfl⟩, .inl (by decide), .inr rfl⟩
theorem hyp_EntryEncodeWritesTenBytes : (Arr.buf 0).ok 224 = true ∧ arrBytes 224 (.buf 0) s0 = some (List.replicate 224 0xEE) ∧
    1 ≤ 1 ∧ 1 ≤ 20 ∧ 20 ≤ 20 := ⟨arr_image.1, arr_image.2.1, by decide, by decide, by decide⟩
theorem hyp_PlanEncodeLaysOutImage : (List.replicate 20 bpDefault).length = 20 ∧
    (List.replicate 20 bpDefault)[1 - 1]? = some bpDefault ∧ (List.replicate 20 bpDefault)[20 - 1]? = some bpDefault := by decide
/-- A BUF without the magic, and an image with it. -/
theorem hyp_MagicAndValidityTests : ((Arr.buf 0).ok 224 = true ∧ arrBytes 224 (.buf 0) s0 = some (List.replicate 224 0xEE)) ∧
    ((Arr.lit imgOne).ok 224 = true ∧ arrBytes 224 (.lit imgOne) s0 = some imgOne ∧ byteAt imgOne 0 = 0x6D ∧ byteAt imgOne 1 = 0xA4) :=
  ⟨⟨arr_image.1, arr_image.2.1⟩, ⟨arr_image.2.2.1, arr_image.2.2.2, by decide, by decide⟩⟩
/-- Entry 1 of the image is good; entry 20 of it and entry 1 of a BUF without the magic are not. -/
theorem hyp_EntryDecodeAcceptsOrDefaults : ((Arr.lit imgOne).ok 224 = true ∧ arrBytes 224 (.lit imgOne) s0 = some imgOne) ∧
    ((Arr.buf 0).ok 224 = true ∧ arrBytes 224 (.buf 0) s0 = some (List.replicate 224 0xEE)) ∧
    (byteAt imgOne 0 = 0x6D ∧ byteAt imgOne 1 = 0xA4 ∧ 1800000 ≤ (memRead32 imgOne 2 &&& 0x7FFFFFFF).toNat ∧
      (memRead32 imgOne 2 &&& 0x7FFFFFFF).toNat < (memRead32 imgOne 6 &&& 0x7FFFFFFF).toNat ∧
      (memRead32 imgOne 6 &&& 0x7FFFFFFF).toNat ≤ 130000000) ∧
    ¬ 1800000 ≤ (memRead32 imgOne 192 &&& 0x7FFFFFFF).toNat ∧ byteAt (List.replicate 224 0xEE) 0 ≠ 0x6D :=
  ⟨arr_image.2.2, ⟨arr_image.1, arr_image.2.1⟩, by decide +kernel, by decide +kernel, by decide⟩
/-- A BUF without the magic; two images that differ in entry 2 and agree on entries 1 and 20; two that agree below 202. -/
theorem hyp_PlanDecodeIsEntrywise : ((Arr.buf 0).ok 224 = true ∧ arrBytes 224 (.buf 0) s0 = some (List.replicate 224 0xEE)) ∧
    ¬ (byteAt (List.replicate 224 0xEE) 0 = 0x6D ∧ byteAt (List.replicate 224 0xEE) 1 = 0xA4) ∧
    (imgOne.length = 224 ∧ (imgOne.set 12 0xFF).length = 224 ∧ byteAt imgOne 0 = 0x6D ∧ byteAt imgOne 1 = 0xA4 ∧
      byteAt (imgOne.set 12 0xFF) 0 = 0x6D ∧ byteAt (imgOne.set 12 0xFF) 1 = 0xA4 ∧
      (∀ k, k < 10 → byteAt imgOne (2 + (1 - 1) * 10 + k) = byteAt (imgOne.set 12 0xFF) (2 + (1 - 1) * 10 + k)) ∧
      ∀ k, k < 10 → byteAt imgOne (2 + (20 - 1) * 10 + k) = byteAt (imgOne.set 12 0xFF) (2 + (20 - 1) * 10 + k)) ∧
    imgOne.length = 224 ∧ (imgOne.set 202 0xFF).length = 224 ∧ ∀ a, a < 202 → byteAt imgOne a = byteAt (imgOne.set 202 0xFF) a :=
  ⟨⟨arr_image.1, arr_image.2.1⟩, by decide, by decide +kernel, by decide +kernel, by decide +kernel, by decide +kernel⟩
theorem hyp_BlockIsSliceAndChecksum : (Arr.buf 0).ok 224 = true ∧ arrBytes 224 (.buf 0) s0 = some (List.replicate 224 0xEE) ∧ 6 < 7 ∧ 31 < 32 :=
  ⟨arr_image.1, arr_image.2.1, by decide, by decide⟩
theorem hyp_BandPlanRoundTrip : (List.replicate 20 bpDefault).length = 20 ∧ (List.replicate 20 bpDefault)[19]? = some bpDefault := by decide
theorem hyp_DecodeIdempotentThroughEncode : (Arr.buf 0).ok 224 = true ∧ arrBytes 224 (.buf 0) s0 = some (List.replicate 224 0xEE) ∧
    (Arr.lit imgOne).ok 224 = true ∧ arrBytes 224 (.lit imgOne) s0 = some imgOne := arr_image
theorem hyp_NameFieldPacksAndUnpacks : (Arr.buf 191).ok 33 = true ∧ arrBytes 33 (.buf 191) s0 = some (List.replicate 33 0xEE) :=
  ⟨arr_block.1, arr_block.2.1⟩
theorem hyp_ChannelDecodeReadsFields :
    ((Arr.lit blockOne).ok 33 = true ∧ arrBytes 33 (.lit blockOne) s0 = some blockOne ∧ memRead32 blockOne 0 ≠ 0) ∧
    ((Arr.lit (List.replicate 33 0)).ok 33 = true ∧ arrBytes 33 (.lit (List.replicate 33 0)) s0 = some (List.replicate 33 0) ∧
      memRead32 (List.replicate 33 0) 0 = 0) ∧ blockOne.length = 33 := by decide +kernel
theorem hyp_ChannelEncodeLaysOutBlock : (0 : Byte) ∉ recTwelve.name ∧ recTwelve.name.length = 12 := by decide
theorem hyp_ChannelRoundTrip : chInactive.rxWord = 0 ∧ recTwelve.rxWord ≠ 0 ∧ (0 : Byte) ∉ recTwelve.name ∧ recTwelve.name.length ≤ 12 := by
  decide
theorem hyp_BlockChecksum : (Arr.buf 192).ok 32 = true ∧ arrBytes 32 (.buf 192) s0 = some (List.replicate 32 0xEE) ∧
    (Arr.lit (1 :: List.replicate 31 0)).ok 32 = true ∧
    (List.replicate 31 (0 : Byte) ++ [1]).Perm (1 :: List.replicate 31 0) :=
  ⟨by decide, by decide +kernel, by decide, List.perm_append_comm⟩
/-- The ends of each range of R194. -/
theorem hyp_ToneWordsClassified : (1 ≤ (1 : Half).toNat ∧ (3000 : Half).toNat ≤ 3000) ∧ (0 : Half).toNat = 0 ∧
    (3001 ≤ (3001 : Half).toNat ∧ (32767 : Half).toNat ≤ 32767) ∧
    (32768 ≤ (0x8000 : Half).toNat ∧ (0x81FF : Half).toNat % 16384 < 512 ∧ (0xC1FF : Half).toNat % 16384 < 512) ∧
    (32768 ≤ (0x8200 : Half).toNat ∧ 512 ≤ (0x8200 : Half).toNat % 16384 ∧ 512 ≤ (0xFFFF : Half).toNat % 16384) := by decide
theorem hyp_ToneComposeInverts : (3000 : Half).toNat ≤ 3000 ∧ (∀ t, Tone.dcs 511 1 = .ctcss t → 1 ≤ t.toNat ∧ t.toNat ≤ 3000) ∧
    Answers (.toneCompose (.dcs 511 1)) s0 (.half 0xC1FF) ∧ (∀ t, Tone.ctcss 3000 = .ctcss t → 1 ≤ t.toNat ∧ t.toNat ≤ 3000) ∧
    Answers (.toneCompose (.ctcss 3000)) s0 (.half 3000) :=
  ⟨by decide, nofun, rfl, fun t h => by cases h; decide, rfl⟩
theorem hyp_GroupPackShiftsAndOrs :
    (∀ x ∈ (16 : Byte) :: [1], 1 ≤ x.toNat ∧ x.toNat ≤ 16 ∧ (x = 16 → sOver.params.groupP = .overflow)) ∧
    (∀ x ∈ [(1 : Byte), 15, 2, 3], 1 ≤ x.toNat ∧ x.toNat ≤ 15) ∧ [(1 : Byte), 15, 2, 3].length ≤ 4 := by decide
/-- 42949.67295 is the last m that fits with five decimals; 42949.672955 rounds to 2^32 (R220). -/
theorem hyp_FrequencyConversions : freqWordOf { int := [4, 2, 9, 4, 9], frac := [6, 7, 2, 9, 5] } < 2 ^ 32 ∧
    (let m : Decimal := { int := [4, 2, 9, 4, 9], frac := [6, 7, 2, 9, 5, 5] }
     2 * 10 ^ places m * 2 ^ 32 ≤ 2 * mant m * 100000 + 10 ^ places m) := by decide +kernel
theorem hyp_CtcssTextRoundTrip : 1 ≤ (1 : Half).toNat ∧ (1 : Half).toNat ≤ 3000 ∧ 1 ≤ (3000 : Half).toNat ∧ (3000 : Half).toNat ≤ 3000 := by decide
theorem hyp_DcsTextRoundTrip : (0xC013 : Half).toNat = 32768 + 16384 * (1 : BitVec 1).toNat + (19 : BitVec 9).toNat ∧
    (0x8000 : Half).toNat = 32768 + 16384 * (0 : BitVec 1).toNat + (0 : BitVec 9).toNat ∧
    Answers (.toneClassify 3000) s0 (.tone (.ctcss 3000)) ∧ Answers (.toneClassify 0x8200) s0 (.tone .off) := ⟨by decide, by decide, rfl, rfl⟩
/-- `-1.5`, `+5.`, `.5`, `88`, and at the edge of what log 33 takes out `300.04`, `300.05` and `-300.041`; `D777I`; and the empty text, which is
neither. -/
theorem hyp_ToneStringsRead :
    NumberText [0x2D, 0x31, 0x2E, 0x35] [0x2D] [0x2E] { int := [1], frac := [5] } ∧
    NumberText [0x2B, 0x35, 0x2E] [0x2B] [0x2E] { int := [5], frac := [] } ∧
    NumberText [0x2E, 0x35] [] [0x2E] { int := [], frac := [5] } ∧ NumberText [0x38, 0x38] [] [] { int := [8, 8], frac := [] } ∧
    (¬ DisputedTone [0x2D] { int := [1], frac := [5] } ∧ ¬ DisputedTone [] { int := [3, 0, 0], frac := [0, 4] } ∧
      ¬ DisputedTone [] { int := [3, 0, 0], frac := [0, 5] } ∧ ¬ DisputedTone [0x2D] { int := [3, 0, 0], frac := [0, 4, 1] }) ∧
    DcsText [0x44, 0x37, 0x37, 0x37, 0x49] 7 7 7 1 ∧
    (∀ b ∈ ([] : List Byte), b.toNat < 128) ∧ (∀ sign point d, ¬ NumberText [] sign point d) ∧ (∀ d2 d1 d0 inv, ¬ DcsText [] d2 d1 d0 inv) := by
  unfold NumberText DcsText DisputedTone
  refine ⟨by decide, by decide, by decide, by decide, by decide, by decide, by decide, ?_, fun d2 d1 d0 inv h => by simp at h⟩
  rintro sign point ⟨i, f⟩ ⟨_, h, h2⟩
  simp only [List.nil_eq, List.append_eq_nil_iff, List.map_eq_nil_iff] at h2
  obtain ⟨⟨⟨-, rfl⟩, rfl⟩, rfl⟩ := h2
  simp at h
theorem hyp_GroupStringsSkipOtherCharacters : ∀ b ∈ [(0x41 : Byte), 0x7F, 0x50], b.toNat < 128 := by decide
theorem hyp_GroupTextRoundTrip : [(0x41 : Byte), 0x4F, 0x42, 0x43].length ≤ 4 ∧
    ∀ b ∈ [(0x41 : Byte), 0x4F, 0x42, 0x43], 0x41 ≤ b.toNat ∧ b.toNat ≤ 0x4F := by decide
theorem hyp_InvariantKeptByEveryStep : (Inv s0 ∧ ∃ t, step s0 = .next t) ∧
    Inv (sTxn .acknowledged (.goodbye .chWrite true)) ∧ ∃ t, step (sTxn .acknowledged (.goodbye .chWrite true)) = .next t :=
  ⟨⟨inv_s0, _, rfl⟩, inv_sTxn _ _ (by decide) (by simp), _, rfl⟩
theorem hyp_ClassifierNeverTraps : Inv s0 ∧ Inv (sColl 192 31) ∧ (192 : Byte).toNat ≤ 192 := ⟨inv_s0, inv_sColl, by decide⟩
theorem hyp_StepRunsDecodedInstruction :
    (let s : State := { s0 with line := [[0x30, 0x31]] }
     Listening s ∧ s.inReady = true ∧ s.link.take = some (0x30, { s.link with rx := [0x31], line := [] }) ∧ decode (.rx s.phase s.count) [0x30] = .ok .hdr []) ∧
    (Serving (sReq .idle (.command [0x30, 0xD0])) (.command [0x30, 0xD0]) [] ∧ decode .tx [0x30, 0xD0] = .ok (.cmdRead 208) []) ∧
    (Serving (sReq .idle (.call .toneClassify [0x13, 0xC0])) (.call .toneClassify [0x13, 0xC0]) [] ∧
      decode (.call .toneClassify) [0x13, 0xC0] = .ok (.toneClassify 0xC013) []) :=
  ⟨⟨⟨rfl, rfl, rfl⟩, rfl, rfl, rfl⟩, ⟨⟨rfl, rfl, rfl, rfl, rfl⟩, by decide⟩, ⟨rfl, rfl, rfl, rfl, rfl⟩, by decide⟩
theorem hyp_EventsTakenInPriorityOrder :
    ({ s0 with resetReq := some .warm, startReq := some 0x20 } : State).resetReq = some .warm ∧
    (({ s0 with startReq := some 0x20, rx := [0x45] } : State).resetReq = none ∧
      ({ s0 with startReq := some 0x20, rx := [0x45] } : State).startReq = some 0x20) ∧
    (let s : State := { s0 with rx := [0x45], closed := true }; Listening s ∧ s.inReady = true ∧ s.stream = 0x45 :: []) ∧
    (let s : State := { s0 with line := [[], [0x45, 0x30]], closed := true }; Listening s ∧ s.inReady = true ∧ s.stream = 0x45 :: [0x30]) ∧
    (let s : State := { s0 with more := some 7 }; Listening s ∧ s.inReady = true ∧ s.stream = [] ∧ s.closed = false ∧ s.more = some 7) ∧
    (let s : State := { s0 with closed := true }; Listening s ∧ s.stream = [] ∧ s.closed = true) ∧
    (let s : State := { sIn .checksumOk with closed := true, more := some 7 }; Listening s ∧ s.stream = [] ∧ s.closed = true) :=
  ⟨rfl, ⟨rfl, rfl⟩, ⟨⟨rfl, rfl, rfl⟩, rfl, rfl⟩, ⟨⟨rfl, rfl, rfl⟩, rfl, rfl⟩, ⟨⟨rfl, rfl, rfl⟩, rfl, rfl, rfl, rfl⟩, ⟨⟨rfl, rfl, rfl⟩, rfl, rfl⟩,
    ⟨rfl, rfl, rfl⟩, rfl, rfl⟩
theorem hyp_HungRoundEndsByClosingTransport :
    (Listening s0 ∧ s0.inReady = true ∧ s0.stream = [] ∧ s0.closed = false ∧ s0.more = none) ∧
    (let s : State := { s0 with rx := [0x49], line := [[0x00, 0xFF]] }
     Listening s ∧ s.phase = .idle ∧ [(0x49 : Byte), 0x00, 0xFF].all isNoise = true ∧
      s.link.run [(0x49 : Byte), 0x00, 0xFF].length = ([0x49, 0x00, 0xFF], { s.link with rx := [], line := [] })) ∧
    (let s : State := { s0 with reqs := [.closePort, .openPort] }
     Serving s .closePort [.openPort] ∧ s.inReady = true ∧ s.stream = []) ∧
    (let s : State := { sTxn .idle (.roundWait .chRead 1) with reqs := [.closePort] }
     Serving s .closePort [] ∧ s.inReady = true ∧ s.stream = []) ∧
    (let s : State := { sColl 0 12 with closed := true, reqs := [.openPort] }
     s.resetReq = none ∧ s.startReq = none ∧ s.session.failed = false ∧ s.closed = true ∧ s.inReady = true ∧ s.stream = []) :=
  ⟨⟨⟨rfl, rfl, rfl⟩, rfl, rfl, rfl, rfl⟩, ⟨⟨rfl, rfl, rfl⟩, rfl, by decide, rfl⟩, ⟨⟨rfl, rfl, rfl, rfl, rfl⟩, rfl, rfl⟩,
    ⟨⟨rfl, rfl, rfl, rfl, rfl⟩, rfl, rfl⟩, rfl, rfl, rfl, rfl, rfl, rfl⟩
theorem hyp_FormsThatStopByName :
    ((sIn .incomplete).phase ≠ .idle ∧ isNoise 0x30 = false) ∧
    ((sIn .idle).phase ≠ .collecting ∧ (sColl 0 32).phase = .collecting ∧ (sColl 0 32).count.toNat = 32 ∧
      (sColl 0 31).phase = .collecting ∧ (sColl 0 31).count.toNat < 32 ∧ (sColl 0 33).phase = .collecting ∧ 32 < (sColl 0 33).count.toNat ∧
      (sColl 193 31).phase = .collecting ∧ (sColl 193 31).count.toNat < 32 ∧ 224 ≤ (sColl 193 31).base.toNat + (sColl 193 31).count.toNat ∧
      (sIn .idle).phase = .idle) ∧
    Memory.wf s0.buf = true ∧ (codecInstr (.bpMagicOk (.buf 1)) = true ∧ snapshotInside (.bpMagicOk (.buf 1)) = false) ∧
    codecInstr (.chDecode (.buf 192)) = true ∧ snapshotInside (.chDecode (.buf 192)) = false := by decide +kernel
/-- Noise, a header, 32 zeros and the checksum 0 in three chunks, at the highest base; and the device sends on for ever. -/
theorem hyp_BlockRoundOutcome :
    let s : State := { s0 with startReq := some 192, line := [[0x49, 0x30], List.replicate 32 0, [0, 0x31]], more := some 0 }
    Inv s ∧ s.resetReq = none ∧ s.startReq = some 192 ∧ (192 : Byte).toNat ≤ 192 ∧ hostActive s = false ∧ [(0x49 : Byte)].all isNoise = true ∧
    (List.replicate 32 (0 : Byte)).length = 32 ∧
    s.boundary.link.run ([(0x49 : Byte)].length + 34) =
      ([0x49] ++ [0x30] ++ List.replicate 32 0 ++ [0], { s.link with rx := [0x31], line := [] }) :=
  ⟨Inv.congr inv_s0 rfl rfl rfl, rfl, rfl, by decide, rfl, by decide, by decide, rfl⟩
/-- An acknowledgement after noise with a byte left; noise alone, and no byte at all, on a closed link; a header and 32 or no payload bytes. -/
theorem hyp_ShortRoundOutcomes :
    (let s : State := { s0 with startReq := some 192, rx := [0x49] ++ [0x45] ++ [0x30] }
     s.resetReq = none ∧ s.startReq = some 192 ∧ (192 : Byte).toNat ≤ 192 ∧ hostActive s = false ∧ [(0x49 : Byte)].all isNoise = true ∧
      (0x45 : Byte) ∈ [(0x31 : Byte), 0x45, 0x46] ∧
      s.boundary.link.run ([(0x49 : Byte)].length + 1) = ([0x49] ++ [0x45], { s.link with rx := [0x30] })) ∧
    (let s : State := { s0 with startReq := some 192, rx := [0x49], closed := true, more := some 0 }
     s.resetReq = none ∧ s.startReq = some 192 ∧ (192 : Byte).toNat ≤ 192 ∧ hostActive s = false ∧ [(0x49 : Byte)].all isNoise = true ∧
      s.boundary.link.run [(0x49 : Byte)].length = ([0x49], { s.link with rx := [] }) ∧
      Link.take { s.link with rx := [] } = none ∧ ({ s.link with rx := [] } : Link).closed = true) ∧
    (let s : State := { s0 with startReq := some 0, closed := true }
     hostActive s = false ∧ ([] : List Byte).all isNoise = true ∧ s.boundary.link.run ([] : List Byte).length = ([], s.link) ∧
      s.link.take = none ∧ s.link.closed = true) ∧
    (let s : State := { s0 with startReq := some 0, rx := [] ++ [0x30] ++ List.replicate 32 7, closed := true }
     Inv s ∧ s.resetReq = none ∧ s.startReq = some 0 ∧ (0 : Byte).toNat ≤ 192 ∧ hostActive s = false ∧ ([] : List Byte).all isNoise = true ∧
      (List.replicate 32 (7 : Byte)).length ≤ 32 ∧
      s.boundary.link.run (([] : List Byte).length + 1 + (List.replicate 32 (7 : Byte)).length) =
        ([] ++ [0x30] ++ List.replicate 32 7, { s.link with rx := [] }) ∧
      Link.take { s.link with rx := [] } = none ∧ ({ s.link with rx := [] } : Link).closed = true) ∧
    (let s : State := { s0 with startReq := some 0, rx := [0x30], closed := true }
     s.boundary.link.run (([] : List Byte).length + 1 + ([] : List Byte).length) = ([] ++ [0x30] ++ [], { s.link with rx := [] })) :=
  ⟨⟨rfl, rfl, by decide, rfl, by decide, by decide, rfl⟩, ⟨rfl, rfl, by decide, rfl, by decide, rfl, rfl, rfl⟩, ⟨rfl, rfl, rfl, rfl, rfl⟩,
    ⟨Inv.congr inv_s0 rfl rfl rfl, rfl, rfl, by decide, rfl, rfl, by decide, rfl, rfl, rfl⟩, rfl⟩
theorem hyp_StatusViewAndOutputs : (sIn .idle).phase = .idle ∧ (sIn .collecting).phase = .collecting ∧ (sIn .checksumOk).phase = .checksumOk ∧
    (sIn .checksumBad).phase = .checksumBad ∧ (sIn .acknowledged).phase = .acknowledged ∧ (sIn .incomplete).phase = .incomplete ∧
    Serving (sReq .idle .readStatus) .readStatus [] ∧ Serving (sReq .idle .readOutputs) .readOutputs [] ∧
    Serving (sReq .idle (.writeStatus 1)) (.writeStatus 1) [] :=
  ⟨rfl, rfl, rfl, rfl, rfl, rfl, ⟨rfl, rfl, rfl, rfl, rfl⟩, ⟨rfl, rfl, rfl, rfl, rfl⟩, rfl, rfl, rfl, rfl, rfl⟩
/-- A write in a round, a write of the last byte between rounds, a read of all of BUF. -/
theorem hyp_HostBufferAccessBetweenRounds :
    (Inv (sReq .idle (.writeBuf 223 [1])) ∧ Serving (sReq .idle (.writeBuf 223 [1])) (.writeBuf 223 [1]) [] ∧
      (sReq .idle (.writeBuf 223 [1])).done = false) ∧
    (Inv (sReq .incomplete (.writeBuf 223 [1])) ∧ Serving (sReq .incomplete (.writeBuf 223 [1])) (.writeBuf 223 [1]) [] ∧
      (sReq .incomplete (.writeBuf 223 [1])).done = true ∧ 223 + [(1 : Byte)].length ≤ 224) ∧
    (Inv (sReq .idle (.readBuf 0 224)) ∧ Serving (sReq .idle (.readBuf 0 224)) (.readBuf 0 224) [] ∧ 0 + 224 ≤ 224) :=
  ⟨⟨inv_sReq _ _ (by decide), ⟨rfl, rfl, rfl, rfl, rfl⟩, rfl⟩, ⟨inv_sReq _ _ (by decide), ⟨rfl, rfl, rfl, rfl, rfl⟩, rfl, by decide⟩,
    inv_sReq _ _ (by decide), ⟨rfl, rfl, rfl, rfl, rfl⟩, by decide⟩
/-- Band-plan read round `n` ended Acknowledged, under a policy. -/
def sPol (pol : Config.BpReadAckPolicy) (n : Nat) : State :=
  { sTxn .acknowledged (.roundWait .bpRead n) with params := { groupP := .skip, bpReadAck := pol } }

theorem inv_sPol (pol : Config.BpReadAckPolicy) (n : Nat) : Inv (sPol pol n) := Inv.congr (inv_sTxn .acknowledged (.roundWait .bpRead n) (by decide) (by simp)) rfl rfl rfl

/-- ChecksumBad, Incomplete, and Acknowledged under `Abort`; ChecksumOk in blocks 5 and 6, and Acknowledged under `Continue` in both. -/
theorem hyp_BandPlanReadRoundOutcomes :
    (Inv (sTxn .checksumBad (.roundWait .bpRead 6)) ∧ InTransaction (sTxn .checksumBad (.roundWait .bpRead 6)) (.roundWait .bpRead 6) ∧
      (sTxn .checksumBad (.roundWait .bpRead 6)).phase = .checksumBad) ∧
    (Inv (sTxn .incomplete (.roundWait .bpRead 0)) ∧ InTransaction (sTxn .incomplete (.roundWait .bpRead 0)) (.roundWait .bpRead 0) ∧
      (sTxn .incomplete (.roundWait .bpRead 0)).phase = .incomplete) ∧
    (Inv (sPol .abort 3) ∧ InTransaction (sPol .abort 3) (.roundWait .bpRead 3) ∧ (sPol .abort 3).phase = .acknowledged ∧
      (sPol .abort 3).params.bpReadAck = .abort) ∧
    (∀ n, n = 5 ∨ n = 6 → Inv (sTxn .checksumOk (.roundWait .bpRead n)) ∧
      InTransaction (sTxn .checksumOk (.roundWait .bpRead n)) (.roundWait .bpRead n) ∧
      (sTxn .checksumOk (.roundWait .bpRead n)).phase = .checksumOk) ∧
    (∀ n, n = 5 ∨ n = 6 → Inv (sPol .cont n) ∧ InTransaction (sPol .cont n) (.roundWait .bpRead n) ∧ (sPol .cont n).phase = .acknowledged ∧
      (sPol .cont n).params.bpReadAck = .cont) ∧ 5 < 6 :=
  ⟨⟨inv_sTxn _ _ (by decide) (by simp), ⟨rfl, rfl, rfl, rfl, rfl, rfl, rfl⟩, rfl⟩, ⟨inv_sTxn _ _ (by decide) (by simp), ⟨rfl, rfl, rfl, rfl, rfl, rfl, rfl⟩, rfl⟩,
    ⟨inv_sPol _ _, ⟨rfl, rfl, rfl, rfl, rfl, rfl, rfl⟩, rfl, rfl⟩, fun n _ => ⟨inv_sTxn _ _ (by decide) (by simp), ⟨rfl, rfl, rfl, rfl, rfl, rfl, rfl⟩, rfl⟩,
    fun n _ => ⟨inv_sPol _ _, ⟨rfl, rfl, rfl, rfl, rfl, rfl, rfl⟩, rfl, rfl⟩, by decide⟩
theorem hyp_ChannelReadStoresOnlyGoodRows :
    (Inv (sTxn .checksumOk (.roundWait .chRead 1)) ∧ InTransaction (sTxn .checksumOk (.roundWait .chRead 1)) (.roundWait .chRead 1) ∧
      1 ≤ 1 ∧ 1 ≤ 198 ∧ (sTxn .checksumOk (.roundWait .chRead 1)).done = true ∧ (sTxn .checksumOk (.roundWait .chRead 1)).phase = .checksumOk) ∧
    (Inv (sTxn .incomplete (.roundWait .chRead 198)) ∧ InTransaction (sTxn .incomplete (.roundWait .chRead 198)) (.roundWait .chRead 198) ∧
      1 ≤ 198 ∧ 198 ≤ 198 ∧ (sTxn .incomplete (.roundWait .chRead 198)).done = true ∧
      (sTxn .incomplete (.roundWait .chRead 198)).phase ≠ .checksumOk) :=
  ⟨⟨inv_sTxn _ _ (by decide) (by simp), ⟨rfl, rfl, rfl, rfl, rfl, rfl, rfl⟩, by decide, by decide, rfl, rfl⟩,
    inv_sTxn _ _ (by decide) (by simp), ⟨rfl, rfl, rfl, rfl, rfl, rfl, rfl⟩, by decide, by decide, rfl, by decide⟩
theorem hyp_HandshakeBeginsOrSkipsTheLoop :
    InTransaction (sTxn .idle (.hello .bpRead)) (.hello .bpRead) ∧
    (∀ k, InTransaction (sTxn .acknowledged (.helloWait k)) (.helloWait k) ∧ (sTxn .acknowledged (.helloWait k)).done = true ∧
      (sTxn .acknowledged (.helloWait k)).phase = .acknowledged) ∧
    ∀ k, InTransaction (sTxn .incomplete (.helloWait k)) (.helloWait k) ∧ (sTxn .incomplete (.helloWait k)).done = true ∧
      (sTxn .incomplete (.helloWait k)).phase ≠ .acknowledged :=
  ⟨⟨rfl, rfl, rfl, rfl, rfl, rfl, rfl⟩, fun _ => ⟨⟨rfl, rfl, rfl, rfl, rfl, rfl, rfl⟩, rfl, rfl⟩,
    fun _ => ⟨⟨rfl, rfl, rfl, rfl, rfl, rfl, rfl⟩, rfl, fun h => Phase.noConfusion h⟩⟩
theorem hyp_ItemsPrepareSendAndStop :
    (Inv (sTxn .acknowledged (.prepare .bpWrite 0)) ∧ InTransaction (sTxn .acknowledged (.prepare .bpWrite 0)) (.prepare .bpWrite 0) ∧
      (sTxn .acknowledged (.prepare .bpWrite 0)).done = true) ∧
    (Inv (sTxn .incomplete (.prepare .chRead 198)) ∧ InTransaction (sTxn .incomplete (.prepare .chRead 198)) (.prepare .chRead 198) ∧
      (sTxn .incomplete (.prepare .chRead 198)).done = true) ∧
    (InTransaction (sTxn .checksumOk (.command .bpRead 6)) (.command .bpRead 6) ∧ 6 < 7) ∧
    (InTransaction (sTxn .checksumOk (.command .chRead 198)) (.command .chRead 198) ∧ 1 ≤ 198 ∧ 198 ≤ 198) ∧
    (Inv (sTxn .acknowledged (.command .bpWrite 6)) ∧ InTransaction (sTxn .acknowledged (.command .bpWrite 6)) (.command .bpWrite 6) ∧ 6 < 7) ∧
    (InTransaction (sTxn .acknowledged (.command .chWrite 198)) (.command .chWrite 198) ∧ 1 ≤ 198 ∧ 198 ≤ 198 ∧
      (sTxn .acknowledged (.command .chWrite 198)).session.records.ch[198 - 1]? = some chInactive) ∧
    (∀ k n, InTransaction (sTxn .acknowledged (.roundWait k n)) (.roundWait k n) ∧ (sTxn .acknowledged (.roundWait k n)).done = true ∧
      (sTxn .acknowledged (.roundWait k n)).phase = .acknowledged) ∧
    (5 < (if Txn.bpWrite = .bpWrite then 6 else 198) ∧ 197 < (if Txn.chWrite = .bpWrite then 6 else 198) ∧
      6 = (if Txn.bpWrite = .bpWrite then 6 else 198) ∧ 198 = (if Txn.chWrite = .bpWrite then 6 else 198)) ∧
    ∀ k n, InTransaction (sTxn .checksumBad (.roundWait k n)) (.roundWait k n) ∧ (sTxn .checksumBad (.roundWait k n)).done = true ∧
      (sTxn .checksumBad (.roundWait k n)).phase ≠ .acknowledged :=
  ⟨⟨inv_sTxn _ _ (by decide) (by simp), ⟨rfl, rfl, rfl, rfl, rfl, rfl, rfl⟩, rfl⟩, ⟨inv_sTxn _ _ (by decide) (by simp), ⟨rfl, rfl, rfl, rfl, rfl, rfl, rfl⟩, rfl⟩,
    ⟨⟨rfl, rfl, rfl, rfl, rfl, rfl, rfl⟩, by decide⟩, ⟨⟨rfl, rfl, rfl, rfl, rfl, rfl, rfl⟩, by decide, by decide⟩,
    ⟨inv_sTxn _ _ (by decide) (by simp), ⟨rfl, rfl, rfl, rfl, rfl, rfl, rfl⟩, by decide⟩,
    ⟨⟨rfl, rfl, rfl, rfl, rfl, rfl, rfl⟩, by decide, by decide, by decide +kernel⟩,
    fun _ _ => ⟨⟨rfl, rfl, rfl, rfl, rfl, rfl, rfl⟩, rfl, rfl⟩, by decide, fun _ _ => ⟨⟨rfl, rfl, rfl, rfl, rfl, rfl, rfl⟩, rfl, fun h => Phase.noConfusion h⟩⟩
theorem hyp_RoundsStartAtTheirBase :
    (InTransaction (sTxn .acknowledged (.roundStart .bpRead 6)) (.roundStart .bpRead 6) ∧ (Txn.bpRead = .bpRead → 6 < 7)) ∧
    (InTransaction (sTxn .acknowledged (.roundStart .chWrite 198)) (.roundStart .chWrite 198) ∧ (Txn.chWrite = .bpRead → 198 < 7)) ∧
    InTransaction (sTxn .idle (.helloStart .chRead)) (.helloStart .chRead) :=
  ⟨⟨⟨rfl, rfl, rfl, rfl, rfl, rfl, rfl⟩, by decide⟩, ⟨⟨rfl, rfl, rfl, rfl, rfl, rfl, rfl⟩, by decide⟩, rfl, rfl, rfl, rfl, rfl, rfl, rfl⟩
/-- An exception while waiting, in a round begun by a raw START, while sending, and with no round; an operation triggered with none in flight and
while one is; the end of an operation with F and with I, and by decoding. -/
theorem hyp_TransactionsAbortAndExclude :
    (let s : State := { s0 with session := { Session.fresh with pos := .helloWait .bpRead, failed := true, records := recs } }
     s.resetReq = none ∧ s.startReq = none ∧ s.session.failed = true ∧ waiting s.session.pos = true ∧ s.session.pos ≠ .idle) ∧
    (let s : State := { sColl 0 12 with session := { Session.fresh with failed := true } }
     s.resetReq = none ∧ s.startReq = none ∧ s.session.failed = true ∧ s.session.pos = .idle ∧ s.inReady = true) ∧
    (let s : State := { s0 with session := { Session.fresh with pos := .command .chWrite 1, failed := true, records := recs } }
     s.resetReq = none ∧ s.startReq = none ∧ s.session.failed = true ∧ waiting s.session.pos = false ∧ s.session.pos ≠ .idle) ∧
    (let s : State := { sIn .incomplete with session := { Session.fresh with failed := true } }
     s.session.failed = true ∧ waiting s.session.pos = false ∧ s.inReady = false) ∧
    (let s : State := { s0 with session := { Session.fresh with want := some { txn := .chRead, records := recs } } }
     s.resetReq = none ∧ s.startReq = none ∧ s.session.failed = false ∧ s.ending = false ∧ s.reqs = [] ∧
      s.session.want = some { txn := .chRead, records := recs } ∧ s.session.pos = .idle) ∧
    (let s : State := { s0 with session := { Session.fresh with want := some { txn := .chRead, records := recs }, pos := .hello .bpWrite } }
     s.resetReq = none ∧ s.startReq = none ∧ s.session.failed = false ∧ s.ending = false ∧ s.reqs = [] ∧
      s.session.want = some { txn := .chRead, records := recs } ∧ s.session.pos ≠ .idle) ∧
    InTransaction (sTxn .incomplete (.goodbye .bpRead false)) (.goodbye .bpRead false) ∧
    InTransaction (sTxn .incomplete (.goodbye .chWrite true)) (.goodbye .chWrite true) ∧
    (Inv (sTxn .incomplete .harvest) ∧ InTransaction (sTxn .incomplete .harvest) .harvest) :=
  ⟨⟨rfl, rfl, rfl, rfl, by decide⟩, ⟨rfl, rfl, rfl, rfl, rfl⟩, ⟨rfl, rfl, rfl, rfl, by decide⟩, ⟨rfl, rfl, rfl⟩, ⟨rfl, rfl, rfl, rfl, rfl, rfl, rfl⟩,
    ⟨rfl, rfl, rfl, rfl, rfl, rfl, by decide⟩, ⟨rfl, rfl, rfl, rfl, rfl, rfl, rfl⟩, ⟨rfl, rfl, rfl, rfl, rfl, rfl, rfl⟩,
    inv_sTxn _ _ (by decide) (by simp), rfl, rfl, rfl, rfl, rfl, rfl, rfl⟩
theorem hyp_DecodeEncodeAgree : (Instr.bpBlock (.buf 0) 6).wf = true ∧ (Instr.cmdWrite 255 (List.replicate 32 0xFF)).wf = true ∧
    (Instr.ctcssText 3000).wf = true ∧ (Instr.noise 0x49).wf = true := by decide
theorem hyp_DecodedBytesAreTheEncoding : (Port.tx = .tx ∨ ∃ op, Port.tx = .call op) ∧ decode .tx [0x30, 0xD0, 0x45] = .ok (.cmdRead 208) [0x45] ∧
    (Port.call .dcsDigits = .tx ∨ ∃ op, Port.call .dcsDigits = .call op) ∧
    decode (.call .dcsDigits) [0xFF, 0x01] = .ok (.dcsDigits (.digits 511)) [] := ⟨.inl rfl, by decide, .inr ⟨_, rfl⟩, by decide⟩

end Sys2Proof.Tests
end

section
/-! PROOFS. The state seen from outside: a codec call holds no state (R31), STATUS and the outputs show the registers (R26, R27). -/

namespace Sys2Proof.Machine

/-! ### Codec calls in another state -/

/-- A call whose result is fixed gives the same one back in every state. -/
theorem giveBack_next_other {r : Ret} {s t : State} (s' : State) (h : giveBack r s = .next t) :
    giveBack r s' = .next (s'.answer t.ret) := by
  obtain rfl : s.answer r = t := Host.Outcome.next.inj h
  rfl

/-- The bytes of an array operand depend on BUF only, and on that only where the operand is a snapshot (R31). -/
theorem arrBytes_congr {n : Nat} {a : Arr} {s s' : State} (hb : isSnapshot a = true → s'.buf = s.buf) :
    arrBytes n a s' = arrBytes n a s := by
  cases a with
  | lit bytes => rfl
  | buf off => exact congrArg (Memory.readRange · off n) (hb rfl)

/-- A call on an array operand gives the same result back in every state where the operand has the same bytes. -/
theorem answerArr_next_other {n : Nat} {a : Arr} {f : List Byte → Ret} {s t s' : State}
    (hb : isSnapshot a = true → s'.buf = s.buf) (h : answerArr n a f s = .next t) :
    answerArr n a f s' = .next (s'.answer t.ret) := by
  obtain ⟨bs, hbs, rfl⟩ := answerArr_eq_next h
  exact answerArr_next ((arrBytes_congr hb).trans hbs)

/-- A codec call that completes gives the same result back in every state that agrees on what the call reads: BUF for a snapshot, the
letter-P policy for the group words (R31). -/
theorem exec_codec_next_other {i : Instr} {s t s' : State} (hi : codecInstr i = true) (h : exec i s = .next t)
    (hb : takesSnapshot i = true → s'.buf = s.buf) (hp : usesLetterP i = true → s'.params.groupP = s.params.groupP) :
    exec i s' = .next (s'.answer t.ret) := by
  cases i
  case hdr | ack1 | ackE | ackF | noise | data | chk | eos | terminalHold | start | reset => cases hi
  case cmdE | cmdF | cmdI | cmdRead | cmdWrite => cases hi
  case bpEntryEncode | bpMagicOk | bpEntryDecode | bpDecode | bpBlock | chNamePack | chNameUnpack | chDecode | checksum8 =>
    exact answerArr_next_other hb h
  case groupPack vs =>
    simp only [exec, execGroupPack, hp rfl]
    exact giveBack_next_other s' h
  case stringToGroup str =>
    simp only [exec, execStringToGroup, hp rfl]
    exact giveBack_next_other s' h
  case freqFromMhz m =>
    simp only [exec, execFreqFromMhz] at h ⊢
    split at h
    · rw [if_pos ‹_›]
      exact giveBack_next_other s' h
    · cases h
  case le16PackUnpack form => cases form <;> exact giveBack_next_other s' h
  case le32PackUnpack form => cases form <;> exact giveBack_next_other s' h
  case dcsDigits form => cases form <;> exact giveBack_next_other s' h
  all_goals exact giveBack_next_other s' h

/-- Settles O10: a codec call only answers, and what it answers is fixed by the operands, the snapshot and the letter-P policy. -/
theorem codecCallsAreStateless : Obligations.CodecCallsAreStateless := by
  intro i s t hi h
  obtain ⟨r, rfl⟩ := exec_codec_eq_next hi h
  exact ⟨rfl, fun s' hb hp => exec_codec_next_other hi h hb hp⟩

/-! ### STATUS and the outputs -/

/-- The layout of STATUS (R26), highest field first. -/
theorem State.status_eq_append (s : State) :
    s.status = s.base ++ s.csum ++ 0#2 ++ s.count ++ 0#5 ++ phaseCode s.phase := by
  apply BitVec.eq_of_getLsbD_eq
  intro i hi
  simp only [State.status, BitVec.getLsbD_or, BitVec.getLsbD_shiftLeft, BitVec.getLsbD_setWidth, BitVec.getLsbD_append]
  grind

/-- The fields of STATUS, read back from its layout, lowest first (R26). -/
theorem State.status_fields (s : State) :
    s.status.extractLsb' 0 3 = phaseCode s.phase ∧ s.status.extractLsb' 3 5 = 0 ∧ s.status.extractLsb' 8 6 = s.count ∧
      s.status.extractLsb' 14 2 = 0 ∧ s.status.extractLsb' 16 8 = s.csum ∧ s.status.extractLsb' 24 8 = s.base := by
  simp (disch := decide) only [s.status_eq_append, BitVec.extractLsb'_append_eq_of_le, Nat.reduceSub,
    BitVec.extractLsb'_append_eq_right, BitVec.extractLsb'_eq_self, BitVec.ofNat_eq_ofNat, and_self]

/-- DONE is 1 exactly in the terminal states (R21, R27). -/
theorem State.done_iff (s : State) : s.done = true ↔ s.phase ≠ .idle ∧ s.phase ≠ .collecting := by
  unfold State.done
  cases s.phase <;> simp [terminal]

/-- Settles O50: the fields come from the layout of STATUS, the host's accesses from the step that serves a request. -/
theorem statusViewAndOutputs : Obligations.StatusViewAndOutputs := by
  refine ⟨fun s => ?_, fun s rest => ⟨serving_step, serving_step, fun v => serving_step⟩⟩
  obtain ⟨hstate, hlow, hcount, hmid, hcsum, hbase⟩ := s.status_fields
  have code {p : Phase} (h : s.phase = p) : s.status.extractLsb' 0 3 = phaseCode p := h ▸ hstate
  exact ⟨⟨code, code, code, code, code, code⟩, hlow, hcount, hmid, hcsum, hbase, s.done_iff, rfl, inReady_eq s⟩

end Sys2Proof.Machine
end

section
/-! PROOFS. The classifier's bytes and controls (R100-R103, R106, R107, R109): each instruction's own lemma, the classes of R61 in Idle, and
that nothing but START and RESET leaves a terminal state. -/

namespace Sys2Proof.Machine

/-! ### The classes of a byte in Idle -/

/-- NOISE is what R61 names in no other class. -/
theorem isNoise_iff (b : Byte) : isNoise b = true ↔ b ≠ 0x30 ∧ b ≠ 0x31 ∧ b ≠ 0x45 ∧ b ≠ 0x46 := by
  simp only [isNoise, Bool.and_eq_true, bne_iff_ne, and_assoc]

/-- In Idle a byte is noise or one of the four that R61 names. -/
theorem isNoise_or_named (b : Byte) : isNoise b = true ∨ b = 0x30 ∨ b = 0x31 ∨ b = 0x45 ∨ b = 0x46 := by
  rw [isNoise_iff]
  tauto

/-- In Idle a byte is in class NOISE exactly when it is a noise byte (R61). -/
theorem sortByte_idle_eq_noise_iff (c : BitVec 6) (b : Byte) : sortByte .idle c b = .noise b ↔ isNoise b = true := by
  refine ⟨fun h => ?_, sortByte_noise c⟩
  obtain hn | rfl | rfl | rfl | rfl := isNoise_or_named b
  · exact hn
  all_goals cases h

/-- Each of the four named classes of R61 has one byte in Idle. -/
theorem sortByte_idle_eq_named_iff (c : BitVec 6) (b : Byte) :
    (sortByte .idle c b = .hdr ↔ b = 0x30) ∧ (sortByte .idle c b = .ack1 ↔ b = 0x31) ∧
    (sortByte .idle c b = .ackE ↔ b = 0x45) ∧ (sortByte .idle c b = .ackF ↔ b = 0x46) := by
  obtain hn | rfl | rfl | rfl | rfl := isNoise_or_named b
  · simpa [sortByte_noise c hn] using (isNoise_iff b).1 hn
  all_goals simp [sortByte]

/-- Of the 256 byte values 252 are noise (R61). -/
theorem countP_noise : (List.range 256).countP (fun n => isNoise (BitVec.ofNat 8 n)) = 252 := by decide +kernel

/-- A step that takes a noise byte in Idle takes it off the stream and does nothing else (R103). -/
theorem step_noise {s : State} {b : Byte} {rest : List Byte} (hp : s.phase = .idle) (hb : isNoise b = true) (hl : Listening s)
    (hx : s.rx = b :: rest) : step s = .next { s with rx := rest } := by
  have hr : s.inReady = true := by simp [State.inReady, hp]
  have hc : sortByte s.phase s.count b = .noise b := hp ▸ sortByte_noise s.count hb
  rw [feed_cons hl hr hx, hc]
  exact exec_noise_next hp hb

/-- Settles O2: the classes of R61 are told apart by one split on the byte, and the number of noise bytes is counted. -/
theorem idleBytesFallInOneClass : Obligations.IdleBytesFallInOneClass := by
  refine ⟨fun c b => ?_, ?_, fun s b hp h0 h1 hE hF => ?_⟩
  · obtain ⟨h0, h1, hE, hF⟩ := sortByte_idle_eq_named_iff c b
    exact ⟨h0, h1, hE, hF, (sortByte_idle_eq_noise_iff c b).trans (isNoise_iff b)⟩
  · refine (List.countP_congr fun n _ => ?_).trans countP_noise
    rw [beq_iff_eq, sortByte_idle_eq_noise_iff]
  · have hb : isNoise b = true := (isNoise_iff b).2 ⟨h0, h1, hE, hF⟩
    exact ⟨exec_noise_next hp hb, fun _ => step_noise hp hb⟩

/-! ### What the bytes of a round do -/

/-- The acknowledgement bytes in Idle (R101). -/
theorem exec_ack_next {i : Instr} {s : State} (hi : i ∈ [Instr.ack1, .ackE, .ackF]) (hp : s.phase = .idle) :
    exec i s = .next (s.setPhase .acknowledged) := by
  simp only [List.mem_cons, List.not_mem_nil, or_false] at hi
  obtain rfl | rfl | rfl := hi
  all_goals exact if_pos hp

/-- Settles O1: HDR and the acknowledgement classes, each by its own lemma. -/
theorem headerCollectsAcknowledgementEnds : Obligations.HeaderCollectsAcknowledgementEnds := by
  intro s hp
  rw [hp]
  exact ⟨⟨rfl, exec_hdr_next hp⟩, rfl, rfl, rfl, fun i hi => exec_ack_next hi hp⟩

/-- The address of the next payload byte lies inside BUF (R41). -/
theorem Inv.payloadAddr_lt {s : State} (h : Inv s) (hc : s.count.toNat < 32) : s.payloadAddr < 224 := by
  have hb : s.base.toNat + 32 ≤ 224 := h.baseLe
  unfold State.payloadAddr
  omega

/-- Settles O3: DATA completes because BASE + COUNT lies inside BUF; BUF afterwards is by read after write. -/
theorem payloadByteStoredSummedCounted : Obligations.PayloadByteStoredSummedCounted := by
  intro s b hI hp hc
  have ha : s.payloadAddr < 224 := hI.payloadAddr_lt hc
  refine ⟨sortByte_data b hp hc, Nat.le_of_lt_succ ha, s.storePayload b, exec_data_next hp hc ha, rfl, ?_, ?_, ?_, ?_⟩
  · exact BitVec.toNat_add s.csum b
  · rw [State.storePayload_count, BitVec.toNat_add]
    exact Nat.mod_eq_of_lt (show s.count.toNat + 1 < 64 by omega)
  · exact Memory.read_write_eq hI.bufWf b ha
  · exact fun a hne => Memory.read_write_ne s.buf b hne

/-- Settles O4: at COUNT = 32 the byte is CHK, which compares it with CSUM. -/
theorem checksumByteDecidesOutcome : Obligations.ChecksumByteDecidesOutcome := by
  intro s b hp hc
  refine ⟨sortByte_chk b hp hc, fun h => ?_, fun h => ?_⟩
  · rw [exec_chk_next hp hc, if_pos h]; rfl
  · rw [exec_chk_next hp hc, if_neg h]; rfl

/-! ### START -/

/-- START at an admitted base, in every state (R106). -/
theorem exec_start_next {base : Byte} (h : base.toNat ≤ 192) (s : State) : exec (.start base) s = .next (s.beginRound base) :=
  if_pos (Nat.add_le_add_right h 32)

/-- START at a base whose 32 bytes leave BUF (R41, R106). -/
theorem exec_start_refused {base : Byte} (h : 192 < base.toNat) (s : State) : exec (.start base) s = .refused (.startBase base) :=
  if_neg (Nat.not_le.2 (Nat.add_lt_add_right h 32))

/-- Settles O6: 192 is the highest base that leaves room for 32 bytes in BUF. -/
theorem startBeginsRoundOrIsRefused : Obligations.StartBeginsRoundOrIsRefused :=
  fun s _ => ⟨fun h => exec_start_next h s, fun h => exec_start_refused h s⟩

/-! ### Terminal states -/

/-- Whether an instruction begins a round: START or RESET (R107). -/
def beginsRound : Instr → Bool
  | .start _ => true
  | .reset _ => true
  | _ => false

theorem beginsRound_iff (i : Instr) : beginsRound i = true ↔ (∃ b, i = .start b) ∨ ∃ k, i = .reset k := by
  cases i <;> simp [beginsRound]

/-- No class of device bytes is START or RESET (R60-R62). -/
theorem beginsRound_sortByte (p : Phase) (c : BitVec 6) (b : Byte) : beginsRound (sortByte p c b) = false := by
  cases p
  case idle =>
    obtain hn | rfl | rfl | rfl | rfl := isNoise_or_named b
    · rw [sortByte_noise c hn]; rfl
    all_goals rfl
  case collecting => simp only [sortByte]; split <;> rfl
  all_goals rfl

/-- In a terminal state no byte class of Idle acts. -/
theorem inIdle_ne_next {s t u : State} (hs : terminal s.phase = true) : inIdle s t ≠ .next u := by
  intro h
  rw [(inIdle_eq_next h).1] at hs
  cases hs

/-- An instruction of the classifier that completes in a terminal state and begins no round keeps STATE. -/
theorem exec_classifier_phase {i : Instr} {s t : State} (hi : classifierInstr i = true) (hs : terminal s.phase = true)
    (hb : beginsRound i = false) (h : exec i s = .next t) : t.phase = s.phase := by
  cases i
  case hdr | ack1 | ackE | ackF => exact absurd h (inIdle_ne_next hs)
  case noise b =>
    simp only [exec, execNoise] at h
    split at h
    · exact absurd h (inIdle_ne_next hs)
    · cases h
  case data b =>
    obtain ⟨-, -, -, rfl⟩ := execData_eq_next h
    rfl
  case chk b =>
    rw [(execChk_eq_next h).1] at hs
    cases hs
  case eos | terminalHold =>
    cases (if_pos hs).symm.trans h
    rfl
  case start | reset => cases hb
  all_goals cases hi

/-- An instruction that completes in a terminal state and begins no round keeps STATE (R107). -/
theorem exec_phase_of_terminal {i : Instr} {s t : State} (hs : terminal s.phase = true) (hb : beginsRound i = false)
    (h : exec i s = .next t) : t.phase = s.phase := by
  by_cases hcl : classifierInstr i = true
  · exact exec_classifier_phase hcl hs hb h
  by_cases hcm : commandInstr i = true
  · obtain ⟨bs, e, rfl⟩ := exec_command_eq_next hcm h
    rfl
  · obtain ⟨r, rfl⟩ := exec_codec_eq_next (by simp [codecInstr, hcl, hcm]) h
    rfl

/-- The stream keeps a terminal STATE. -/
theorem feed_phase_of_terminal {s t : State} (hs : terminal s.phase = true) (h : feed s = .next t) : t.phase = s.phase := by
  obtain ⟨-, b, l, -, h⟩ | h | ⟨-, b, h⟩ | rfl := feed_eq_next h
  · exact exec_phase_of_terminal (s := s.setLink l) hs (beginsRound_sortByte _ _ _) h
  · exact exec_phase_of_terminal hs rfl h
  · exact exec_phase_of_terminal hs (beginsRound_sortByte _ _ _) h
  · rfl

/-- A transport exception keeps STATE (R270). -/
theorem abortTxn_phase (s : State) : (abortTxn s).phase = s.phase := by
  unfold abortTxn
  split <;> rfl

/-- Triggering an operation keeps STATE (R281). -/
theorem acceptTxn_phase (o : Order) (s : State) : (acceptTxn o s).phase = s.phase := by
  unfold acceptTxn
  split <;> rfl

/-- A request of the host keeps STATE (R83, R264). -/
theorem serveReq_phase {r : HostReq} {s t : State} (h : serveReq r s = .next t) : t.phase = s.phase := by
  obtain ⟨bs, e, rfl⟩ | ⟨x, rfl⟩ | ⟨b, rfl⟩ | ⟨a, bs, -, -, rfl⟩ := serveReq_eq_next h
  all_goals rfl

/-- A move of the transaction keeps STATE where it issues no START. -/
theorem txnMove_phase {s t : State} (hr : startsRound s.session.pos = false) (h : txnMove s = .next t) : t.phase = s.phase := by
  obtain rfl | ⟨-, h⟩ := txnMove_eq_next h
  · rfl
  obtain ⟨p, -, rfl⟩ | ⟨bs, e, p, -, rfl⟩ | ⟨bs, e, rfl⟩ | ⟨hstart, -⟩ | ⟨-, bs, p, -, -, rfl⟩ | ⟨n, block, p, -, -, rfl⟩ |
    ⟨img, rfl⟩ := h
  case inr.inr.inr.inr.inl =>
    rw [hr] at hstart
    cases hstart
  all_goals rfl

/-- The host's flow keeps STATE where its transaction issues no START. -/
theorem hostMove_phase {s t : State} (hr : startsRound s.session.pos = false) (h : hostMove s = .next t) : t.phase = s.phase := by
  obtain ⟨-, rfl⟩ | ⟨-, r, rest, -, h⟩ | ⟨-, -, o, -, rfl⟩ | ⟨-, -, -, h⟩ := hostMove_eq_next h
  · exact abortTxn_phase s
  · exact serveReq_phase (s := { s with reqs := rest }) h
  · exact acceptTxn_phase o s
  · exact txnMove_phase hr h

/-- The host's own START comes at two positions of a transaction. -/
theorem startsRound_eq_false {p : Pos} (h1 : ∀ k, p ≠ .helloStart k) (h2 : ∀ k n, p ≠ .roundStart k n) : startsRound p = false := by
  cases p
  case helloStart k => exact absurd rfl (h1 k)
  case roundStart k n => exact absurd rfl (h2 k n)
  all_goals rfl

/-- Settles O9: with no reset, no START and no START of the host's own, a step is a move of the host or of the stream, and both keep STATE. -/
theorem terminalOutcomeKeptUntilStartOrReset : Obligations.TerminalOutcomeKeptUntilStartOrReset := by
  refine ⟨fun i s t hs h hne => ?_, fun s t hs hreset hstart h1 h2 h => ?_⟩
  · rw [← beginsRound_iff]
    by_contra hb
    exact hne (exec_phase_of_terminal hs (by simpa using hb) h)
  · obtain ⟨k, hk, -⟩ | ⟨-, b, hb, -⟩ | ⟨-, -, -, h⟩ | ⟨-, -, -, h⟩ := step_eq_next h
    · rw [hreset] at hk; cases hk
    · rw [hstart] at hb; cases hb
    · exact hostMove_phase (startsRound_eq_false h1 h2) h
    · exact feed_phase_of_terminal hs h

end Sys2Proof.Machine
end

section
/-! PROOFS. The band-plan codec (R130-R142): what each call answers, what an entry decoded from its ten bytes can be, and the round trip of a
plan through its image. -/

namespace Sys2Proof.Machine

/-! ### What the calls answer -/

section
variable {img : Arr} {bs : List Byte} {r : Nat} {s : State}

theorem answers_bpMagicOk (h : arrBytes 224 img s = some bs) : Answers (.bpMagicOk img) s (.bit (bpMagicOk bs)) := answerArr_next h

theorem answers_bpDecode (h : arrBytes 224 img s = some bs) : Answers (.bpDecode img) s (.plan (bpDecode bs)) := answerArr_next h

/-- Entry numbers 1..20 only: another one reads free bytes. -/
theorem answers_bpEntryDecode (h : arrBytes 224 img s = some bs) (h1 : 1 ≤ r) (h20 : r ≤ 20) :
    Answers (.bpEntryDecode img r) s (.entry (bpEntryDecode bs r)) :=
  entryAt_eq bs h1 h20 ▸ answerArr_next h

/-- Entry numbers 1..20 only: another one gives a free image. -/
theorem answers_bpEntryEncode (x : BPEntry) (h : arrBytes 224 img s = some bs) (h1 : 1 ≤ r) (h20 : r ≤ 20) :
    Answers (.bpEntryEncode img r x) s (.bytes (bpEntryEncode bs r x)) :=
  imageWithEntry_eq bs x h1 h20 ▸ answerArr_next h

/-- Block numbers 0..6 only: another one gives a free payload. -/
theorem answers_bpBlock {i : Nat} (h : arrBytes 224 img s = some bs) (hi : i < 7) :
    Answers (.bpBlock img i) s (.block (bpBlockPayload bs i) (checksum8Of (bpBlockPayload bs i))) :=
  blockAt_eq bs hi ▸ answerArr_next h

end

/-- Plans of 20 entries only: another one stands for a free plan. -/
theorem answers_bpEncode {plan : List BPEntry} (h : plan.length = 20) (s : State) :
    Answers (.bpEncode plan) s (.bytes (bpEncode plan)) := by
  show Host.Outcome.next (s.answer (.bytes (bpEncode (planOf plan)))) = _
  rw [planOf_eq h]
  rfl

/-! ### Entries -/

/-- The entry with bit 31 of its frequency words cleared, as an image stores it (R134). -/
def maskedEntry (x : BPEntry) : BPEntry := { x with startWord := freqMask x.startWord, endWord := freqMask x.endWord }

/-- What the validity test makes of an entry read from an image with the magic: itself, or BP_DEFAULT (R138). -/
def acceptedEntry (x : BPEntry) : BPEntry := if bpEntryValid x.startWord x.endWord then x else bpDefault

/-- The entries read from an image are masked already (R138). -/
theorem maskedEntry_entryFields (bs : List Byte) (r : Nat) : maskedEntry (entryFields bs r) = entryFields bs r := by
  simp only [maskedEntry, entryFields, entryStart, entryEnd, freqMask, freqMask_twice]

theorem maskedEntry_bpDefault : maskedEntry bpDefault = bpDefault := by decide

theorem acceptedEntry_bpDefault : acceptedEntry bpDefault = bpDefault := ite_self bpDefault

/-- With the magic, an entry is decided on its own fields alone (R139). -/
theorem bpEntryDecode_of_magic {bs : List Byte} (h : bpMagicOk bs = true) (r : Nat) :
    bpEntryDecode bs r = acceptedEntry (entryFields bs r) := by
  rw [bpEntryDecode, h, Bool.true_and]
  rfl

/-- Without the magic every entry is BP_DEFAULT (R139). -/
theorem bpEntryDecode_of_not_magic {bs : List Byte} (h : ¬ bpMagicOk bs = true) (r : Nat) : bpEntryDecode bs r = bpDefault := by
  rw [bpEntryDecode, Bool.eq_false_iff.2 h, Bool.false_and]
  rfl

/-- The two conditions under which an entry is populated, over bytes and naturals (R138). -/
theorem entryPopulated_iff (bs : List Byte) (r : Nat) :
    (bpMagicOk bs && bpEntryValid (entryStart bs r) (entryEnd bs r)) = true ↔
      byteAt bs 0 = 0x6D ∧ byteAt bs 1 = 0xA4 ∧ 1800000 ≤ (entryStart bs r).toNat ∧
        (entryStart bs r).toNat < (entryEnd bs r).toNat ∧ (entryEnd bs r).toNat ≤ 130000000 := by
  rw [Bool.and_eq_true, bpMagicOk_iff, bpEntryValid_iff, and_assoc]

/-- The magic test reads bytes 0 and 1 only (R136). -/
theorem bpMagicOk_congr {bs bs' : List Byte} (h0 : byteAt bs 0 = byteAt bs' 0) (h1 : byteAt bs 1 = byteAt bs' 1) :
    bpMagicOk bs = bpMagicOk bs' := by
  rw [bpMagicOk, bpMagicOk, h0, h1]

/-- The fields of entry `r` are read from its ten bytes only (R70). -/
theorem entryFields_congr {bs bs' : List Byte} {r : Nat}
    (h : ∀ k, k < 10 → byteAt bs (entryBase r + k) = byteAt bs' (entryBase r + k)) : entryFields bs r = entryFields bs' r := by
  have hs : memRead32 bs (entryBase r) = memRead32 bs' (entryBase r) := memRead32_congr fun k hk => h k (by omega)
  have he : memRead32 bs (entryBase r + 4) = memRead32 bs' (entryBase r + 4) :=
    memRead32_congr fun k hk => by simpa only [Nat.add_assoc] using h (4 + k) (by omega)
  simp only [entryFields, entryStart, entryEnd, hs, he, h 8 (by decide), h 9 (by decide)]

/-- Decoding entry `r` reads the magic and its ten bytes only (R138, R139). -/
theorem bpEntryDecode_congr {bs bs' : List Byte} {r : Nat} (hm : bpMagicOk bs = bpMagicOk bs')
    (h : ∀ k, k < 10 → byteAt bs (entryBase r + k) = byteAt bs' (entryBase r + k)) : bpEntryDecode bs r = bpEntryDecode bs' r := by
  by_cases hb : bpMagicOk bs = true
  · rw [bpEntryDecode_of_magic hb, bpEntryDecode_of_magic (hm ▸ hb), entryFields_congr h]
  · rw [bpEntryDecode_of_not_magic hb, bpEntryDecode_of_not_magic (hm ▸ hb)]

/-- Masking and testing a decoded entry once more changes nothing (R142). -/
theorem acceptedEntry_bpEntryDecode (bs : List Byte) (r : Nat) :
    acceptedEntry (maskedEntry (bpEntryDecode bs r)) = bpEntryDecode bs r := by
  have hdefault : acceptedEntry (maskedEntry bpDefault) = bpDefault := by
    rw [maskedEntry_bpDefault, acceptedEntry_bpDefault]
  by_cases hm : bpMagicOk bs = true
  · rw [bpEntryDecode_of_magic hm]
    by_cases hv : bpEntryValid (entryFields bs r).startWord (entryFields bs r).endWord = true
    · have ha : acceptedEntry (entryFields bs r) = entryFields bs r := if_pos hv
      rw [ha, maskedEntry_entryFields, ha]
    · have ha : acceptedEntry (entryFields bs r) = bpDefault := if_neg hv
      rw [ha, hdefault]
  · rw [bpEntryDecode_of_not_magic hm, hdefault]

/-! ### Plans -/

/-- Entry `k + 1` of an encoded image holds the plan's entry, masked (R134, R135). -/
theorem entryFields_bpEncode {plan : List BPEntry} (h : plan.length = 20) {k : Nat} {x : BPEntry} (hx : plan[k]? = some x) :
    entryFields (bpEncode plan) (k + 1) = maskedEntry x := by
  obtain ⟨hs, he, hp, hf⟩ := bpEncode_entry plan h k x hx
  have hbase : entryBase (k + 1) = 2 + k * 10 := rfl
  simp only [entryFields, entryStart, entryEnd, hbase, hs, he, hp, hf, entryFlags, bpFlagsUnpack_pack_fields, maskedEntry, freqMask,
    freqMask_twice]

/-- Encoding a plan and decoding the image masks and tests each entry (R141). -/
theorem bpDecode_bpEncode {plan : List BPEntry} (h : plan.length = 20) :
    bpDecode (bpEncode plan) = plan.map fun x => acceptedEntry (maskedEntry x) := by
  refine List.ext_getElem (by rw [bpDecode_length, List.length_map, h]) fun k hk hk' => ?_
  have hx : plan[k]? = some (plan[k]'(by rwa [List.length_map] at hk')) := List.getElem?_eq_getElem _
  rw [← Option.some_inj, ← List.getElem?_eq_getElem hk, bpDecode_get _ _ (by rwa [bpDecode_length] at hk),
    List.getElem_map, bpEntryDecode_of_magic (bpEncode_magic plan h), entryFields_bpEncode h hx]

/-- The entries of a decoded plan are what the entries decode to (R139). -/
theorem mem_bpDecode {bs : List Byte} {x : BPEntry} (h : x ∈ bpDecode bs) : ∃ r, 1 ≤ r ∧ r ≤ 20 ∧ bpEntryDecode bs r = x := by
  obtain ⟨k, hk, hx⟩ := List.mem_map.1 h
  exact ⟨k + 1, Nat.le_add_left 1 k, List.mem_range.1 hk, hx⟩

/-- Decoding the encoding of a decoded plan gives that plan (R142). -/
theorem bpDecode_bpEncode_bpDecode (bs : List Byte) : bpDecode (bpEncode (bpDecode bs)) = bpDecode bs := by
  rw [bpDecode_bpEncode (bpDecode_length bs)]
  refine (List.map_congr_left fun x hx => ?_).trans (List.map_id _)
  obtain ⟨r, -, -, rfl⟩ := mem_bpDecode hx
  exact acceptedEntry_bpEntryDecode bs r

/-- Entry `r` of a decoded plan, counted from 1 as the spec does (R139). -/
theorem bpDecode_getElem?_pred (bs : List Byte) {r : Nat} (h1 : 1 ≤ r) (h20 : r ≤ 20) :
    (bpDecode bs)[r - 1]? = some (bpEntryDecode bs r) := by
  rw [bpDecode_get bs (r - 1) (by omega), Nat.sub_add_cancel h1]

/-- Decoding reads bytes 0..201 only (R139). -/
theorem bpDecode_congr {bs bs' : List Byte} (h : ∀ a, a < 202 → byteAt bs a = byteAt bs' a) : bpDecode bs = bpDecode bs' := by
  refine List.map_congr_left fun k hk => ?_
  have hk : k < 20 := List.mem_range.1 hk
  have hbase : entryBase (k + 1) = 2 + k * 10 := rfl
  exact bpEntryDecode_congr (bpMagicOk_congr (h 0 (by decide)) (h 1 (by decide))) fun j hj => h _ (by omega)

/-! ### The obligations -/

/-- Settles O21: decoding the image masks and tests each entry of the plan, and the test is R137 over the naturals. -/
theorem bandPlanRoundTrip : Obligations.BandPlanRoundTrip := by
  intro plan s h
  refine ⟨bpEncode plan, bpDecode (bpEncode plan), answers_bpEncode h s, answers_bpDecode (arrBytes_lit s (bpEncode_length plan h)),
    bpDecode_length _, fun k x hx => ?_⟩
  rw [bpDecode_bpEncode h, List.getElem?_map, hx]
  exact congrArg some (if_congr (bpEntryValid_iff _ _) rfl rfl)

/-- Settles O22: a decoded entry is masked and valid, or BP_DEFAULT, and encoding and decoding keeps both. -/
theorem decodeIdempotentThroughEncode : Obligations.DecodeIdempotentThroughEncode := by
  intro img bs s _ hbs
  have hlen : (bpDecode bs).length = 20 := bpDecode_length bs
  have hagain := answers_bpDecode (arrBytes_lit s (bpEncode_length _ hlen))
  rw [bpDecode_bpEncode_bpDecode] at hagain
  exact ⟨bpDecode bs, bpEncode (bpDecode bs), answers_bpDecode hbs, answers_bpEncode hlen s, hagain⟩

/-- Settles O15: read after write at the entry's base, and the frame of that write. -/
theorem entryEncodeWritesTenBytes : Obligations.EntryEncodeWritesTenBytes := by
  intro img bs r x s _ hbs h1 h20
  have hbase : entryBase r = 2 + (r - 1) * 10 := rfl
  have hfit : entryBase r + 10 ≤ bs.length := by rw [arrBytes_length hbs]; omega
  obtain ⟨hs, he, hp, hf⟩ := entryBytes_at x hfit
  refine ⟨bpEntryEncode bs r x, answers_bpEntryEncode x hbs h1 h20, (memWrite_length hfit).trans (arrBytes_length hbs), hs, he, hp, ?_,
    fun a ha => byteAt_memWrite_out hfit ha⟩
  exact (congrArg BitVec.toNat hf).trans (bpFlagsPack_toNat x.tx x.wrap x.mod x.bw)

/-- Settles O16: the layout of an encoded image, part by part. -/
theorem planEncodeLaysOutImage : Obligations.PlanEncodeLaysOutImage := by
  intro plan s h
  obtain ⟨h0, h1⟩ := (bpMagicOk_iff _).1 (bpEncode_magic plan h)
  refine ⟨bpEncode plan, answers_bpEncode h s, bpEncode_length plan h, h0, h1, fun r x _ hx => ?_, fun a => bpEncode_tail plan h⟩
  obtain ⟨hs, he, hp, hf⟩ := bpEncode_entry plan h (r - 1) x hx
  exact ⟨hs, he, hp, hf ▸ bpFlagsUnpack_pack_fields x.tx x.wrap x.mod x.bw⟩

/-- Settles O18: the branches of R138, its condition read over bytes and naturals. -/
theorem entryDecodeAcceptsOrDefaults : Obligations.EntryDecodeAcceptsOrDefaults := by
  intro img bs r s _ hbs h1 h20
  have hiff := entryPopulated_iff bs r
  exact ⟨bpEntryDecode bs r, answers_bpEntryDecode hbs h1 h20, fun hgood => if_pos (hiff.2 hgood),
    fun hbad => if_neg fun hok => hbad (hiff.1 hok)⟩

/-- Settles O19: entry by entry, from what the decoding of one entry reads. -/
theorem planDecodeIsEntrywise : Obligations.PlanDecodeIsEntrywise := by
  refine ⟨fun img bs s _ hbs => ?_, fun bs bs' r s hl hl' h1 h20 h0 hA h0' hA' hten => ?_, fun bs bs' s hl hl' h => ?_⟩
  · refine ⟨bpDecode bs, answers_bpDecode hbs, bpDecode_length bs, fun r h1 h20 => ?_, fun hbad x hx => ?_⟩
    · exact ⟨bpEntryDecode bs r, bpDecode_getElem?_pred bs h1 h20, answers_bpEntryDecode hbs h1 h20⟩
    · obtain ⟨r, -, -, rfl⟩ := mem_bpDecode hx
      exact bpEntryDecode_of_not_magic (fun hm => hbad ((bpMagicOk_iff bs).1 hm)) r
  · have hsame : bpEntryDecode bs r = bpEntryDecode bs' r :=
      bpEntryDecode_congr (bpMagicOk_congr (h0.trans h0'.symm) (hA.trans hA'.symm)) hten
    exact ⟨bpDecode bs, bpDecode bs', bpEntryDecode bs r, answers_bpDecode (arrBytes_lit s hl), answers_bpDecode (arrBytes_lit s hl'),
      bpDecode_getElem?_pred bs h1 h20, hsame ▸ bpDecode_getElem?_pred bs' h1 h20⟩
  · have hleft := answers_bpDecode (arrBytes_lit s hl)
    rw [bpDecode_congr h] at hleft
    exact hleft.trans (answers_bpDecode (arrBytes_lit s hl')).symm

/-- Settles O20: the seven blocks lie inside the image, so each is a full slice of it. -/
theorem blockIsSliceAndChecksum : Obligations.BlockIsSliceAndChecksum := by
  intro img bs n s _ hbs hn
  have hfit : 32 * n + 32 ≤ bs.length := by rw [arrBytes_length hbs]; omega
  exact ⟨bpBlockPayload bs n, checksum8Of (bpBlockPayload bs n), answers_bpBlock hbs hn, slice_length bs _ 32 hfit,
    fun k hk => slice_get bs _ 32 k hfit hk, checksum8Of_toNat _⟩

/-- Settles O14: the two calls are inverse in both directions, and the packed byte is the sum of R132. -/
theorem flagsBytePacksAndUnpacks : Obligations.FlagsBytePacksAndUnpacks := by
  refine ⟨fun tx wrap mod bw s => ?_, fun f s => ?_⟩
  · have hback : Answers (.bpFlagsUnpack (bpFlagsPack ⟨tx, wrap, mod, bw⟩)) s (.flags ⟨tx, wrap, mod, bw⟩) :=
      congrArg (fun x => Host.Outcome.next (s.answer (.flags x))) (bpFlagsUnpack_pack_fields tx wrap mod bw)
    exact ⟨bpFlagsPack ⟨tx, wrap, mod, bw⟩, rfl, bpFlagsPack_toNat tx wrap mod bw, hback⟩
  · refine ⟨bpFlagsUnpack f, rfl, ?_⟩
    rw [← bpFlagsPack_toNat, bpFlagsPack_unpack]

/-- Settles O17: the tests of R136 and R137 over bytes and naturals. -/
theorem magicAndValidityTests : Obligations.MagicAndValidityTests :=
  ⟨fun _ bs _ _ hbs => ⟨bpMagicOk bs, answers_bpMagicOk hbs, bpMagicOk_iff bs⟩,
    fun a b _ => ⟨bpEntryValid a b, rfl, bpEntryValid_iff a b⟩⟩

end Sys2Proof.Machine
end

section
/-! PROOFS. The channel codec (R160-R169): what each call answers, what a block reads as, and the round trip of a record through its block. -/

namespace Sys2Proof.Machine

/-! ### What the calls answer -/

section
variable {block : Arr} {bs : List Byte} {s : State}

theorem answers_chNamePack (name : List Byte) (h : arrBytes 33 block s = some bs) :
    Answers (.chNamePack block name) s (.bytes (chNamePack bs name)) := answerArr_next h

theorem answers_chNameUnpack (h : arrBytes 33 block s = some bs) : Answers (.chNameUnpack block) s (.bytes (chNameUnpack bs)) :=
  answerArr_next h

theorem answers_chDecode (h : arrBytes 33 block s = some bs) : Answers (.chDecode block) s (.record (chDecode bs)) := answerArr_next h

end

/-! ### The mode byte -/

/-- R163 over the naturals: bits 7:4 do not matter. -/
theorem chModeUnpack_toNat (m : Byte) : (chModeUnpack m).bw.toNat = m.toNat % 2 ∧ (chModeUnpack m).mod.toNat = m.toNat / 2 % 8 := by
  simp [chModeUnpack, Nat.shiftRight_eq_div_pow]

/-! ### The name field -/

/-- Packing a name writes its field at 20..31 and leaves the rest of the block (R164). -/
theorem chNamePack_layout {bs : List Byte} (h : bs.length = 33) (name : List Byte) : (chNamePack bs name).length = 33 ∧
    (∀ k, k < 12 → byteAt (chNamePack bs name) (20 + k) = name.getD k 0) ∧
    ∀ a, a < 20 ∨ a = 32 → byteAt (chNamePack bs name) a = byteAt bs a := by
  have hl : (nameField name).length = 12 := nameField_length name
  have hfit : 20 + (nameField name).length ≤ bs.length := by omega
  refine ⟨(memWrite_length hfit).trans h, fun k hk => ?_, fun a ha => byteAt_memWrite_out hfit (by omega)⟩
  calc byteAt (chNamePack bs name) (20 + k)
      = byteAt (nameField name) (20 + k - 20) := byteAt_memWrite_in hfit (by omega) (by omega)
    _ = name.getD k 0 := by rw [Nat.add_sub_cancel_left, nameField_at name k hk]

/-- The name read from a block is what stands at 20..31 before the first zero byte (R165). -/
theorem chNameUnpack_reads {bs : List Byte} (h : bs.length = 33) : (chNameUnpack bs).length ≤ 12 ∧
    (∀ k, k < (chNameUnpack bs).length → byteAt (chNameUnpack bs) k = byteAt bs (20 + k) ∧ byteAt bs (20 + k) ≠ 0) ∧
    ((chNameUnpack bs).length = 12 ∨ byteAt bs (20 + (chNameUnpack bs).length) = 0) := by
  have hfit : 20 + 12 ≤ bs.length := by omega
  have hbyte {k : Nat} (hk : k < 12) : byteAt (slice bs 20 12) k = byteAt bs (20 + k) := byteAt_slice bs 20 12 k hfit hk
  obtain ⟨hle, hbytes, hend⟩ := takeWhile_nonzero (slice bs 20 12)
  rw [slice_length bs 20 12 hfit] at hle hend
  refine ⟨hle, fun k hk => hbyte (hk.trans_le hle) ▸ hbytes k hk, ?_⟩
  obtain hfull | hshort := hle.eq_or_lt
  · exact .inl hfull
  · exact hbyte hshort ▸ hend

/-- Cutting a name to 12 bytes first does not change its field (R164). -/
theorem nameField_take (name : List Byte) : nameField (name.take 12) = nameField name := by
  have hpad : 12 - min 12 name.length = 12 - name.length := by omega
  simp [nameField, List.take_take, hpad]

/-- A name without zero bytes reads back from its field cut to 12 bytes (R164, R165). -/
theorem takeWhile_nameField_take {name : List Byte} (h : (0 : Byte) ∉ name) :
    (nameField name).takeWhile (fun b => b != 0) = name.take 12 := by
  rw [← nameField_take]
  exact takeWhile_nameField _ (List.length_take_le 12 name) fun h0 => h (List.mem_of_mem_take h0)

/-! ### Blocks -/

theorem byteAt_take {bs : List Byte} {n a : Nat} (h : a < n) : byteAt (bs.take n) a = byteAt bs a := by
  simp only [byteAt, List.getD_eq_getElem?_getD, List.getElem?_take_of_lt h]

/-- The fields of a record stand in bytes 0..31 (R82). -/
theorem chRecordOf_take (bs : List Byte) : chRecordOf (bs.take 32) = chRecordOf bs := by
  have hname : chNameUnpack (bs.take 32) = chNameUnpack bs := by
    simp [chNameUnpack, slice, List.drop_take, List.take_take]
  simp (disch := decide) only [chRecordOf, hname, memRead32, memRead16, byteAt_take]

/-- Decoding does not look at the checksum (R169). -/
theorem chDecode_take (bs : List Byte) : chDecode (bs.take 32) = chDecode bs := by
  have hrx : memRead32 (bs.take 32) 0 = memRead32 bs 0 := congrArg ChRecord.rxWord (chRecordOf_take bs)
  rw [chDecode, chDecode, hrx, chRecordOf_take]

/-- The name field of an encoded record (R166). -/
theorem slice_chEncode_name (c : ChRecord) : slice (chEncode c) 20 12 = nameField c.name := by
  have hfit : 20 + 12 ≤ (chEncode c).length := by rw [chEncode_length]; decide
  have hl : (slice (chEncode c) 20 12).length = 12 := slice_length _ _ _ hfit
  refine eq_of_byteAt (hl.trans (nameField_length _).symm) fun k hk => ?_
  obtain ⟨-, -, -, -, -, -, -, -, hname⟩ := chHead_fields c [checksum8Of (chHead c)]
  rw [byteAt_slice _ _ _ _ hfit (hl ▸ hk), chEncode_eq, hname k (hl ▸ hk)]

/-- The name read from an encoded record (R165, R166). -/
theorem chNameUnpack_chEncode {c : ChRecord} (h : (0 : Byte) ∉ c.name) : chNameUnpack (chEncode c) = c.name.take 12 := by
  rw [chNameUnpack, Config.nameLen, slice_chEncode_name, takeWhile_nameField_take h]

/-- Every field of an encoded record but the name reads back as it was (R166, R167). -/
theorem chRecordOf_chEncode (c : ChRecord) : chRecordOf (chEncode c) = { c with name := chNameUnpack (chEncode c) } := by
  obtain ⟨hrx, htx, hrxTone, htxTone, hpower, hgroups, hmode, -, -⟩ := chHead_fields c [checksum8Of (chHead c)]
  rw [← chEncode_eq] at hrx htx hrxTone htxTone hpower hgroups hmode
  have hunpack := (chModeUnpack_pack_fields c.bw c.mod).1
  simp only [chRecordOf, hrx, htx, hrxTone, htxTone, hpower, hgroups, hmode, hunpack, chMode]

/-- The two cases of R167 for an encoded record. -/
theorem chDecode_chEncode (c : ChRecord) :
    chDecode (chEncode c) = if c.rxWord = 0 then chInactive else { c with name := chNameUnpack (chEncode c) } := by
  have hrx : memRead32 (chEncode c) 0 = c.rxWord := congrArg ChRecord.rxWord (chRecordOf_chEncode c)
  rw [chDecode, hrx, chRecordOf_chEncode]

/-- The last byte of an encoded record sums the 32 before it (R166). -/
theorem chEncode_checksum (c : ChRecord) : byteAt (chEncode c) 32 = checksum8Of ((chEncode c).take 32) := by
  have hl : (chHead c).length = 32 := chHead_length c
  rw [chEncode_eq, List.take_left' hl, byteAt, List.getD_append_right _ _ _ _ hl.le, hl]
  rfl

/-! ### The obligations -/

/-- Settles O27: the fields of an encoded record read back, and its name as the name field holds it. -/
theorem channelRoundTrip : Obligations.ChannelRoundTrip := by
  intro c s
  refine ⟨chEncode c, chDecode (chEncode c), rfl, answers_chDecode (arrBytes_lit s (chEncode_length c)), fun hrx => ?_, fun hrx h0 => ?_⟩
  · exact (chDecode_chEncode c).trans (if_pos hrx)
  · have hback : chDecode (chEncode c) = { c with name := c.name.take 12 } := by
      rw [chDecode_chEncode, if_neg hrx, chNameUnpack_chEncode h0]
    exact ⟨hback, fun hshort => by rw [hback, List.take_of_length_le hshort]⟩

/-- Settles O24: the write of the name field with its frame, and the reading of it. -/
theorem nameFieldPacksAndUnpacks : Obligations.NameFieldPacksAndUnpacks := by
  intro block bs s _ hbs
  have hlen : bs.length = 33 := arrBytes_length hbs
  exact ⟨fun name => ⟨chNamePack bs name, answers_chNamePack name hbs, chNamePack_layout hlen name⟩,
    chNameUnpack bs, answers_chNameUnpack hbs, chNameUnpack_reads hlen⟩

/-- Settles O25: an encoded record is its 32 payload bytes, laid out by R82, and their sum. -/
theorem channelEncodeLaysOutBlock : Obligations.ChannelEncodeLaysOutBlock := by
  intro c s
  obtain ⟨hrx, htx, hrxTone, htxTone, hpower, hgroups, hmode, hzeros, hname⟩ := chHead_fields c [checksum8Of (chHead c)]
  rw [← chEncode_eq] at hrx htx hrxTone htxTone hpower hgroups hmode
  refine ⟨chEncode c, rfl, chEncode_length c, hrx, htx, hrxTone, htxTone, hpower, hgroups, ?_, ?_, fun _ k hk => ?_, ?_⟩
  · rw [hmode]
    exact chModePack_toNat c.bw c.mod
  · rwa [chEncode_eq]
  · rw [chEncode_eq, hname k hk, nameField_at c.name k hk]
  · rw [chEncode_checksum, checksum8Of_toNat]

/-- Settles O26: the two branches of R167, and decoding stops before byte 32. -/
theorem channelDecodeReadsFields : Obligations.ChannelDecodeReadsFields := by
  refine ⟨fun block bs s _ hbs => ?_, fun bs k s hlen => ?_⟩
  · have hanswer := answers_chDecode hbs
    refine ⟨fun hrx => ?_, fun hrx => ⟨chNameUnpack bs, answers_chNameUnpack hbs, ?_⟩⟩
    · rwa [chDecode, if_pos hrx] at hanswer
    · rwa [chDecode, if_neg hrx] at hanswer
  · have hsame : chDecode (bs.set 32 k) = chDecode bs := by
      rw [← chDecode_take, List.take_set_of_le le_rfl, chDecode_take]
    have hset : (bs.set 32 k).length = 33 := List.length_set.trans hlen
    have hanswer := answers_chDecode (arrBytes_lit s hset)
    rw [hsame] at hanswer
    exact hanswer.trans (answers_chDecode (arrBytes_lit s hlen)).symm

/-- Settles O23: unpacking inverts packing, and both are read over the naturals. -/
theorem modeBytePacksAndUnpacks : Obligations.ModeBytePacksAndUnpacks := by
  refine ⟨fun bw mod s => ?_, fun m s => ⟨chModeUnpack m, rfl, chModeUnpack_toNat m⟩⟩
  have hback : Answers (.chModeUnpack (chModePack ⟨bw, mod⟩)) s (.mode ⟨bw, mod⟩) :=
    congrArg (fun x => Host.Outcome.next (s.answer (.mode x))) (chModeUnpack_pack_fields bw mod).1
  exact ⟨chModePack ⟨bw, mod⟩, rfl, chModePack_toNat bw mod, hback⟩

end Sys2Proof.Machine
end

section
/-! PROOFS. The word sub-codecs (R190-R200): each call gives its pure function's value back, and what that value is over the naturals. -/

namespace Sys2Proof.Machine

/-! ### What the calls answer -/

/-- A codec call has one answer: the result it gives back. -/
theorem answers_iff_of_giveBack {i : Instr} {s : State} {r r' : Ret} (h : exec i s = giveBack r s) : Answers i s r' ↔ r = r' := by
  rw [Answers, h]
  exact ⟨fun hnext => congrArg State.ret (Host.Outcome.next.inj hnext), fun hr => hr ▸ rfl⟩

section
variable {s : State}

theorem answers_le16Pack {v : Half} {bs : List Byte} : Answers (.le16PackUnpack (.pack v)) s (.bytes bs) ↔ le16Pack v = bs :=
  (answers_iff_of_giveBack rfl).trans (Ret.bytes.injEq _ _).to_iff

theorem answers_le16Unpack {b0 b1 : Byte} {v : Half} : Answers (.le16PackUnpack (.unpack b0 b1)) s (.half v) ↔ le16Unpack b0 b1 = v :=
  (answers_iff_of_giveBack rfl).trans (Ret.half.injEq _ _).to_iff

theorem answers_le32Pack {v : Word} {bs : List Byte} : Answers (.le32PackUnpack (.pack v)) s (.bytes bs) ↔ le32Pack v = bs :=
  (answers_iff_of_giveBack rfl).trans (Ret.bytes.injEq _ _).to_iff

theorem answers_le32Unpack {b0 b1 b2 b3 : Byte} {v : Word} :
    Answers (.le32PackUnpack (.unpack b0 b1 b2 b3)) s (.word v) ↔ le32Unpack b0 b1 b2 b3 = v :=
  (answers_iff_of_giveBack rfl).trans (Ret.word.injEq _ _).to_iff

theorem answers_checksum8 {p : Arr} {bs : List Byte} (h : arrBytes 32 p s = some bs) :
    Answers (.checksum8 p) s (.byte (checksum8Of bs)) := answerArr_next h

theorem answers_toneClassify {w : Half} {t : Tone} : Answers (.toneClassify w) s (.tone t) ↔ toneClassify w = t :=
  (answers_iff_of_giveBack rfl).trans (Ret.tone.injEq _ _).to_iff

theorem answers_toneCompose {t : Tone} {w : Half} : Answers (.toneCompose t) s (.half w) ↔ toneWordFor t = w :=
  (answers_iff_of_giveBack rfl).trans (Ret.half.injEq _ _).to_iff

theorem answers_dcsCode {d2 d1 d0 : BitVec 3} {c : BitVec 9} : Answers (.dcsDigits (.code d2 d1 d0)) s (.code c) ↔ dcsCode d2 d1 d0 = c :=
  (answers_iff_of_giveBack rfl).trans (Ret.code.injEq _ _).to_iff

theorem answers_dcsDigits {c : BitVec 9} {d2 d1 d0 : BitVec 3} :
    Answers (.dcsDigits (.digits c)) s (.digits d2 d1 d0) ↔ dcsDigits c = (d2, d1, d0) := by
  rw [answers_iff_of_giveBack rfl, Ret.digits.injEq, Prod.ext_iff, Prod.ext_iff]

theorem answers_groupUnpack {g : Half} {vs : List Byte} : Answers (.groupUnpack g) s (.bytes vs) ↔ groupUnpack g = vs :=
  (answers_iff_of_giveBack rfl).trans (Ret.bytes.injEq _ _).to_iff

/-- Lists of values that R198 names only: another one gives a free word. -/
theorem answers_groupPack {vs : List Byte} (h : ∀ x ∈ vs, 1 ≤ x.toNat ∧ x.toNat ≤ 16 ∧ (x = 16 → s.params.groupP = .overflow)) :
    Answers (.groupPack vs) s (.half (groupPack vs)) :=
  (answers_iff_of_giveBack rfl).2 (congrArg Ret.half (groupWordFor_eq h))

end

/-! ### Little-endian words -/

/-- A byte put below a bit vector is its residue modulo 256. -/
theorem append_byte_toNat {n : Nat} (x : BitVec n) (b : Byte) : (x ++ b).toNat = b.toNat + 256 * x.toNat := by
  rw [BitVec.toNat_append, ← Nat.shiftLeft_add_eq_or_of_lt b.isLt, Nat.shiftLeft_eq]
  omega

/-- R190 over the naturals. -/
theorem le16Unpack_toNat (b0 b1 : Byte) : (le16Unpack b0 b1).toNat = b0.toNat + 256 * b1.toNat := append_byte_toNat b1 b0

/-- R191 over the naturals. -/
theorem le32Unpack_toNat (b0 b1 b2 b3 : Byte) :
    (le32Unpack b0 b1 b2 b3).toNat = b0.toNat + 256 * b1.toNat + 65536 * b2.toNat + 16777216 * b3.toNat := by
  rw [le32Unpack, append_byte_toNat, append_byte_toNat, append_byte_toNat]
  omega

/-! ### The block checksum -/

/-- The sum of bytes does not depend on their order (R193). -/
theorem checksum8Of_perm {ps qs : List Byte} (h : ps.Perm qs) : checksum8Of ps = checksum8Of qs := by
  apply BitVec.eq_of_toNat_eq
  rw [checksum8Of_toNat, checksum8Of_toNat, sumMod256, sumMod256, (h.map BitVec.toNat).sum_eq]

/-! ### Tone words -/

/-- The code field of a tone word over the naturals (R76). -/
theorem toneCode_eq (w : Half) : w.extractLsb' 0 9 = BitVec.ofNat 9 (w.toNat % 512) := by
  apply BitVec.eq_of_toNat_eq
  simp

/-- The polarity bit of a tone word over the naturals (R76). -/
theorem tonePolarity_eq (w : Half) : w.extractLsb' 14 1 = BitVec.ofNat 1 (w.toNat / 16384 % 2) := by
  apply BitVec.eq_of_toNat_eq
  simp [Nat.shiftRight_eq_div_pow]

/-- R194 over the naturals. -/
theorem toneClassify_eq (w : Half) : toneClassify w =
    if 1 ≤ w.toNat ∧ w.toNat ≤ 3000 then .ctcss w
    else if 32768 ≤ w.toNat then
      if w.toNat % 16384 < 512 then .dcs (BitVec.ofNat 9 (w.toNat % 512)) (BitVec.ofNat 1 (w.toNat / 16384 % 2)) else .off
    else .off := by
  simp only [toneClassify, Config.ctcssMax, and_8000, and_3fff, toneCode_eq, tonePolarity_eq]

/-- The word of a DCS tone is classified as that tone (R195). -/
theorem toneClassify_dcs (code : BitVec 9) (inv : BitVec 1) : toneClassify (toneCompose (.dcs code inv)) = .dcs code inv := by
  have hn : (toneCompose (.dcs code inv)).toNat = 32768 + 16384 * inv.toNat + code.toNat := dcsWord_toNat code inv
  obtain ⟨-, hcode, hinv⟩ := dcsWord_fields code inv
  have hc : code.toNat < 512 := code.isLt
  rw [toneClassify_eq, if_neg (by omega), if_pos (by omega), if_pos (by omega), ← toneCode_eq, ← tonePolarity_eq]
  exact congrArg₂ Tone.dcs hcode hinv

/-! ### DCS digits -/

/-- The inverse of R196 over the naturals: three octal digits stay below 512. -/
theorem dcsCode_toNat (d2 d1 d0 : BitVec 3) : (dcsCode d2 d1 d0).toNat = d2.toNat * 64 + d1.toNat * 8 + d0.toNat := by
  have h2 : d2.toNat < 8 := d2.isLt
  have h1 : d1.toNat < 8 := d1.isLt
  have h0 : d0.toNat < 8 := d0.isLt
  rw [dcsCode, BitVec.toNat_ofNat]
  omega

/-- R196 over the naturals: the digits are quotients and residues by 8. -/
theorem dcsDigits_toNat (c : BitVec 9) : (dcsDigits c).1.toNat = c.toNat / 64 ∧ (dcsDigits c).2.1.toNat = c.toNat / 8 % 8 ∧
    (dcsDigits c).2.2.toNat = c.toNat % 8 := by
  have hc : c.toNat < 512 := c.isLt
  have hsmall : c.toNat / 64 % 8 = c.toNat / 64 := by omega
  simpa [dcsDigits, Nat.shiftRight_eq_div_pow] using hsmall

/-- The digits of a code give it back (R196). -/
theorem dcsCode_dcsDigits (c : BitVec 9) : dcsCode (dcsDigits c).1 (dcsDigits c).2.1 (dcsDigits c).2.2 = c := by
  obtain ⟨h2, h1, h0⟩ := dcsDigits_toNat c
  apply BitVec.eq_of_toNat_eq
  rw [dcsCode_toNat]
  omega

/-- Any three octal digits are those of their code (R196). -/
theorem dcsDigits_dcsCode (d2 d1 d0 : BitVec 3) : dcsDigits (dcsCode d2 d1 d0) = (d2, d1, d0) := by
  obtain ⟨h2, h1, h0⟩ := dcsDigits_toNat (dcsCode d2 d1 d0)
  rw [dcsCode_toNat] at h2 h1 h0
  simp only [Prod.ext_iff, BitVec.toNat_eq, h2, h1, h0]
  omega

/-! ### Group words -/

/-- R197 over the naturals. -/
theorem groupUnpack_map_toNat (g : Half) : (groupUnpack g).map BitVec.toNat =
    [g.toNat % 16, g.toNat / 16 % 16, g.toNat / 256 % 16, g.toNat / 4096 % 16].filter (fun n => n != 0) := by
  have hn : [nibble g 0, nibble g 1, nibble g 2, nibble g 3].map BitVec.toNat =
      [g.toNat % 16, g.toNat / 16 % 16, g.toNat / 256 % 16, g.toNat / 4096 % 16] := by simp [nibble_toNat]
  have hp (v : Byte) : (v != 0) = (v.toNat != 0) := by simp [bne, BitVec.toNat_eq]
  rw [← hn, List.filter_map, groupUnpack, List.filter_congr fun v _ => hp v]
  rfl

/-- Nibble `j` of the word of values up to 15 is the `j`-th value (R198). -/
theorem groupPack_nibble {vs : List Byte} (h : ∀ x ∈ vs, x.toNat ≤ 15) :
    ∀ j, j < 4 → (groupPack vs).toNat / 16 ^ j % 16 = (vs.getD j 0).toNat := by
  induction vs with
  | nil => intro j _; simp [groupPack]
  | cons v vs ih =>
    obtain ⟨hv, hvs⟩ := List.forall_mem_cons.1 h
    rintro (_ | j) hj
    · rw [groupPack_cons_toNat v vs hv, List.getD_cons_zero]
      omega
    · rw [groupPack_cons_toNat v vs hv, List.getD_cons_succ, ← ih hvs j (by omega)]
      have hj3 : j < 3 := by omega
      interval_cases j <;> omega

/-- Up to four values 1..15 survive packing and unpacking, in their order (R200). -/
theorem groupUnpack_groupPack {vs : List Byte} (h : ∀ x ∈ vs, 1 ≤ x.toNat ∧ x.toNat ≤ 15) (hlen : vs.length ≤ 4) :
    groupUnpack (groupPack vs) = vs := by
  have hnibble {k : Nat} (hk : k < 4) : nibble (groupPack vs) k = vs.getD k 0 := by
    apply BitVec.eq_of_toNat_eq
    rw [nibble_toNat, Nat.pow_mul]
    exact groupPack_nibble (fun x hx => (h x hx).2) k hk
  have hpad : [vs.getD 0 0, vs.getD 1 0, vs.getD 2 0, vs.getD 3 0] = vs ++ List.replicate (4 - vs.length) 0 := by
    match vs, hlen with
    | [], _ | [_], _ | [_, _], _ | [_, _, _], _ | [_, _, _, _], _ => rfl
  have hkept : ∀ x ∈ vs, (x != 0) = true := by
    intro x hx
    rw [bne_iff_ne]
    rintro rfl
    exact absurd (h 0 hx).1 (by decide)
  rw [groupUnpack, hnibble (by decide), hnibble (by decide), hnibble (by decide), hnibble (by decide), hpad, List.filter_append,
    List.filter_eq_self.2 hkept]
  simp

/-! ### The obligations -/

/-- Settles O28: packing and unpacking are inverse, and the unpacked word is read over the naturals. -/
theorem littleEndianWords : Obligations.LittleEndianWords := by
  refine ⟨fun v s => ?_, fun b0 b1 s => ?_, fun v s => ?_, fun b0 b1 b2 b3 s => ?_⟩
  · refine ⟨_, _, answers_le16Pack.2 rfl, ?_, answers_le16Unpack.2 (le16Unpack_pack v)⟩
    rw [← le16Unpack_toNat, le16Unpack_pack]
  · exact ⟨_, answers_le16Unpack.2 rfl, answers_le16Pack.2 (le16Pack_unpack b0 b1)⟩
  · refine ⟨_, _, _, _, answers_le32Pack.2 rfl, ?_, answers_le32Unpack.2 (le32Unpack_pack v)⟩
    rw [← le32Unpack_toNat, le32Unpack_pack]
  · exact ⟨_, answers_le32Unpack.2 rfl, answers_le32Pack.2 (le32Pack_unpack b0 b1 b2 b3)⟩

/-- Settles O29: the answer is the sum of the bytes, which a rearrangement of them keeps. -/
theorem blockChecksum : Obligations.BlockChecksum := by
  intro p bs s _ hbs
  refine ⟨checksum8Of bs, answers_checksum8 hbs, checksum8Of_toNat bs, fun qs hperm => ?_⟩
  rw [← checksum8Of_perm hperm]
  exact answers_checksum8 (arrBytes_lit s (hperm.length_eq.trans (arrBytes_length hbs)))

/-- Settles O30: the branches of R194 over the naturals. -/
theorem toneWordsClassified : Obligations.ToneWordsClassified := by
  intro w s
  refine ⟨toneClassify w, answers_toneClassify.2 rfl, ?_⟩
  rw [toneClassify_eq]
  refine ⟨fun h1 h3000 => if_pos ⟨h1, h3000⟩, fun h0 => ?_, fun hlow hhigh => ?_, fun h15 hcode => ?_, fun h15 hcode => ?_⟩
  · rw [if_neg (by omega), if_neg (by omega)]
  · rw [if_neg (by omega), if_neg (by omega)]
  · rw [if_neg (by omega), if_pos h15, if_pos hcode]
  · rw [if_neg (by omega), if_pos h15, if_neg (by omega)]

/-- Settles O31: the word of each class, and the class of that word. -/
theorem toneComposeInverts : Obligations.ToneComposeInverts := by
  intro s
  refine ⟨answers_toneCompose.2 rfl, fun t ht => answers_toneCompose.2 (toneWordFor_ctcss ht),
    fun code inv => ⟨_, answers_toneCompose.2 rfl, dcsWord_toNat code inv⟩, fun x w hx hw => ?_⟩
  obtain rfl := answers_toneCompose.1 hw
  rw [answers_toneClassify]
  cases x with
  | off => rfl
  | ctcss t =>
    obtain ⟨h1, h3000⟩ := hx t rfl
    rw [toneWordFor_ctcss h3000, toneClassify_eq, if_pos ⟨h1, h3000⟩]
  | dcs code inv => exact toneClassify_dcs code inv

/-- Settles O32: the digits and the code are inverse, and the code is read over the naturals. -/
theorem dcsOctalDigits : Obligations.DcsOctalDigits := by
  refine ⟨fun c s => ?_, fun d2 d1 d0 s => ⟨_, answers_dcsCode.2 rfl, answers_dcsDigits.2 (dcsDigits_dcsCode d2 d1 d0)⟩⟩
  have hback : dcsCode (dcsDigits c).1 (dcsDigits c).2.1 (dcsDigits c).2.2 = c := dcsCode_dcsDigits c
  refine ⟨_, _, _, answers_dcsDigits.2 rfl, ?_, answers_dcsCode.2 hback⟩
  exact (congrArg BitVec.toNat hback).symm.trans (dcsCode_toNat _ _ _)

/-- Settles O33: the nibbles that are not zero, read over the naturals. -/
theorem groupUnpackListsNibbles : Obligations.GroupUnpackListsNibbles :=
  fun g _ => ⟨groupUnpack g, answers_groupUnpack.2 rfl, groupUnpack_map_toNat g⟩

/-- Settles O34: the recursion of R198, the nibbles of its word, and the values that survive. -/
theorem groupPackShiftsAndOrs : Obligations.GroupPackShiftsAndOrs := by
  refine ⟨fun s => answers_groupPack (by simp), fun v vs s h => ?_, fun vs s h => ?_⟩
  · exact ⟨groupPack (v :: vs), groupPack vs, answers_groupPack (List.forall_mem_cons.1 h).2, answers_groupPack h, rfl⟩
  · have hnamed : ∀ x ∈ vs, 1 ≤ x.toNat ∧ x.toNat ≤ 16 ∧ (x = 16 → s.params.groupP = .overflow) := by
      intro x hx
      obtain ⟨h1, h15⟩ := h x hx
      exact ⟨h1, by omega, by rintro rfl; exact absurd h15 (by decide)⟩
    exact ⟨groupPack vs, answers_groupPack hnamed, groupPack_nibble fun x hx => (h x hx).2,
      fun hlen => answers_groupUnpack.2 (groupUnpack_groupPack h hlen)⟩

end Sys2Proof.Machine
end

section
/-! PROOFS. The reference text forms (R220-R229): exact decimals written with a fixed number of places, the tone texts and their reading, and
the group letters. -/

namespace Sys2Proof.Machine

/-! ### What the calls answer -/

section
variable {s : State}

theorem answers_freqFromMhz {m : Decimal} (h : freqWordOf m < 2 ^ 32) :
    Answers (.freqFromMhz m) s (.word (BitVec.ofNat 32 (freqWordOf m))) := if_pos h

theorem answers_toneToString {w : Half} {text : List Byte} : Answers (.toneToString w) s (.bytes text) ↔ toneText w = text :=
  (answers_iff_of_giveBack rfl).trans (Ret.bytes.injEq _ _).to_iff

theorem answers_ctcssText {t : Half} {text : List Byte} : Answers (.ctcssText t) s (.bytes text) ↔ ctcssTextFor t = text :=
  (answers_iff_of_giveBack rfl).trans (Ret.bytes.injEq _ _).to_iff

theorem answers_stringToTone {str : List Byte} {w : Half} : Answers (.stringToTone str) s (.half w) ↔ toneWordOf str = w :=
  (answers_iff_of_giveBack rfl).trans (Ret.half.injEq _ _).to_iff

theorem answers_stringToGroup {str : List Byte} {w : Half} :
    Answers (.stringToGroup str) s (.half w) ↔ groupWordOf s.params.groupP str = w :=
  (answers_iff_of_giveBack rfl).trans (Ret.half.injEq _ _).to_iff

theorem answers_groupToString {g : Half} {text : List Byte} : Answers (.groupToString g) s (.bytes text) ↔ groupText g = text :=
  (answers_iff_of_giveBack rfl).trans (Ret.bytes.injEq _ _).to_iff

end

/-! ### Decimals with a fixed number of places -/

/-- The last `k` decimal digits of `n`. -/
def lastDigits : Nat → Nat → List (Fin 10)
  | 0, _ => []
  | k + 1, n => lastDigits k (n / 10) ++ [Fin.ofNat 10 n]

@[simp] theorem lastDigits_length (k n : Nat) : (lastDigits k n).length = k := by
  induction k generalizing n with
  | zero => rfl
  | succ k ih => simp [lastDigits, ih]

theorem digitsVal_lastDigits (k n : Nat) : digitsVal (lastDigits k n) = n % 10 ^ k := by
  induction k generalizing n with
  | zero => simp [lastDigits, digitsVal, Nat.mod_one]
  | succ k ih =>
    have hsplit : digitsVal (lastDigits k (n / 10) ++ [Fin.ofNat 10 n]) = 10 * digitsVal (lastDigits k (n / 10)) + n % 10 := by
      simp [digitsVal]
    rw [lastDigits, hsplit, ih, Nat.pow_succ', Nat.mod_mul]
    omega

/-- `n / 10 ^ k` with exactly `k` decimal places, as R221 and R223 display it. -/
def decimalWithPlaces (k n : Nat) : Decimal := { int := digitsAux 10 (n / 10 ^ k) [], frac := lastDigits k n }

theorem mant_decimalWithPlaces {k n : Nat} (h : n < 10 ^ k * 10 ^ 10) : mant (decimalWithPlaces k n) = n := by
  have hint : digitsVal (digitsAux 10 (n / 10 ^ k) []) = n / 10 ^ k := by
    simpa [digitsVal] using digitsAux_val 10 (n / 10 ^ k) [] (Nat.div_lt_of_lt_mul h)
  rw [decimalWithPlaces, mant_split, hint, lastDigits_length, digitsVal_lastDigits]
  exact Nat.div_add_mod' n (10 ^ k)

/-- The whole part opens with a zero only when it is zero (R223). -/
theorem decimalWithPlaces_no_leading_zero {k n : Nat} (h : n < 10 ^ k * 10 ^ 10)
    (h0 : (decimalWithPlaces k n).int.head? = some 0) : (decimalWithPlaces k n).int = [0] := by
  rcases Nat.eq_zero_or_pos (n / 10 ^ k) with hz | hpos
  · rw [decimalWithPlaces, hz]
    rfl
  · exact absurd h0 (digitsAux_head 10 _ [] (Nat.div_lt_of_lt_mul h) hpos.ne')

/-- A decimal with `k` places scaled by `10 ^ k` is whole, so rounding changes nothing. -/
theorem roundScaled_places (d : Decimal) : roundScaled d (10 ^ places d) = mant d := by
  have hp : 0 < 10 ^ places d := by positivity
  unfold roundScaled
  exact Nat.div_eq_of_lt_le (by linarith) (by linarith)

theorem roundScaled_decimalWithPlaces {k n : Nat} (h : n < 10 ^ k * 10 ^ 10) : roundScaled (decimalWithPlaces k n) (10 ^ k) = n := by
  have hplaces : places (decimalWithPlaces k n) = k := lastDigits_length k n
  have hround := roundScaled_places (decimalWithPlaces k n)
  rwa [hplaces, mant_decimalWithPlaces h] at hround

/-- A decimal written with a point is a NUMBER without a sign (R225). -/
theorem numberText_encodeDecimal {d : Decimal} (h : d.int ≠ []) : NumberText (encodeDecimal d) [] [0x2E] d :=
  ⟨by simp, .inl ⟨rfl, .inl h⟩, rfl⟩

theorem decimalWithPlaces_int_ne_nil (k n : Nat) : (decimalWithPlaces k n).int ≠ [] := digitsAux_ne 10 _ [] (by decide)

/-! ### Frequencies -/

/-- R221: the display is the decimal with five places. -/
theorem mhzText_eq (w : Word) : mhzText w = encodeDecimal (decimalWithPlaces 5 w.toNat) := by
  have hlast : lastDigits 5 w.toNat = [Fin.ofNat 10 (w.toNat / 10000), Fin.ofNat 10 (w.toNat / 1000), Fin.ofNat 10 (w.toNat / 100),
      Fin.ofNat 10 (w.toNat / 10), Fin.ofNat 10 w.toNat] := by
    simp [lastDigits, Nat.div_div_eq_div_mul]
  have h4 : w.toNat % 100000 / 10000 = w.toNat / 10000 % 10 := by omega
  have h3 : w.toNat % 100000 / 1000 % 10 = w.toNat / 1000 % 10 := by omega
  have h2 : w.toNat % 100000 / 100 % 10 = w.toNat / 100 % 10 := by omega
  have h1 : w.toNat % 100000 / 10 % 10 = w.toNat / 10 % 10 := by omega
  have h0 : w.toNat % 100000 % 10 = w.toNat % 10 := by omega
  simp [mhzText, encodeDecimal, decimalWithPlaces, natText_digits, hlast, h4, h3, h2, h1, h0]

/-- R220, R221: the display of a word converts back to the word. -/
theorem freqWordOf_decimalWithPlaces (w : Word) : freqWordOf (decimalWithPlaces 5 w.toNat) = w.toNat :=
  roundScaled_decimalWithPlaces (k := 5) (by omega)

/-! ### CTCSS texts -/

/-- R223: the text of a tone is the decimal with one place. -/
theorem ctcssTextOf_eq (t : Half) : ctcssTextOf t = encodeDecimal (decimalWithPlaces 1 t.toNat) := by
  simp [ctcssTextOf, encodeDecimal, decimalWithPlaces, lastDigits, natText_digits]

/-- R229 (2): the text of a tone up to 3000 reads back as the tone. -/
theorem toneWordOf_ctcssTextOf {t : Half} (h : t.toNat ≤ 3000) : toneWordOf (ctcssTextOf t) = t := by
  have hround : roundScaled (decimalWithPlaces 1 t.toNat) 10 = t.toNat := roundScaled_decimalWithPlaces (k := 1) (by omega)
  rw [ctcssTextOf_eq, toneWordOf_number (numberText_encodeDecimal (decimalWithPlaces_int_ne_nil 1 t.toNat)), hround, if_pos h]
  exact (BitVec.ofNat_toNat 16 t).trans (BitVec.setWidth_eq t)

/-! ### Texts by tone class -/

theorem toneText_of_ctcss {w t : Half} (h : toneClassify w = .ctcss t) : toneText w = ctcssTextOf t := by rw [toneText, h]

theorem toneText_of_dcs {w : Half} {code : BitVec 9} {inv : BitVec 1} (h : toneClassify w = .dcs code inv) :
    toneText w = dcsText code inv := by rw [toneText, h]

theorem toneText_of_off {w : Half} (h : toneClassify w = .off) : toneText w = [0x4F, 0x66, 0x66] := by rw [toneText, h]

/-- A word of class CTCSS is its own tone, in 1..3000 (R194). -/
theorem toneClassify_eq_ctcss {w t : Half} : toneClassify w = .ctcss t ↔ w = t ∧ 1 ≤ w.toNat ∧ w.toNat ≤ 3000 := by
  rw [toneClassify_eq]
  split_ifs with h <;> simp [h]

/-- The text of a DCS tone is a DCS_TEXT of the code's octal digits (R222, R226). -/
theorem dcsText_isDcsText (code : BitVec 9) (inv : BitVec 1) :
    DcsText (dcsText code inv) (dcsDigits code).1 (dcsDigits code).2.1 (dcsDigits code).2.2 inv := rfl

/-- The word of a DCS text (R224, R226): it opens with "D", so it is no NUMBER. -/
theorem toneWordOf_dcsText {str : List Byte} {d2 d1 d0 : BitVec 3} {inv : BitVec 1} (h : DcsText str d2 d1 d0 inv) :
    toneWordOf str = toneCompose (.dcs (dcsCode d2 d1 d0) inv) := by
  have hnumber : parseNumber str = none := by
    rw [h]
    exact parseNumber_dcs _
  rw [toneWordOf, hnumber, dcsOrOff, parseDcs_of_text h]

/-- "Off" is neither a NUMBER nor a DCS text (R224). -/
theorem toneWordOf_off : toneWordOf [0x4F, 0x66, 0x66] = 0 := by decide

/-! ### Group letters -/

/-- The values of letters are those R198 names. -/
theorem letterValue_named {pol : Config.GroupPPolicy} {b v : Byte} (h : letterValue pol b = some v) :
    1 ≤ v.toNat ∧ v.toNat ≤ 16 ∧ (v = 16 → pol = .overflow) := by
  unfold letterValue at h
  split_ifs at h with hletter
  · obtain rfl := Option.some.inj h
    rcases hletter with ⟨h1, h2⟩ | ⟨rfl, hpol⟩
    · exact ⟨by bv_omega, by bv_omega, fun h16 => by bv_omega⟩
    · exact ⟨by decide, by decide, fun _ => hpol⟩

/-- R227 over the naturals: which codes are letters, and their values. -/
theorem letterValue_toNat (pol : Config.GroupPPolicy) (b : Byte) : (letterValue pol b).map BitVec.toNat =
    if decide (0x41 ≤ b.toNat ∧ b.toNat ≤ 0x4F) || (b.toNat == 0x50 && pol == .overflow) then some (b.toNat - 0x40) else none := by
  have hsub (h : 0x40 ≤ b.toNat) : (b - 0x40).toNat = b.toNat - 0x40 := BitVec.toNat_sub_of_le h
  have hcode : b = 0x50 ↔ b.toNat = 0x50 := BitVec.toNat_eq
  unfold letterValue
  simp only [hcode, Bool.or_eq_true, decide_eq_true_eq, Bool.and_eq_true, beq_iff_eq]
  split
  · rw [Option.map_some, hsub (by omega)]
  · rfl

/-- The values of a text's letters, over the naturals (R227). -/
theorem filterMap_letterValue_toNat (pol : Config.GroupPPolicy) (str : List Byte) :
    (str.filterMap (letterValue pol)).map BitVec.toNat =
      ((str.map BitVec.toNat).filter
        (fun n => decide (0x41 ≤ n ∧ n ≤ 0x4F) || (n == 0x50 && pol == .overflow))).map (fun n => n - 0x40) := by
  rw [List.map_filterMap, List.filter_map, List.map_map, ← List.filterMap_eq_map, List.filterMap_filter]
  refine List.filterMap_congr fun b _ => ?_
  rw [letterValue_toNat]
  rfl

/-- The word of a text is GROUP_PACK of its letters' values (R227). -/
theorem answers_groupPack_letters (str : List Byte) (s : State) :
    Answers (.groupPack (str.filterMap (letterValue s.params.groupP))) s (.half (groupWordOf s.params.groupP str)) := by
  refine answers_groupPack fun v hv => ?_
  obtain ⟨b, -, hb⟩ := List.mem_filterMap.1 hv
  exact letterValue_named hb

theorem letterValue_of_mem {pol : Config.GroupPPolicy} {b : Byte} (h : 0x41 ≤ b.toNat ∧ b.toNat ≤ 0x4F) :
    letterValue pol b = some (b - 0x40) := if_pos (.inl h)

/-- The values of a group word are nibbles (R197). -/
theorem groupUnpack_lt {g : Half} {v : Byte} (h : v ∈ groupUnpack g) : v.toNat < 16 := by
  have hmem := List.mem_map_of_mem (f := BitVec.toNat) h
  rw [groupUnpack_map_toNat] at hmem
  have hnibble := List.mem_of_mem_filter hmem
  simp only [List.mem_cons, List.not_mem_nil, or_false] at hnibble
  omega

/-- R228 over the naturals. -/
theorem groupText_map_toNat (g : Half) : (groupText g).map BitVec.toNat = (groupUnpack g).map (fun v => 0x40 + v.toNat) := by
  rw [groupText, List.map_map]
  refine List.map_congr_left fun v hv => ?_
  have hlt : v.toNat < 16 := groupUnpack_lt hv
  exact BitVec.toNat_add_of_lt (by simp; omega)

/-- Up to four letters 'A'..'O' survive (R229 (3)). -/
theorem groupText_groupWordOf {str : List Byte} {pol : Config.GroupPPolicy} (hlen : str.length ≤ 4)
    (h : ∀ b ∈ str, 0x41 ≤ b.toNat ∧ b.toNat ≤ 0x4F) : groupText (groupWordOf pol str) = str := by
  have hvalues : str.filterMap (letterValue pol) = str.map (· - 0x40) := by
    rw [← List.filterMap_eq_map]
    exact List.filterMap_congr fun b hb => letterValue_of_mem (h b hb)
  have hrange : ∀ v ∈ str.map (· - 0x40), 1 ≤ v.toNat ∧ v.toNat ≤ 15 := by
    simp only [List.forall_mem_map]
    intro b hb
    have hletter := h b hb
    constructor <;> bv_omega
  rw [groupText, groupWordOf, hvalues, groupUnpack_groupPack hrange (by simpa using hlen), List.map_map]
  exact List.map_id'' (fun b => by simp) str

/-! ### The obligations -/

/-- Settles O35: the word is the rounded quotient, and five places hold a word's digits exactly. -/
theorem frequencyConversions : Obligations.FrequencyConversions := by
  refine ⟨fun m s hfits => ?_, fun m s hlarge => ?_, fun w s => ?_⟩
  · have hw : (BitVec.ofNat 32 (freqWordOf m)).toNat = freqWordOf m := (BitVec.toNat_ofNat _ 32).trans (Nat.mod_eq_of_lt hfits)
    refine ⟨_, answers_freqFromMhz hfits, ?_⟩
    rw [hw]
    exact roundScaled_bounds m 100000
  · have hbound : 2 * 10 ^ places m * 2 ^ 32 < 2 * 10 ^ places m * (freqWordOf m + 1) :=
      hlarge.trans_lt (roundScaled_bounds m 100000).2
    have hword : 2 ^ 32 < freqWordOf m + 1 := Nat.lt_of_mul_lt_mul_left hbound
    exact if_neg (by omega)
  · have hback := freqWordOf_decimalWithPlaces w
    have hanswer := answers_freqFromMhz (s := s) (hback.trans_lt w.isLt)
    rw [hback, BitVec.ofNat_toNat, BitVec.setWidth_eq] at hanswer
    exact ⟨mhzText w, decimalWithPlaces 5 w.toNat, rfl, mhzText_eq w, lastDigits_length 5 w.toNat, decimalWithPlaces_int_ne_nil 5 w.toNat,
      mant_decimalWithPlaces (by omega), hanswer⟩

/-- Settles O36: the text is the decimal of the tone with one place. -/
theorem ctcssTextRoundTrip : Obligations.CtcssTextRoundTrip := by
  intro t s h1 h3000
  have hsmall : t.toNat < 10 ^ 1 * 10 ^ 10 := by omega
  refine ⟨ctcssTextOf t, decimalWithPlaces 1 t.toNat, answers_ctcssText.2 (ctcssTextFor_eq h1 h3000), ?_, ctcssTextOf_eq t,
    lastDigits_length 1 t.toNat, decimalWithPlaces_int_ne_nil 1 t.toNat, decimalWithPlaces_no_leading_zero hsmall,
    mant_decimalWithPlaces hsmall, answers_stringToTone.2 (toneWordOf_ctcssTextOf h3000)⟩
  exact answers_toneToString.2 (toneText_of_ctcss (toneClassify_eq_ctcss.2 ⟨rfl, h1, h3000⟩))

/-- Settles O37: the text by class, and a DCS text's word composed again. -/
theorem dcsTextRoundTrip : Obligations.DcsTextRoundTrip := by
  refine ⟨fun code inv w s hw => ?_, fun w t s hclass => ?_, fun w s hclass => ?_, fun s => answers_stringToTone.2 toneWordOf_off⟩
  · obtain rfl : toneCompose (.dcs code inv) = w := BitVec.eq_of_toNat_eq ((dcsWord_toNat code inv).trans hw.symm)
    have hcode : dcsCode (dcsDigits code).1 (dcsDigits code).2.1 (dcsDigits code).2.2 = code := dcsCode_dcsDigits code
    refine ⟨_, _, _, ?_, dcsText code inv, dcsText_isDcsText code inv, ?_, ?_⟩
    · rw [← dcsCode_toNat, hcode]
    · exact answers_toneToString.2 (toneText_of_dcs (toneClassify_dcs code inv))
    · rw [answers_stringToTone, toneWordOf_dcsText (dcsText_isDcsText code inv), hcode]
  · have hctcss := answers_toneClassify.1 hclass
    obtain ⟨rfl, h1, h3000⟩ := toneClassify_eq_ctcss.1 hctcss
    exact ⟨_, answers_ctcssText.2 (ctcssTextFor_eq h1 h3000), answers_toneToString.2 (toneText_of_ctcss hctcss)⟩
  · exact answers_toneToString.2 (toneText_of_off (answers_toneClassify.1 hclass))

/-- Settles O38: the three ways STRING_TO_TONE reads a text. -/
theorem toneStringsRead : Obligations.ToneStringsRead := by
  refine ⟨fun str sign point d s hnumber _ => ?_, fun str d2 d1 d0 inv s hdcs => ?_, fun str s _ hnumber hdcs => ?_⟩
  · obtain ⟨hle, hlt⟩ := roundScaled_bounds d 10
    exact ⟨roundScaled d 10, hle, hlt, answers_stringToTone.2 (toneWordOf_number hnumber)⟩
  · refine ⟨_, answers_stringToTone.2 (toneWordOf_dcsText hdcs), ?_⟩
    rw [← dcsCode_toNat]
    exact dcsWord_toNat _ inv
  · exact answers_stringToTone.2 (toneWordOf_other hnumber hdcs)

/-- Settles O39: the letters' values are packed in string order. -/
theorem groupStringsSkipOtherCharacters : Obligations.GroupStringsSkipOtherCharacters :=
  fun str s _ => ⟨_, _, answers_stringToGroup.2 rfl, answers_groupPack_letters str s, filterMap_letterValue_toNat s.params.groupP str⟩

/-- Settles O40: each value's letter, and four letters make four nibbles. -/
theorem groupTextRoundTrip : Obligations.GroupTextRoundTrip :=
  ⟨fun g _ => ⟨_, _, answers_groupUnpack.2 rfl, answers_groupToString.2 rfl, groupText_map_toNat g⟩,
    fun _ _ hlen hletters => ⟨_, answers_stringToGroup.2 rfl, answers_groupToString.2 (groupText_groupWordOf hlen hletters)⟩⟩

end Sys2Proof.Machine
end

section
/-! PROOFS. The invariant (R35): everything an instruction can do, which register it writes (R33), and that every step keeps the invariant and
the open parameters. -/

namespace Sys2Proof.Machine

/-! ### Everything an instruction can do -/

/-- The effect of an instruction that completes, by the state it answers (R33, R100-R110, R66, R31). -/
inductive Effect (s : State) : Instr → State → Prop
  | nothing (i : Instr) : Effect s i s
  | acknowledges {i : Instr} : i ∈ [Instr.ack1, .ackE, .ackF] → Effect s i (s.setPhase .acknowledged)
  | collects : Effect s .hdr s.enterCollecting
  | stores (b : Byte) : s.phase = .collecting → s.count.toNat < 32 → Effect s (.data b) (s.storePayload b)
  | compares (b : Byte) : Effect s (.chk b) (s.setPhase (if b = s.csum then .checksumOk else .checksumBad))
  | ends : Effect s .eos (s.setPhase .incomplete)
  | starts (base : Byte) : base.toNat + 32 ≤ 224 → Effect s (.start base) (s.beginRound base)
  | resets : Effect s (.reset .warm) (s.beginRound 0)
  | powersUp : Effect s (.reset .powerUp) (s.beginRound 0).redrawBuf
  | sends {i : Instr} (bs : List Byte) (e : Option Phase) : commandInstr i = true → Effect s i (s.send bs e)
  | answers {i : Instr} (r : Ret) : codecInstr i = true → Effect s i (s.answer r)

/-- An instruction that completes has one of the effects. -/
theorem exec_effect {i : Instr} {s t : State} (h : exec i s = .next t) : Effect s i t := by
  by_cases hcm : commandInstr i = true
  · obtain ⟨bs, e, rfl⟩ := exec_command_eq_next hcm h
    exact .sends bs e hcm
  by_cases hcd : codecInstr i = true
  · obtain ⟨r, rfl⟩ := exec_codec_eq_next hcd h
    exact .answers r hcd
  cases i
  case hdr =>
    obtain ⟨-, rfl⟩ := inIdle_eq_next h
    exact .collects
  case ack1 | ackE | ackF =>
    obtain ⟨-, rfl⟩ := inIdle_eq_next h
    exact .acknowledges (by simp)
  case noise b =>
    simp only [exec, execNoise] at h
    split at h
    · obtain ⟨-, rfl⟩ := inIdle_eq_next h
      exact .nothing _
    · cases h
  case data b =>
    obtain ⟨hp, hc, -, rfl⟩ := execData_eq_next h
    exact .stores b hp hc
  case chk b =>
    obtain ⟨-, -, rfl⟩ := execChk_eq_next h
    exact .compares b
  case eos =>
    obtain ⟨-, rfl⟩ | ⟨-, rfl⟩ := execEos_eq_next h
    · exact .nothing _
    · exact .ends
  case terminalHold b =>
    simp only [exec, execTerminalHold] at h
    split at h
    · cases h
      exact .nothing _
    · cases h
  case start base =>
    obtain ⟨hb, rfl⟩ := execStart_eq_next h
    exact .starts base hb
  case reset kind =>
    cases kind <;> cases h
    · exact .powersUp
    · exact .resets
  all_goals simp [codecInstr, classifierInstr, commandInstr] at hcm hcd

/-- Settles O8: one look at each effect; every other register is written by none of them. -/
theorem registersWrittenOnlyByTheirSteps : Obligations.RegistersWrittenOnlyByTheirSteps := by
  intro i s t h
  cases exec_effect h with
  | acknowledges hi =>
    simp only [List.mem_cons, List.not_mem_nil, or_false] at hi
    obtain rfl | rfl | rfl := hi
    all_goals simp
  | nothing | collects | stores | compares | ends | starts | resets | powersUp | sends | answers => simp

/-! ### The invariant under each update of the state -/

/-- With no round collecting, the invariant asks of the block only that its registers and BUF are in range. -/
theorem Inv.of_not_collecting {s t : State} (h : Inv s) (hp : t.phase ≠ .collecting) (hbuf : Memory.wf t.buf = true)
    (hcount : t.count.toNat ≤ 32) (hbase : t.base.toNat + 32 ≤ 224) (hs : t.session = s.session) (hh : t.handed = s.handed) : Inv t :=
  ⟨hbuf, hcount, hbase, fun hc => absurd hc hp, hs ▸ h.sessionOk, hs ▸ h.sessionGone, hs ▸ h.wantOk, hh ▸ h.handedOk⟩

theorem Inv.setPhase {s : State} (h : Inv s) {ph : Phase} (hp : ph ≠ .collecting) : Inv (s.setPhase ph) :=
  h.of_not_collecting hp h.bufWf h.countLe h.baseLe rfl rfl

theorem Inv.beginRound {s : State} (h : Inv s) {base : Byte} (hb : base.toNat + 32 ≤ 224) : Inv (s.beginRound base) :=
  h.of_not_collecting (fun hc => Phase.noConfusion hc) h.bufWf (Nat.zero_le 32) hb rfl rfl

theorem Inv.redrawBuf {s : State} (h : Inv s) (hp : s.phase ≠ .collecting) : Inv s.redrawBuf :=
  h.of_not_collecting hp (powerUpBuf_wf _) h.countLe h.baseLe rfl rfl

/-- The host writes BUF between rounds only, so no sum of a round is touched (R264). -/
theorem Inv.hostWrite {s : State} (h : Inv s) (hd : s.done = true) (a : Nat) (bs : List Byte) :
    Inv (s.setBuf (Memory.writeRange s.buf a bs)) :=
  h.of_not_collecting ((s.done_iff.1 hd).2) (Memory.writeRange_wf h.bufWf a bs) h.countLe h.baseLe rfl rfl

/-- After the header no byte is stored, and the sum of no bytes is 0 (R100). -/
theorem Inv.enterCollecting {s : State} (h : Inv s) : Inv s.enterCollecting :=
  ⟨h.bufWf, Nat.zero_le 32, h.baseLe, fun _ => ⟨[], rfl, rfl⟩, h.sessionOk, h.sessionGone, h.wantOk, h.handedOk⟩

/-- The sum of bytes one longer (R193). -/
theorem checksum8Of_snoc (p : List Byte) (b : Byte) : checksum8Of (p ++ [b]) = checksum8Of p + b := by
  simp [checksum8Of]

/-- COUNT counts on below its last value. -/
theorem State.storePayload_count_toNat {s : State} (b : Byte) (hc : s.count.toNat < 32) :
    (s.storePayload b).count.toNat = s.count.toNat + 1 := by
  rw [State.storePayload_count, BitVec.toNat_add]
  exact Nat.mod_eq_of_lt (show s.count.toNat + 1 < 64 by omega)

/-- The byte stored lies after those of the round, so their sum grows by it (R102). -/
theorem Inv.storePayload {s : State} (h : Inv s) (b : Byte) (hp : s.phase = .collecting) (hc : s.count.toNat < 32) :
    Inv (s.storePayload b) := by
  have ha : s.payloadAddr < 224 := h.payloadAddr_lt hc
  have hcount := State.storePayload_count_toNat b hc
  obtain ⟨p, hread, hsum⟩ := h.csumEq hp
  have hkept : Memory.readRange (s.storePayload b).buf s.base.toNat s.count.toNat = some p := by
    rw [← hread]
    refine Memory.readRange_congr _ _ fun k _ hk => Memory.read_write_ne s.buf b ?_
    exact Nat.ne_of_lt hk
  have hlast : Memory.read (s.storePayload b).buf (s.base.toNat + s.count.toNat) = some b := Memory.read_write_eq h.bufWf b ha
  refine ⟨Memory.write_wf h.bufWf _ b, ?_, h.baseLe, fun _ => ⟨p ++ [b], ?_, ?_⟩, h.sessionOk, h.sessionGone, h.wantOk, h.handedOk⟩
  · exact hcount ▸ hc
  · rw [hcount]
    exact Memory.readRange_snoc hkept hlast
  · rw [checksum8Of_snoc, ← hsum]
    rfl

/-- The invariant is kept by every instruction that completes. -/
theorem Inv.exec {i : Instr} {s t : State} (h : Inv s) (he : exec i s = .next t) : Inv t := by
  cases exec_effect he with
  | nothing => exact h
  | acknowledges => exact h.setPhase (by decide)
  | collects => exact h.enterCollecting
  | stores b hp hc => exact h.storePayload b hp hc
  | compares b => exact h.setPhase (by split <;> decide)
  | ends => exact h.setPhase (by decide)
  | starts base hb => exact h.beginRound hb
  | resets => exact h.beginRound (by decide)
  | powersUp => exact (h.beginRound (base := 0) (by decide)).redrawBuf (fun hc => Phase.noConfusion hc)
  | sends | answers => exact h.congr rfl rfl rfl

theorem Inv.boundary {s : State} (h : Inv s) : Inv s.boundary :=
  h.congr s.boundary_block s.boundary_session s.boundary_handed

/-! ### The invariant under the host's flow -/

/-- A decoded plan takes the place of another (R130, R139). -/
theorem Records.ok_setPlan {r : Records} (h : r.ok = true) (img : List Byte) : Records.ok { r with bp := bpDecode img } = true := by
  simp only [Records.ok, Bool.and_eq_true, bpDecode_length, beq_self_eq_true] at h ⊢
  tauto

/-- A decoded record takes the place of another (R160, R167). -/
theorem Records.ok_setChannel {r : Records} (h : r.ok = true) (n : Nat) (block : List Byte) :
    Records.ok { r with ch := r.ch.set n (chDecode block) } = true := by
  simp only [Records.ok, Bool.and_eq_true, List.length_set, List.all_eq_true] at h ⊢
  obtain ⟨hlen, hrec⟩ := h
  refine ⟨hlen, fun c hc => ?_⟩
  obtain hc | rfl := List.mem_or_eq_of_mem_set hc
  · exact hrec c hc
  · exact chDecode_ok block

theorem Inv.setPlan {s : State} (h : Inv s) (hi : s.session.pos ≠ .idle) (img : List Byte) : Inv (s.setPlan (bpDecode img)) :=
  h.congr_block rfl (fun _ => Records.ok_setPlan (h.sessionOk hi) img) (fun e => absurd e hi) h.wantOk h.handedOk

theorem Inv.setChannel {s : State} (h : Inv s) (hi : s.session.pos ≠ .idle) (n : Nat) (block : List Byte) :
    Inv (s.setChannel n (chDecode block)) :=
  h.congr_block rfl (fun _ => Records.ok_setChannel (h.sessionOk hi) _ block) (fun e => absurd e hi) h.wantOk h.handedOk

theorem Inv.serveReq {r : HostReq} {s t : State} (h : Inv s) (he : serveReq r s = .next t) : Inv t := by
  obtain ⟨bs, e, rfl⟩ | ⟨x, rfl⟩ | ⟨b, rfl⟩ | ⟨a, bs, hd, -, rfl⟩ := serveReq_eq_next he
  case inr.inr.inr => exact h.hostWrite hd a bs
  all_goals exact h.congr rfl rfl rfl

theorem Inv.txnMove {s t : State} (h : Inv s) (he : txnMove s = .next t) : Inv t := by
  obtain rfl | ⟨hi, he⟩ := txnMove_eq_next he
  · exact h
  obtain ⟨p, hp, rfl⟩ | ⟨bs, e, p, hp, rfl⟩ | ⟨bs, e, rfl⟩ | ⟨-, b, p, hb, hp, rfl⟩ | ⟨hd, bs, p, -, hp, rfl⟩ |
    ⟨n, block, p, -, hp, rfl⟩ | ⟨img, rfl⟩ := he
  · exact h.setPos hi hp
  · exact (Inv.congr (t := s.send bs e) h rfl rfl rfl).setPos hi hp
  · exact (Inv.congr (t := s.send bs e) h rfl rfl rfl).endSession hi
  · refine (h.boundary.beginRound hb).setPos ?_ hp
    rwa [State.beginRound_session, State.boundary_session]
  · exact (h.hostWrite hd 0 bs).setPos hi hp
  · exact (h.setChannel hi n block).setPos hi hp
  · exact (h.setPlan hi img).endSession hi

/-- The busy flag is down exactly while no operation runs (R272). -/
theorem State.busy_eq_true {s : State} : s.busy = true ↔ s.session.pos ≠ .idle := bne_iff_ne

/-- An exception hands the tables of a running operation back (R270, R281). -/
theorem Inv.abortTxn {s : State} (h : Inv s) : Inv (abortTxn s) := by
  unfold Machine.abortTxn
  split
  case isTrue hb =>
    have he := h.endSession (State.busy_eq_true.1 hb)
    exact he.congr_block rfl he.sessionOk he.sessionGone he.wantOk he.handedOk
  case isFalse => exact h.congr_block rfl h.sessionOk h.sessionGone h.wantOk h.handedOk

/-- A trigger brings the tables of the operation it begins (R281). -/
theorem Inv.acceptTxn {s : State} (h : Inv s) {o : Order} (hw : s.session.want = some o) : Inv (acceptTxn o s) := by
  unfold Machine.acceptTxn
  split
  case isTrue => exact h.congr_block rfl h.sessionOk h.sessionGone nofun h.handedOk
  case isFalse => exact h.congr_block rfl (fun _ => h.wantOk o hw) (fun e => Pos.noConfusion e) nofun h.handedOk

theorem Inv.hostMove {s t : State} (h : Inv s) (he : hostMove s = .next t) : Inv t := by
  obtain ⟨-, rfl⟩ | ⟨-, r, rest, -, he⟩ | ⟨-, -, o, hw, rfl⟩ | ⟨-, -, -, he⟩ := hostMove_eq_next he
  · exact h.abortTxn
  · exact Inv.serveReq (s := { s with reqs := rest }) (h.congr rfl rfl rfl) he
  · exact h.acceptTxn hw
  · exact h.txnMove he

theorem Inv.feed {s t : State} (h : Inv s) (he : feed s = .next t) : Inv t := by
  obtain ⟨-, b, l, -, he⟩ | he | ⟨-, b, he⟩ | rfl := feed_eq_next he
  · exact Inv.exec (s := s.setLink l) (h.congr rfl rfl rfl) he
  · exact h.exec he
  · exact h.exec he
  · exact h

/-- The invariant is kept by every step that completes. -/
theorem Inv.step {s t : State} (h : Inv s) (he : step s = .next t) : Inv t := by
  obtain ⟨k, -, he⟩ | ⟨-, b, -, he⟩ | ⟨-, -, -, he⟩ | ⟨-, -, -, he⟩ := step_eq_next he
  · exact (Inv.boundary (s := { s with resetReq := none }) (h.congr rfl rfl rfl)).exec he
  · exact (Inv.boundary (s := { s with startReq := none }) (h.congr rfl rfl rfl)).exec he
  · exact h.hostMove he
  · exact h.feed he

/-! ### The open parameters -/

theorem exec_params {i : Instr} {s t : State} (h : exec i s = .next t) : t.params = s.params := by
  cases exec_effect h <;> rfl

@[simp] theorem State.boundary_params (s : State) : s.boundary.params = s.params := by
  obtain ⟨rx, k, h, -⟩ := s.boundary_eq
  rw [h]

theorem abortTxn_params (s : State) : (abortTxn s).params = s.params := by
  unfold abortTxn
  split <;> rfl

theorem acceptTxn_params (o : Order) (s : State) : (acceptTxn o s).params = s.params := by
  unfold acceptTxn
  split <;> rfl

theorem serveReq_params {r : HostReq} {s t : State} (h : serveReq r s = .next t) : t.params = s.params := by
  obtain ⟨bs, e, rfl⟩ | ⟨x, rfl⟩ | ⟨b, rfl⟩ | ⟨a, bs, -, -, rfl⟩ := serveReq_eq_next h
  all_goals rfl

theorem txnMove_params {s t : State} (h : txnMove s = .next t) : t.params = s.params := by
  obtain rfl | ⟨-, h⟩ := txnMove_eq_next h
  · rfl
  obtain ⟨p, -, rfl⟩ | ⟨bs, e, p, -, rfl⟩ | ⟨bs, e, rfl⟩ | ⟨-, b, p, -, -, rfl⟩ | ⟨-, bs, p, -, -, rfl⟩ |
    ⟨n, block, p, -, -, rfl⟩ | ⟨img, rfl⟩ := h
  case inr.inr.inr.inr.inl => exact s.boundary_params
  all_goals rfl

theorem hostMove_params {s t : State} (h : hostMove s = .next t) : t.params = s.params := by
  obtain ⟨-, rfl⟩ | ⟨-, r, rest, -, h⟩ | ⟨-, -, o, -, rfl⟩ | ⟨-, -, -, h⟩ := hostMove_eq_next h
  · exact abortTxn_params s
  · exact serveReq_params (s := { s with reqs := rest }) h
  · exact acceptTxn_params o s
  · exact txnMove_params h

theorem feed_params {s t : State} (h : feed s = .next t) : t.params = s.params := by
  obtain ⟨-, b, l, -, h⟩ | h | ⟨-, b, h⟩ | rfl := feed_eq_next h
  · exact exec_params (s := s.setLink l) h
  · exact exec_params h
  · exact exec_params h
  · rfl

/-- No step changes the open parameters (R9). -/
theorem step_params {s t : State} (h : step s = .next t) : t.params = s.params := by
  obtain ⟨k, -, h⟩ | ⟨-, b, -, h⟩ | ⟨-, -, -, h⟩ | ⟨-, -, -, h⟩ := step_eq_next h
  · exact (exec_params h).trans (State.boundary_params { s with resetReq := none })
  · exact (exec_params h).trans (State.boundary_params { s with startReq := none })
  · exact hostMove_params h
  · exact feed_params h

/-- Settles O41: a step is an instruction, a move of the host or of the stream, and each is made of updates that keep the invariant. -/
theorem invariantKeptByEveryStep : Obligations.InvariantKeptByEveryStep :=
  ⟨fun _ _ => Inv.step, fun _ _ => step_params⟩

end Sys2Proof.Machine
end

section
/-! PROOFS. Whole rounds (R111-R113): what the machine does from a START on, byte by byte of the link, and how a silent round ends (R284, R285). -/

namespace Sys2Proof.Machine

/-! ### Runs of the link -/

/-- A run of the bytes `x ++ y` is a run of `x` and then a run of `y`. -/
theorem Link.run_append {x y : List Byte} {n : Nat} {l l' : Link} (h : Link.run (x.length + n) l = (x ++ y, l')) :
    ∃ l1, Link.run x.length l = (x, l1) ∧ Link.run n l1 = (y, l') := by
  induction x generalizing l with
  | nil => exact ⟨l, rfl, by simpa using h⟩
  | cons b x ih =>
    rw [List.length_cons, Nat.succ_add] at h
    obtain ⟨l1, ht, h1⟩ := Link.run_cons h
    obtain ⟨l2, hx, hy⟩ := ih h1
    refine ⟨l2, ?_, hy⟩
    simp only [List.length_cons, Link.run, ht, hx]

/-- A run of bytes neither ends the stream nor opens it. -/
theorem Link.closed_of_run {n : Nat} {l l' : Link} {x : List Byte} (h : Link.run n l = (x, l')) : l'.closed = l.closed := by
  have hkept : (Link.run n l).2.closed = l.closed := by
    clear h
    induction n generalizing l with
    | zero => rfl
    | succ n ih =>
      unfold Link.run
      split
      · rename_i b l1 ht
        exact ih.trans (Link.take_keeps_closed ht)
      · rfl
  rwa [h] at hkept

/-- A run of one byte takes it. -/
theorem Link.take_of_run_one {b : Byte} {l l' : Link} (h : Link.run 1 l = ([b], l')) : l.take = some (b, l') := by
  obtain ⟨l1, ht, h1⟩ := Link.run_cons h
  cases h1
  exact ht

/-! ### The steps of a round -/

theorem inReady_of_idle {s : State} (h : s.phase = .idle) : s.inReady = true := by simp [State.inReady, h]

theorem inReady_of_collecting {s : State} (h : s.phase = .collecting) : s.inReady = true := by simp [State.inReady, h]

/-- Where the next step takes the stream, so it does while a round runs on with the same session and requests. -/
theorem Listening.congr {s t : State} (h : Listening s) (h1 : t.resetReq = s.resetReq) (h2 : t.startReq = s.startReq)
    (hs : t.session = s.session) (hr : t.reqs = s.reqs) (hc : t.closed = s.closed) (hd : t.done = s.done ∨ t.done = false) : Listening t :=
  ⟨h1.trans h.1, h2.trans h.2.1, hostActive_congr h.2.2 hs hr hc hd⟩

/-- The round that a START offered at `base` begins, after the boundary (R106, R288). -/
def State.startRound (s : State) (base : Byte) : State := { s.boundary with startReq := none }.beginRound base

section
variable {s : State} {base : Byte}

theorem State.startRound_buf (s : State) (base : Byte) : (s.startRound base).buf = s.buf :=
  congrArg Block.buf s.boundary_block

theorem State.startRound_link (s : State) (base : Byte) : (s.startRound base).link = s.boundary.link := rfl

/-- The START offered is the step taken, if no reset is (R255). -/
theorem step_start (h1 : s.resetReq = none) (h2 : s.startReq = some base) (hb : base.toNat ≤ 192) :
    step s = .next (s.startRound base) := by
  have hstep : step s = exec (.start base) (State.boundary { s with startReq := none }) := by simp [step, advance, h1, h2]
  rw [hstep, exec_start_next hb, State.boundary_startReq]
  rfl

/-- After a START the stream is next, if the host did not run before. -/
theorem listening_startRound (h1 : s.resetReq = none) (hq : hostActive s = false) : Listening (s.startRound base) := by
  obtain ⟨rx, k, hbd, -⟩ := s.boundary_eq
  refine ⟨?_, rfl, hostActive_congr hq s.boundary_session ?_ ?_ (.inr rfl)⟩
  all_goals simp only [State.startRound, hbd]
  · exact h1
  · rfl
  · rfl

end

/-- Noise leaves a round in Idle, with nothing changed but the link (R103). -/
theorem runSteps_noise {s : State} {noise : List Byte} {l : Link} (h : Listening s) (hp : s.phase = .idle) (hn : noise.all isNoise = true)
    (hl : s.link.run noise.length = (noise, l)) : runSteps noise.length s = .next (s.setLink l) := by
  induction noise generalizing s with
  | nil => cases hl; rfl
  | cons b noise ih =>
    rw [List.all_cons, Bool.and_eq_true] at hn
    obtain ⟨hb, hn⟩ := hn
    obtain ⟨l1, ht, hl⟩ := Link.run_cons hl
    have hstep : step s = .next (s.setLink l1) := by
      rw [feed_take h (inReady_of_idle hp) ht, hp, sortByte_noise _ hb]
      exact exec_noise_next (s := s.setLink l1) hp hb
    rw [List.length_cons, runSteps_succ _ hstep]
    exact ih (h.setLink ht) hp hn hl

/-- The payload bytes `p` stored from BASE + COUNT on, summed and counted (R102). -/
def State.storeBytes (s : State) (p : List Byte) : State :=
  { s with buf := Memory.writeRange s.buf s.payloadAddr p, csum := s.csum + checksum8Of p, count := s.count + BitVec.ofNat 6 p.length }

theorem State.storeBytes_nil (s : State) : s.storeBytes [] = s := by
  simp [State.storeBytes, Memory.writeRange, checksum8Of]

/-- Storing bytes is storing the first and then the others. -/
theorem State.storeBytes_cons {s : State} {b : Byte} {p : List Byte} (hc : s.count.toNat < 32) :
    s.storeBytes (b :: p) = (s.storePayload b).storeBytes p := by
  have haddr : (s.storePayload b).payloadAddr = s.payloadAddr + 1 := by
    simp only [State.payloadAddr, State.storePayload_base, State.storePayload_count_toNat b hc, Nat.add_assoc]
  have hsum : s.csum + checksum8Of (b :: p) = s.csum + b + checksum8Of p := by
    simp [checksum8Of, BitVec.add_assoc]
  have hcount : s.count + BitVec.ofNat 6 (p.length + 1) = s.count + 1 + BitVec.ofNat 6 p.length := by
    rw [Nat.add_comm, BitVec.ofNat_add, BitVec.add_assoc]
    rfl
  simp only [State.storeBytes, haddr, List.length_cons, hsum, hcount]
  rfl

/-- The payload bytes of a round, as many as it still takes, are stored and leave it collecting (R102, R111). -/
theorem runSteps_payload {s : State} {p : List Byte} {l : Link} (h : Listening s) (hp : s.phase = .collecting)
    (hc : s.count.toNat + p.length ≤ 32) (hb : s.base.toNat ≤ 192) (hl : s.link.run p.length = (p, l)) :
    runSteps p.length s = .next ((s.storeBytes p).setLink l) := by
  induction p generalizing s with
  | nil =>
    cases hl
    rw [State.storeBytes_nil]
    rfl
  | cons b p ih =>
    rw [List.length_cons] at hc
    obtain ⟨l1, ht, hl⟩ := Link.run_cons hl
    have hlt : s.count.toNat < 32 := by omega
    have ha : s.payloadAddr < 224 := by unfold State.payloadAddr; omega
    have hstep : step s = .next ((s.setLink l1).storePayload b) := by
      rw [feed_take h (inReady_of_collecting hp) ht, sortByte_data b hp hlt]
      exact exec_data_next (s := s.setLink l1) hp hlt ha
    have hroom : (s.storePayload b).count.toNat + p.length ≤ 32 := by
      rw [State.storePayload_count_toNat b hlt]
      omega
    rw [State.storeBytes_cons hlt]
    exact (runSteps_succ _ hstep).trans (ih ((h.setLink ht).congr rfl rfl rfl rfl rfl (.inl rfl)) hp hroom hb hl)

/-- A header in Idle starts collecting (R100). -/
theorem step_header {s : State} {l : Link} (h : Listening s) (hp : s.phase = .idle) (ht : s.link.take = some (0x30, l)) :
    step s = .next (s.enterCollecting.setLink l) := by
  rw [feed_take h (inReady_of_idle hp) ht, hp]
  exact exec_hdr_next (s := s.setLink l) hp

/-- An acknowledgement byte in Idle ends the round (R101). -/
theorem step_ack {s : State} {b : Byte} {l : Link} (h : Listening s) (hp : s.phase = .idle) (hb : b ∈ [(0x31 : Byte), 0x45, 0x46])
    (ht : s.link.take = some (b, l)) : step s = .next ((s.setPhase .acknowledged).setLink l) := by
  rw [feed_take h (inReady_of_idle hp) ht, hp]
  simp only [List.mem_cons, List.not_mem_nil, or_false] at hb
  obtain rfl | rfl | rfl := hb
  all_goals exact exec_ack_next (s := s.setLink l) (by simp [sortByte]) hp

/-- The checksum byte ends the round (R109). -/
theorem step_chk {s : State} {b : Byte} {l : Link} (h : Listening s) (hp : s.phase = .collecting) (hc : s.count.toNat = 32)
    (ht : s.link.take = some (b, l)) :
    step s = .next ((s.setPhase (if b = s.csum then .checksumOk else .checksumBad)).setLink l) := by
  rw [feed_take h (inReady_of_collecting hp) ht, sortByte_chk b hp hc]
  exact exec_chk_next (s := s.setLink l) hp hc

/-- The end of the stream ends a round that still takes bytes as Incomplete (R104). -/
theorem step_eos {s : State} (h : Listening s) (hr : s.inReady = true) (hx : s.link.take = none) (hc : s.closed = true) :
    step s = .next (s.setPhase .incomplete) := by
  rw [feed_eos h hr hx hc]
  exact if_neg (by simp [terminal_of_inReady hr])

/-- Noise, a header and payload bytes, as many as a round takes (R111). -/
theorem runSteps_header_payload {s : State} {noise p : List Byte} {l : Link} (h : Listening s) (hp : s.phase = .idle)
    (hn : noise.all isNoise = true) (hlen : p.length ≤ 32) (hb : s.base.toNat ≤ 192)
    (hl : s.link.run (noise ++ 0x30 :: p).length = (noise ++ 0x30 :: p, l)) :
    runSteps (noise ++ 0x30 :: p).length s = .next ((s.enterCollecting.storeBytes p).setLink l) := by
  rw [List.length_append] at hl ⊢
  obtain ⟨l1, hl1, hl⟩ := Link.run_append hl
  obtain ⟨l2, ht, hl⟩ := Link.run_cons hl
  have hquiet : Listening (s.setLink l1) := h.congr rfl rfl rfl rfl (Link.closed_of_run hl1) (.inl rfl)
  have hheader : step (s.setLink l1) = .next (s.enterCollecting.setLink l2) := step_header hquiet hp ht
  have hcollecting : Listening (s.enterCollecting.setLink l2) :=
    (hquiet.setLink (s := s.setLink l1) ht).congr rfl rfl rfl rfl rfl (.inr rfl)
  calc runSteps (noise.length + (0x30 :: p).length) s
      = runSteps (p.length + 1) (s.setLink l1) := runSteps_add _ _ (runSteps_noise h hp hn hl1)
    _ = runSteps p.length (s.enterCollecting.setLink l2) := runSteps_succ _ hheader
    _ = .next ((s.enterCollecting.storeBytes p).setLink l) :=
        runSteps_payload hcollecting rfl (show 0 + p.length ≤ 32 by omega) hb hl

/-- What a round has stored after the header and the payload bytes `p` (R102, R111). -/
theorem State.collected {s : State} {p : List Byte} (hm : Memory.wf s.buf = true) (hlen : p.length ≤ 32) (hb : s.base.toNat ≤ 192) :
    (s.enterCollecting.storeBytes p).count.toNat = p.length ∧ (s.enterCollecting.storeBytes p).csum.toNat = sumMod256 p ∧
    (∀ k, k < p.length → Memory.read (s.enterCollecting.storeBytes p).buf (s.base.toNat + k) = p[k]?) ∧
    ∀ a, a < s.base.toNat ∨ s.base.toNat + p.length ≤ a →
      Memory.read (s.enterCollecting.storeBytes p).buf a = Memory.read s.buf a := by
  refine ⟨?_, ?_, fun k hk => ?_, fun a ha => Memory.read_writeRange_out s.buf s.base.toNat p ha⟩
  · show (0#6 + BitVec.ofNat 6 p.length).toNat = p.length
    rw [BitVec.zero_add, BitVec.toNat_ofNat]
    exact Nat.mod_eq_of_lt (by omega)
  · show (0#8 + checksum8Of p).toNat = sumMod256 p
    rw [BitVec.zero_add, checksum8Of_toNat]
  · rw [List.getElem?_eq_getElem hk]
    exact Memory.read_writeRange_in hm s.base.toNat p (by omega) k hk

/-! ### The outcomes of rounds -/

/-- A first step, `n` more and a last one. -/
theorem runSteps_first_last {s s1 u t : State} {n : Nat} (hfirst : step s = .next s1) (hbody : runSteps n s1 = .next u)
    (hlast : step u = .next t) : runSteps (1 + n + 1) s = .next t := by
  rw [Nat.add_assoc, Nat.add_comm, runSteps_succ _ hfirst, runSteps_add _ _ hbody]
  exact runSteps_one hlast

/-- Settles O48: the START, then by induction the noise and the payload after the header, then the checksum byte. -/
theorem blockRoundOutcome : Obligations.BlockRoundOutcome := by
  intro s base c noise p l hI hreset hstart hb hq hn hp hl
  have hquiet : Listening (s.startRound base) := listening_startRound hreset hq
  have hbytes : (s.startRound base).link.run ((noise ++ 0x30 :: p).length + 1) = ((noise ++ 0x30 :: p) ++ [c], l) := by
    simpa [hp, s.startRound_link] using hl
  obtain ⟨l1, hl1, hlast⟩ := Link.run_append hbytes
  have hbody := runSteps_header_payload hquiet rfl hn hp.le hb hl1
  have hround : Listening (((s.startRound base).enterCollecting.storeBytes p).setLink l1) :=
    hquiet.congr rfl rfl rfl rfl (Link.closed_of_run hl1) (.inr rfl)
  obtain ⟨hcount, hsum, hin, hout⟩ := State.collected (s := s.startRound base) (p := p) (s.startRound_buf base ▸ hI.bufWf) hp.le hb
  have hrun := runSteps_first_last (step_start hreset hstart hb) hbody
    (step_chk hround rfl (hcount.trans hp) (Link.take_of_run_one hlast))
  rw [show 1 + (noise ++ 0x30 :: p).length + 1 = 1 + noise.length + 34 by simp [hp]; omega] at hrun
  refine ⟨_, hrun, rfl, rfl, ?_, fun k hk => hin k (hp ▸ hk), fun a ha => ?_⟩
  · simp only [← hsum, ← BitVec.toNat_eq]
    rfl
  · exact (hout a (hp.symm ▸ ha)).trans (by rw [s.startRound_buf])

/-- Settles O49: the START, the noise and the payload as in a whole round; then the acknowledgement byte, or EOS at the end of the stream. -/
theorem shortRoundOutcomes : Obligations.ShortRoundOutcomes := by
  refine ⟨fun s base b noise l hreset hstart hb hq hn hack hl => ?_, fun s base noise l hreset hstart hb hq hn hl hend hclosed => ?_,
    fun s base noise p l hI hreset hstart hb hq hn hlen hl hend hclosed => ?_⟩
  all_goals
    have hquiet : Listening (s.startRound base) := listening_startRound hreset hq
    have hfirst := step_start hreset hstart hb
  · obtain ⟨l1, hl1, hlast⟩ := Link.run_append hl
    have hround : Listening ((s.startRound base).setLink l1) := hquiet.congr rfl rfl rfl rfl (Link.closed_of_run hl1) (.inl rfl)
    have hrun := runSteps_first_last hfirst (runSteps_noise hquiet rfl hn hl1) (step_ack hround rfl hack (Link.take_of_run_one hlast))
    exact ⟨_, hrun, rfl, rfl, s.startRound_buf base⟩
  · have hround : Listening ((s.startRound base).setLink l) := hquiet.congr rfl rfl rfl rfl (Link.closed_of_run hl) (.inl rfl)
    have hrun := runSteps_first_last hfirst (runSteps_noise hquiet rfl hn hl) (step_eos hround rfl hend hclosed)
    exact ⟨_, hrun, rfl, rfl, rfl, rfl, rfl, s.startRound_buf base⟩
  · have hbytes : (s.startRound base).link.run (noise ++ 0x30 :: p).length = (noise ++ 0x30 :: p, l) := by
      simpa [s.startRound_link, Nat.add_assoc, Nat.add_comm 1] using hl
    have hround : Listening (((s.startRound base).enterCollecting.storeBytes p).setLink l) :=
      hquiet.congr rfl rfl rfl rfl (Link.closed_of_run hbytes) (.inr rfl)
    obtain ⟨hcount, hsum, hin, hout⟩ := State.collected (s := s.startRound base) (p := p) (s.startRound_buf base ▸ hI.bufWf) hlen hb
    have hrun := runSteps_first_last hfirst (runSteps_header_payload hquiet rfl hn hlen hb hbytes) (step_eos hround rfl hend hclosed)
    rw [show 1 + (noise ++ 0x30 :: p).length + 1 = 1 + noise.length + 1 + p.length + 1 by simp; omega] at hrun
    exact ⟨_, hrun, rfl, rfl, hcount, hsum, hin, fun a ha => (hout a ha).trans (by rw [s.startRound_buf])⟩

end Sys2Proof.Machine
end

section
/-! PROOFS. The encodings (R60-R66, R83; log 10): each reader takes off the front of its bytes exactly what its writer writes, so what decodes
at a command or call port is the encoding of an instruction. -/

namespace Sys2Proof

open Laws

/-- Settles O58: instruction by instruction, each reader reads back what its writer wrote. -/
theorem decodeEncodeAgree : Obligations.DecodeEncodeAgree := by
  intro i
  cases i with
  | hdr => exact RoundTrip.hdr
  | ack1 => exact RoundTrip.ack1
  | ackE => exact RoundTrip.ackE
  | ackF => exact RoundTrip.ackF
  | noise b => exact RoundTrip.noise b
  | data b => exact RoundTrip.data b
  | chk b => exact RoundTrip.chk b
  | eos => exact RoundTrip.eos
  | terminalHold b => exact RoundTrip.terminalHold b
  | start base => exact RoundTrip.start base
  | reset kind => exact RoundTrip.reset kind
  | cmdE => exact RoundTrip.cmdE
  | cmdF => exact RoundTrip.cmdF
  | cmdI => exact RoundTrip.cmdI
  | cmdRead idx => exact RoundTrip.cmdRead idx
  | cmdWrite idx p => exact RoundTrip.cmdWrite idx p
  | bpFlagsPack tx wrap mod bw => exact RoundTrip.bpFlagsPack tx wrap mod bw
  | bpFlagsUnpack f => exact RoundTrip.bpFlagsUnpack f
  | bpEntryEncode img r x => exact RoundTrip.bpEntryEncode img r x
  | bpEncode plan => exact RoundTrip.bpEncode plan
  | bpMagicOk img => exact RoundTrip.bpMagicOk img
  | bpEntryValid s t => exact RoundTrip.bpEntryValid s t
  | bpEntryDecode img r => exact RoundTrip.bpEntryDecode img r
  | bpDecode img => exact RoundTrip.bpDecode img
  | bpBlock img n => exact RoundTrip.bpBlock img n
  | chModePack bw mod => exact RoundTrip.chModePack bw mod
  | chModeUnpack m => exact RoundTrip.chModeUnpack m
  | chNamePack block name => exact RoundTrip.chNamePack block name
  | chNameUnpack block => exact RoundTrip.chNameUnpack block
  | chEncode c => exact RoundTrip.chEncode c
  | chDecode block => exact RoundTrip.chDecode block
  | le16PackUnpack form => exact RoundTrip.le16PackUnpack form
  | le32PackUnpack form => exact RoundTrip.le32PackUnpack form
  | checksum8 p => exact RoundTrip.checksum8 p
  | toneClassify w => exact RoundTrip.toneClassify w
  | toneCompose t => exact RoundTrip.toneCompose t
  | dcsDigits form => exact RoundTrip.dcsDigits form
  | groupUnpack g => exact RoundTrip.groupUnpack g
  | groupPack vs => exact RoundTrip.groupPack vs
  | freqFromMhz m => exact RoundTrip.freqFromMhz m
  | freqToMhz w => exact RoundTrip.freqToMhz w
  | toneToString w => exact RoundTrip.toneToString w
  | ctcssText t => exact RoundTrip.ctcssText t
  | stringToTone str => exact RoundTrip.stringToTone str
  | stringToGroup str => exact RoundTrip.stringToGroup str
  | groupToString g => exact RoundTrip.groupToString g

section
variable {bs r : List Byte}

theorem pHalf_eq_ok {v : Half} (h : pHalf bs = .ok v r) : bs = Machine.le16Pack v ++ r := by
  unfold pHalf at h
  split at h
  · cases h
    rw [Machine.le16Pack_unpack]
    rfl
  · cases h

theorem pWord_eq_ok {v : Word} (h : pWord bs = .ok v r) : bs = Machine.le32Pack v ++ r := by
  unfold pWord at h
  split at h
  · cases h
    rw [Machine.le32Pack_unpack]
    rfl
  · cases h

theorem pBytes_eq_ok {n : Nat} {p : List Byte} (h : pBytes n bs = .ok p r) : bs = p ++ r := by
  unfold pBytes at h
  split at h
  · cases h
    exact (List.take_append_drop n bs).symm
  · cases h

/-- A byte that numbers something is written as that number's byte. -/
theorem ofNat_byte (b : Byte) : BitVec.ofNat 8 b.toNat = b := (BitVec.ofNat_toNat 8 b).trans (BitVec.setWidth_eq b)

theorem pArr_eq_ok {n : Nat} {a : Arr} (h : pArr n bs = .ok a r) : bs = encodeArr a ++ r := by
  obtain ⟨tag, r1, htag, h⟩ := Parse.bind_eq_ok h
  split_ifs at h with h0 h1
  · obtain ⟨p, r2, hp, h⟩ := Parse.bind_eq_ok h
    cases h
    rw [pByte_eq_ok htag, h0, pBytes_eq_ok hp]
    rfl
  · obtain ⟨off, r2, hoff, h⟩ := Parse.bind_eq_ok h
    cases h
    rw [pByte_eq_ok htag, h1, pByte_eq_ok hoff, encodeArr, ofNat_byte]
    rfl

theorem pEntry_eq_ok {x : BPEntry} (h : pEntry bs = .ok x r) : bs = encodeEntry x ++ r := by
  obtain ⟨s, r1, hs, h⟩ := Parse.bind_eq_ok h
  obtain ⟨t, r2, ht, h⟩ := Parse.bind_eq_ok h
  obtain ⟨p, r3, hp, h⟩ := Parse.bind_eq_ok h
  obtain ⟨f, r4, hf, h⟩ := Parse.bind_eq_ok h
  cases h
  rw [pWord_eq_ok hs, pWord_eq_ok ht, pByte_eq_ok hp, pByte_eq_ok hf]
  simp only [encodeEntry, List.append_assoc, List.cons_append, List.nil_append]
  rw [Machine.bpFlagsPack_unpack]

theorem pEntries_eq_ok {n : Nat} {xs : List BPEntry} (h : pEntries n bs = .ok xs r) : bs = xs.flatMap encodeEntry ++ r := by
  induction n generalizing bs xs with
  | zero => cases h; rfl
  | succ n ih =>
    obtain ⟨x, r1, hx, h⟩ := Parse.bind_eq_ok h
    obtain ⟨ys, r2, hys, h⟩ := Parse.bind_eq_ok h
    cases h
    rw [pEntry_eq_ok hx, ih hys, List.flatMap_cons, List.append_assoc]

theorem pMode_eq_ok {m : ChMode} (h : pMode bs = .ok m r) : bs = Machine.chModePack m :: r := by
  obtain ⟨b, r1, hb, h⟩ := Parse.bind_eq_ok h
  split_ifs at h with hlt
  cases h
  rw [pByte_eq_ok hb, Machine.chModePack_unpack b hlt]

/-- A record's name runs to the end of the bytes, so nothing is left over. -/
theorem pRecord_eq_ok {c : ChRecord} (h : pRecord bs = .ok c r) : bs = encodeRecord c ++ r := by
  obtain ⟨rx, r1, hrx, h⟩ := Parse.bind_eq_ok h
  obtain ⟨tx, r2, htx, h⟩ := Parse.bind_eq_ok h
  obtain ⟨rt, r3, hrt, h⟩ := Parse.bind_eq_ok h
  obtain ⟨tt, r4, htt, h⟩ := Parse.bind_eq_ok h
  obtain ⟨pw, r5, hpw, h⟩ := Parse.bind_eq_ok h
  obtain ⟨g, r6, hg, h⟩ := Parse.bind_eq_ok h
  obtain ⟨m, r7, hm, h⟩ := Parse.bind_eq_ok h
  cases h
  rw [pWord_eq_ok hrx, pWord_eq_ok htx, pHalf_eq_ok hrt, pHalf_eq_ok htt, pByte_eq_ok hpw, pHalf_eq_ok hg, pMode_eq_ok hm]
  simp [encodeRecord]

/-- A word of the DCS pattern is composed of its two fields (R76). -/
theorem dcsWord_of_fields {w : Half} (h : w &&& 0xBE00 = 0x8000) :
    (0x8000 : Half) ||| (w.extractLsb' 0 9).setWidth 16 ||| ((w.extractLsb' 14 1).setWidth 16 <<< 14) = w := by
  apply BitVec.eq_of_getLsbD_eq
  intro i hi
  have hbit : (w &&& 0xBE00).getLsbD i = (0x8000 : Half).getLsbD i := by rw [h]
  simp only [BitVec.getLsbD_and, BitVec.getLsbD_or, BitVec.getLsbD_setWidth, BitVec.getLsbD_extractLsb', BitVec.getLsbD_shiftLeft] at hbit ⊢
  interval_cases i <;> simp_all

theorem pTone_eq_ok {t : Tone} (h : pTone bs = .ok t r) : bs = encodeTone t ++ r := by
  obtain ⟨tag, r1, htag, h⟩ := Parse.bind_eq_ok h
  split_ifs at h with h0 h1 h2
  · cases h
    rw [pByte_eq_ok htag, h0]
    rfl
  · obtain ⟨t, r2, ht, h⟩ := Parse.bind_eq_ok h
    cases h
    rw [pByte_eq_ok htag, h1, pHalf_eq_ok ht]
    rfl
  · obtain ⟨w, r2, hw, h⟩ := Parse.bind_eq_ok h
    split_ifs at h with hpat
    cases h
    rw [pByte_eq_ok htag, h2, pHalf_eq_ok hw, encodeTone, dcsWord_of_fields hpat]
    rfl

/-- A word that fits into its low bits is those bits. -/
theorem setWidth_extractLsb'_of_lt {n k : Nat} {w : BitVec n} (h : w.toNat < 2 ^ k) : (w.extractLsb' 0 k).setWidth n = w := by
  apply BitVec.eq_of_toNat_eq
  simp [Nat.mod_eq_of_lt h]

theorem pCode_eq_ok {c : BitVec 9} (h : pCode bs = .ok c r) : bs = Machine.le16Pack (c.setWidth 16) ++ r := by
  obtain ⟨w, r1, hw, h⟩ := Parse.bind_eq_ok h
  split_ifs at h with hlt
  cases h
  rw [pHalf_eq_ok hw, setWidth_extractLsb'_of_lt hlt]

theorem pOctal_eq_ok {d : BitVec 3} (h : pOctal bs = .ok d r) : bs = d.setWidth 8 :: r := by
  obtain ⟨b, r1, hb, h⟩ := Parse.bind_eq_ok h
  split_ifs at h with hlt
  cases h
  rw [pByte_eq_ok hb, setWidth_extractLsb'_of_lt hlt]

/-- A decimal runs to the end of the bytes, so nothing is left over. -/
theorem pDecimal_eq_ok {d : Decimal} (h : pDecimal bs = .ok d r) : bs = encodeDecimal d ++ r := by
  obtain ⟨point, r1, hpoint, h⟩ := Parse.bind_eq_ok h
  split_ifs at h with hend
  obtain ⟨hp, hrest⟩ := hend
  cases h
  have hint := Machine.spanDigits_eq bs
  have hfrac := Machine.spanDigits_eq r1
  rw [hrest, List.append_nil] at hfrac
  rw [pByte_eq_ok hpoint, hp] at hint
  rw [List.append_nil, encodeDecimal]
  simp only
  rw [hfrac, List.append_assoc]
  exact hint.symm

end

/-- Bytes that decode at the command port are the frame of a host command (R66). -/
theorem decodeCommand_eq_ok {bs r : List Byte} {i : Instr} (h : decodeCommand bs = .ok i r) : portOf i = .tx ∧ bs = encode i ++ r := by
  obtain ⟨c, r1, hc, h⟩ := Parse.bind_eq_ok h
  rw [pByte_eq_ok hc]
  split_ifs at h with hE hF hI hR hW
  · cases h
    exact ⟨rfl, by rw [hE]; rfl⟩
  · cases h
    exact ⟨rfl, by rw [hF]; rfl⟩
  · cases h
    exact ⟨rfl, by rw [hI]; rfl⟩
  · obtain ⟨idx, r2, hidx, h⟩ := Parse.bind_eq_ok h
    cases h
    exact ⟨rfl, by rw [hR, pByte_eq_ok hidx]; rfl⟩
  · obtain ⟨idx, r2, hidx, h⟩ := Parse.bind_eq_ok h
    obtain ⟨p, r3, hp, h⟩ := Parse.bind_eq_ok h
    obtain ⟨k, r4, hk, h⟩ := Parse.bind_eq_ok h
    split_ifs at h with hsum
    cases h
    refine ⟨rfl, ?_⟩
    rw [hW, pByte_eq_ok hidx, pBytes_eq_ok hp, pByte_eq_ok hk, hsum]
    simp [encode]

/-- Bytes that decode at a call port are the operands of a call of that name (R83d; log 10). -/
theorem decodeCall_eq_ok {op : CodecOp} {bs r : List Byte} {i : Instr} (h : decodeCall op bs = .ok i r) :
    portOf i = .call op ∧ bs = encode i ++ r := by
  cases op
  case groupPack | stringToTone | stringToGroup =>
    cases h
    exact ⟨rfl, (List.append_nil bs).symm⟩
  all_goals obtain ⟨x, r1, hx, h⟩ := Parse.bind_eq_ok h
  case bpFlagsPack =>
    cases h
    refine ⟨rfl, (pByte_eq_ok hx).trans ?_⟩
    rw [encode, Machine.bpFlagsPack_unpack]
    rfl
  case bpFlagsUnpack | chModeUnpack =>
    cases h
    exact ⟨rfl, pByte_eq_ok hx⟩
  case le16Pack | toneClassify | groupUnpack | toneToString | ctcssText | groupToString =>
    cases h
    exact ⟨rfl, pHalf_eq_ok hx⟩
  case le32Pack | freqToMhz =>
    cases h
    exact ⟨rfl, pWord_eq_ok hx⟩
  case bpMagicOk | bpDecode | chNameUnpack | chDecode | checksum8 =>
    cases h
    exact ⟨rfl, pArr_eq_ok hx⟩
  case bpEncode =>
    cases h
    exact ⟨rfl, pEntries_eq_ok hx⟩
  case chModePack =>
    cases h
    exact ⟨rfl, pMode_eq_ok hx⟩
  case chEncode =>
    cases h
    exact ⟨rfl, pRecord_eq_ok hx⟩
  case toneCompose =>
    cases h
    exact ⟨rfl, pTone_eq_ok hx⟩
  case dcsDigits =>
    cases h
    exact ⟨rfl, pCode_eq_ok hx⟩
  case freqFromMhz =>
    cases h
    exact ⟨rfl, pDecimal_eq_ok hx⟩
  case chNamePack =>
    cases h
    refine ⟨rfl, (pArr_eq_ok hx).trans ?_⟩
    rw [encode, List.append_nil]
  all_goals obtain ⟨y, r2, hy, h⟩ := Parse.bind_eq_ok h
  case bpEntryValid =>
    cases h
    refine ⟨rfl, ?_⟩
    rw [pWord_eq_ok hx, pWord_eq_ok hy, encode, List.append_assoc]
  case bpEntryDecode | bpBlock =>
    cases h
    refine ⟨rfl, ?_⟩
    rw [pArr_eq_ok hx, pByte_eq_ok hy, encode, ofNat_byte, List.append_assoc]
    rfl
  case le16Unpack =>
    cases h
    refine ⟨rfl, ?_⟩
    rw [pByte_eq_ok hx, pByte_eq_ok hy]
    rfl
  all_goals obtain ⟨z, r3, hz, h⟩ := Parse.bind_eq_ok h
  case bpEntryEncode =>
    cases h
    refine ⟨rfl, ?_⟩
    rw [pArr_eq_ok hx, pByte_eq_ok hy, pEntry_eq_ok hz, encode, ofNat_byte]
    simp
  case dcsCode =>
    cases h
    refine ⟨rfl, ?_⟩
    rw [pOctal_eq_ok hx, pOctal_eq_ok hy, pOctal_eq_ok hz]
    rfl
  case le32Unpack =>
    obtain ⟨w, r4, hw, h⟩ := Parse.bind_eq_ok h
    cases h
    refine ⟨rfl, ?_⟩
    rw [pByte_eq_ok hx, pByte_eq_ok hy, pByte_eq_ok hz, pByte_eq_ok hw]
    rfl

/-- Settles O59: what each reader takes off the bytes is what its writer writes, at the command port and at each call port. -/
theorem decodedBytesAreTheEncoding : Obligations.DecodedBytesAreTheEncoding := by
  rintro p bs rest i (rfl | ⟨op, rfl⟩) h
  · exact decodeCommand_eq_ok h
  · exact decodeCall_eq_ok h

/-- Settles O60: the decoder run on each word. -/
theorem sampleWordsDecode : Obligations.SampleWordsDecode := by
  unfold Obligations.SampleWordsDecode
  decide

end Sys2Proof
end

section
/-! PROOFS. Single instructions and single steps: when the classifier completes and when it stops, what the host commands send, and which event
a step takes (R250, R255, R264, R66). -/

namespace Sys2Proof.Machine

/-! ### The classifier -/

/-- EOS in a round that still takes bytes (R104). -/
theorem exec_eos_next {s : State} (h : s.inReady = true) : exec .eos s = .next (s.setPhase .incomplete) :=
  if_neg (by simp [terminal_of_inReady h])

/-- A terminal state takes no byte (R27). -/
theorem terminal_iff_not_inReady (s : State) : terminal s.phase = true ↔ s.inReady = false := by
  rw [inReady_eq, Bool.not_eq_false']
  rfl

/-- In a terminal state EOS changes nothing (R104). -/
theorem exec_eos_terminal {s : State} (h : terminal s.phase = true) : exec .eos s = .next s := if_pos h

/-- In a terminal state a byte presented is held (R105). -/
theorem sortByte_terminal {s : State} (h : terminal s.phase = true) (b : Byte) : sortByte s.phase s.count b = .terminalHold b := by
  cases hp : s.phase <;> simp [hp, terminal] at h <;> rfl

/-- Holding a byte changes nothing (R105). -/
theorem exec_terminalHold_next {s : State} (h : terminal s.phase = true) (b : Byte) : exec (.terminalHold b) s = .next s := if_pos h

theorem inReady_iff (s : State) : s.inReady = true ↔ s.phase = .idle ∨ s.phase = .collecting := by simp [State.inReady]

/-- In a terminal state a byte in hand is presented and stays (R105). -/
theorem step_hold {s : State} {b : Byte} {rest : List Byte} (h : terminal s.phase = true) (hl : Listening s) (hx : s.rx = b :: rest) :
    step s = .next s := by
  have hr : ¬ s.inReady = true := by simp [(terminal_iff_not_inReady s).1 h]
  rw [listening_step hl, feed, if_neg hr, hx]
  exact (congrArg (exec · s) (sortByte_terminal h b)).trans (exec_terminalHold_next h b)

/-- Settles O5: EOS and a byte by the two kinds of state, and the step that presents a byte in a terminal one. -/
theorem endOfStreamAndTerminalStates : Obligations.EndOfStreamAndTerminalStates := by
  refine ⟨fun s => ⟨fun h => exec_eos_next ((inReady_iff s).2 h), fun h1 h2 => ?_, inReady_iff s⟩, fun s b hp => ?_⟩
  · exact exec_eos_terminal (s.done_iff.2 ⟨h1, h2⟩)
  · have hterm : terminal s.phase = true := by obtain h | h | h | h := hp <;> rw [h] <;> rfl
    exact ⟨(terminal_iff_not_inReady s).1 hterm, sortByte_terminal hterm b, exec_terminalHold_next hterm b,
      fun rest hl hx => step_hold hterm hl hx⟩

/-- BUF listed address by address reads as listed. -/
theorem Memory.read_map {f : Nat → Byte} {as : List Nat} {a : Nat} (h : a ∈ as) :
    Memory.read (as.map (fun k => (k, f k))) a = some (f a) := by
  induction as with
  | nil => simp at h
  | cons k as ih =>
    rw [List.map_cons, Memory.read]
    split
    case isTrue hk => rw [hk]
    case isFalse hk => exact ih ((List.mem_cons.1 h).resolve_left fun e => hk e.symm)

/-- What BUF holds after a power-up (R34, R280; log 1). -/
theorem read_powerUpBuf (k : Nat) {a : Nat} (h : a < 224) : Memory.read (powerUpBuf k) a = some (Config.bufInit k a) :=
  Memory.read_map (List.mem_range.2 h)

/-- Settles O7: both resets begin a round at base 0, and a power-up draws BUF anew. -/
theorem resetReturnsToIdle : Obligations.ResetReturnsToIdle :=
  fun s => ⟨rfl, (s.beginRound 0).redrawBuf, rfl, rfl, powerUpBuf_wf _, fun _ ha => read_powerUpBuf s.draws ha⟩

/-- Settles O42: the registers at reset as they stand, and BUF in its form. -/
theorem resetMeetsInvariant : Obligations.ResetMeetsInvariant :=
  ⟨⟨State.reset_buf_wf, by decide, by decide, fun h => Phase.noConfusion h, fun h => absurd rfl h, fun _ => rfl, nofun, nofun⟩,
    rfl, rfl, rfl, rfl⟩

/-- In every state that meets the invariant the class of a byte completes (R100-R105, R109). -/
theorem exec_sortByte_next {s : State} (h : Inv s) (b : Byte) : ∃ t, exec (sortByte s.phase s.count b) s = .next t := by
  have hcount : s.count.toNat ≤ 32 := h.countLe
  cases hp : s.phase
  case idle =>
    obtain hn | rfl | hb := isNoise_or_named b
    · exact ⟨_, by rw [sortByte_noise _ hn, exec_noise_next hp hn]⟩
    · exact ⟨_, exec_hdr_next hp⟩
    · obtain rfl | rfl | rfl := hb
      all_goals exact ⟨_, if_pos hp⟩
  case collecting =>
    rw [← hp]
    obtain hc | hc := hcount.lt_or_eq
    · exact ⟨_, by rw [sortByte_data b hp hc, exec_data_next hp hc (h.payloadAddr_lt hc)]⟩
    · exact ⟨_, by rw [sortByte_chk b hp hc, exec_chk_next hp hc]⟩
  all_goals exact ⟨_, if_pos (by rw [hp]; rfl)⟩

/-- Settles O43: each class completes where STATE and COUNT sort a byte into it. -/
theorem classifierNeverTraps : Obligations.ClassifierNeverTraps := by
  refine fun s hI => ⟨exec_sortByte_next hI, ?_, fun base hb => ⟨_, exec_start_next hb s⟩, fun k => ?_⟩
  · cases hr : s.inReady
    · exact ⟨s, exec_eos_terminal ((terminal_iff_not_inReady s).2 hr)⟩
    · exact ⟨_, exec_eos_next hr⟩
  · cases k <;> exact ⟨_, rfl⟩

/-! ### Stops by name -/

/-- A byte class of Idle is refused elsewhere (log 12). -/
theorem inIdle_refused {s t : State} (h : s.phase ≠ .idle) : inIdle s t = .refused .wrongClass := if_neg h

theorem exec_noise_refused {s : State} {b : Byte} (h : s.phase ≠ .idle ∨ isNoise b = false) : exec (.noise b) s = .refused .wrongClass := by
  simp only [exec, execNoise]
  split
  case isTrue hn => exact inIdle_refused (h.resolve_right (by simp [hn]))
  case isFalse => rfl

/-- Outside Collecting a byte is neither payload nor checksum (log 12). -/
theorem exec_round_refused {s : State} (h : s.phase ≠ .collecting) (b : Byte) :
    exec (.data b) s = .refused .wrongClass ∧ exec (.chk b) s = .refused .wrongClass := ⟨if_neg h, if_neg h⟩

/-- DATA in Collecting, by COUNT and by the address (R62, R102, I2). -/
theorem exec_data_collecting {s : State} (h : s.phase = .collecting) (b : Byte) :
    exec (.data b) s =
      if s.count.toNat < 32 then
        if s.payloadAddr < 224 then .next (s.storePayload b) else .fault (.noSuchAddress s.payloadAddr)
      else if s.count.toNat = 32 then .refused .wrongClass else .refused .countRange := if_pos h

/-- CHK in Collecting, by COUNT (R62, R109, I2). -/
theorem exec_chk_collecting {s : State} (h : s.phase = .collecting) (b : Byte) :
    exec (.chk b) s =
      if s.count.toNat = 32 then .next (s.setPhase (if b = s.csum then .checksumOk else .checksumBad))
      else if s.count.toNat < 32 then .refused .wrongClass else .refused .countRange := if_pos h

/-- A codec call whose snapshot leaves BUF faults with an address BUF does not have (R40; log 14). -/
theorem exec_codec_fault {i : Instr} {s : State} (hm : Memory.wf s.buf = true) (h : snapshotInside i = false) :
    ∃ a, 224 ≤ a ∧ exec i s = .fault (.noSuchAddress a) := by
  cases i
  case bpEntryEncode | bpMagicOk | bpEntryDecode | bpDecode | bpBlock | chNamePack | chNameUnpack | chDecode | checksum8 =>
    exact answerArr_fault hm (by decide) h
  all_goals cases h

/-- Settles O47: each form's own test, and the snapshot that leaves BUF. -/
theorem formsThatStopByName : Obligations.FormsThatStopByName := by
  refine ⟨fun s hp i hi => ?_, fun s b => exec_noise_refused, fun s b => ⟨fun hp => exec_round_refused hp b, fun hp hc => ?_, fun hp hc => ?_,
    fun hp hc => ?_, fun hp hc ha => ?_, fun hp => if_neg ?_⟩, fun i s _ => exec_codec_fault⟩
  · simp only [List.mem_cons, List.not_mem_nil, or_false] at hi
    obtain rfl | rfl | rfl | rfl := hi
    all_goals exact inIdle_refused hp
  · rw [exec_data_collecting hp, if_neg (by omega), if_pos hc]
  · rw [exec_chk_collecting hp, if_neg (by omega), if_pos hc]
  · rw [exec_data_collecting hp, exec_chk_collecting hp]
    simp [hc.not_gt, hc.ne']
  · rw [exec_data_collecting hp, if_pos hc]
    exact if_neg (Nat.not_lt.2 ha)
  · rw [terminal_of_inReady ((inReady_iff s).2 hp)]
    decide

/-! ### Host commands -/

/-- After any command the round that counts for it is still to come, or runs (R251; log 5). -/
theorem missingAck_send (s : State) (bs : List Byte) (e : Option Phase) : (s.send bs e).missingAck = false := by
  have hdone : (s.send bs e).done = s.done := rfl
  cases hd : s.done <;> simp [State.missingAck, hdone, hd]

/-- Settles O13: the frames are what a command sends, and a missing acknowledgement is read off the round's outcome. -/
theorem hostCommandsSendTheirFrames : Obligations.HostCommandsSendTheirFrames := by
  refine ⟨fun s idx p => ⟨rfl, rfl, rfl, rfl, fun hp => ⟨checksum8Of p, checksum8Of_toNat p, ?_⟩⟩, fun i s t hi h => ?_,
    fun s => s.boundary_begun, fun s => ⟨fun ha hb => ?_, fun h => ?_⟩⟩
  · refine (execCmdWrite_next hp s).trans ?_
    simp [State.send]
  · obtain ⟨bs, e, rfl⟩ := exec_command_eq_next hi h
    exact missingAck_send s bs e
  · cases hp : s.phase <;> simp [State.missingAck, State.done, terminal, ha, hb, hp]
  · obtain h | h := h <;> simp [State.missingAck, h]

/-! ### Which event a step takes -/

/-- A frame that decodes to one instruction is that instruction. -/
theorem runFrame_ok {port : Port} {bs : List Byte} {i : Instr} (h : decode port bs = .ok i []) (s : State) : runFrame port bs s = exec i s := by
  rw [runFrame, h]

/-- Settles O44: the stream's next byte in its class, and a request whose bytes decode. -/
theorem stepRunsDecodedInstruction : Obligations.StepRunsDecodedInstruction := by
  refine ⟨fun s b l i hl hr ht hd => ?_, fun s frame rest i hserve hd => ?_, fun s op args rest i hserve hd => ?_⟩
  · cases hd
    exact feed_take hl hr ht
  · exact (serving_step hserve).trans (runFrame_ok hd _)
  · exact (serving_step hserve).trans (runFrame_ok hd _)

/-- Settles O45: the order of the tests of a step, and the order of the bytes of the link. -/
theorem eventsTakenInPriorityOrder : Obligations.EventsTakenInPriorityOrder := by
  refine ⟨fun s k hk => ?_, fun s base hreset hstart => ?_, fun s => ?_, fun s b rest hl hr hx => ?_, fun s k hl hr hx hc hm => ?_,
    fun s hl hx hc => ?_⟩
  · simp [step, advance, hk]
  · simp [step, advance, hreset, hstart]
  · obtain ⟨rx, k, heq, hrx⟩ := s.boundary_eq
    rw [s.done_iff, and_assoc] at hrx
    exact ⟨rx, k, heq, hrx⟩
  · obtain ⟨rx, line, ht, hrest⟩ := Link.take_stream (l := s.link) hx
    exact ⟨rx, line, feed_take hl hr ht, hrest⟩
  · have ht : s.link.take = _ := Link.take_more (l := s.link) hx hc
    rw [show s.link.more = some k from hm] at ht
    exact feed_take hl hr ht
  · cases hr : s.inReady
    · exact feed_eos_terminal hl hr (List.append_eq_nil_iff.1 hx).1 hc
    · exact feed_eos hl hr (Link.take_closed (l := s.link) hx hc) hc

/-- A silent round stays as it is, however long (R284; log 17). -/
theorem runSteps_silent {s : State} (h : step s = .next s) (k : Nat) : runSteps k s = .next s := by
  induction k with
  | zero => rfl
  | succ k ih => rw [runSteps_succ k h, ih]

/-- With no byte left, a round on a closed link ends Incomplete, whatever the host asks (R265, R285; log 3). -/
theorem step_ending {s : State} (h : s.ending = true) (h1 : s.resetReq = none) (h2 : s.startReq = none) (h3 : s.session.failed = false)
    (hx : s.stream = []) : step s = .next (s.setPhase .incomplete) := by
  obtain ⟨hc, hr⟩ := Bool.and_eq_true_iff.1 h
  exact step_eos (listening_of_ending h1 h2 h3 h) hr (Link.take_closed (l := s.link) hx hc) hc

/-- Settles O46: the silent round by induction, the noise by that of a round, and the end of a closed link. -/
theorem hungRoundEndsByClosingTransport : Obligations.HungRoundEndsByClosingTransport := by
  refine ⟨fun s k hl hr hx hc hm => runSteps_silent (feed_wait hl hr ?_ hc) k, fun s noise l => runSteps_noise, fun s rest hserve hr hx => ?_,
    fun s h1 h2 h3 hc hr => ?_⟩
  · have ht := Link.take_more (l := s.link) hx hc
    rwa [show s.link.more = none from hm] at ht
  · have hclose : step s = .next { s with reqs := rest, closed := true } := serving_step hserve
    obtain ⟨h1, h2, h3, -, -⟩ := hserve
    refine ⟨hclose, (runSteps_succ 1 hclose).trans (runSteps_one ?_)⟩
    exact step_ending (s := { s with reqs := rest, closed := true }) hr h1 h2 h3 hx
  · have hending : s.ending = true := Bool.and_eq_true_iff.2 ⟨hc, hr⟩
    exact ⟨listening_of_ending h1 h2 h3 hending, step_ending hending h1 h2 h3⟩

/-- Settles O51: a request is served by the host's write or read of BUF, and each of them is read after write. -/
theorem hostBufferAccessBetweenRounds : Obligations.HostBufferAccessBetweenRounds := by
  intro s a bs rest hI
  refine ⟨fun hserve hd => (serving_step hserve).trans (if_pos hd), fun hserve hd hin => ?_, fun n hserve hin => ?_⟩
  · refine ⟨_, (serving_step hserve).trans (hostWriteBuf_next (s := { s with reqs := rest }) hd hin), rfl, fun k hk => ?_,
      fun x hx => Memory.read_writeRange_out s.buf a bs hx⟩
    rw [List.getElem?_eq_getElem hk]
    exact Memory.read_writeRange_in hI.bufWf a bs hin k hk
  · obtain ⟨out, hout, hlen⟩ := Memory.readRange_isSome hI.bufWf a n hin
    refine ⟨out, (serving_step hserve).trans ?_, hlen, fun k hk => ((Memory.readRange_get hout).2 k hk).symm⟩
    simp only [serveReq, hostReadBuf, hout]
    rfl

end Sys2Proof.Machine
end

section
/-! PROOFS. The codec as a whole (R31, R253): every call completes, on operands the rules do not name too (log 29, 30, 32, 33), and a call on a
snapshot is the call on the bytes of BUF. -/

namespace Sys2Proof.Machine

/-! ### Snapshots -/

/-- The bytes of a snapshot inside BUF, address by address (R31, R42). -/
theorem arrBytes_snapshot {s : State} (hm : Memory.wf s.buf = true) {off n : Nat} (h : off + n ≤ 224) :
    ∃ bs : List Byte, bs.length = n ∧ (∀ k, k < n → Memory.read s.buf (off + k) = bs[k]?) ∧ arrBytes n (.buf off) s = some bs := by
  obtain ⟨bs, hread, hlen⟩ := Memory.readRange_isSome hm off n h
  exact ⟨bs, hlen, (Memory.readRange_get hread).2, hread⟩

/-- Settles O12: each call on an array operand is the call on the operand's bytes. -/
theorem snapshotOperandIsWhatBufHolds : Obligations.SnapshotOperandIsWhatBufHolds := by
  refine fun s hI => ⟨?_, fun off hoff => ?_, fun off hoff => ?_⟩
  · obtain ⟨img, hlen, hbytes, himg⟩ := arrBytes_snapshot hI.bufWf (off := 0) (n := 224) (by decide)
    exact ⟨img, hlen, fun k hk => by simpa using hbytes k hk, answerArr_lit himg _, answerArr_lit himg _, fun _ _ => answerArr_lit himg _,
      fun _ => answerArr_lit himg _, fun _ => answerArr_lit himg _⟩
  · obtain ⟨bs, hlen, hbytes, hbs⟩ := arrBytes_snapshot hI.bufWf hoff
    exact ⟨bs, hlen, hbytes, answerArr_lit hbs _, answerArr_lit hbs _, fun _ => answerArr_lit hbs _⟩
  · obtain ⟨bs, hlen, hbytes, hbs⟩ := arrBytes_snapshot hI.bufWf hoff
    exact ⟨bs, hlen, hbytes, answerArr_lit hbs _⟩

/-! ### Completion -/

/-- A codec call answers, but for an m too large and a snapshot that leaves BUF (R253). -/
theorem exec_codec_answers {i : Instr} {s : State} (hi : codecInstr i = true) (hm : Memory.wf s.buf = true) (hin : snapshotInside i = true)
    (hfreq : ∀ m, i = .freqFromMhz m → freqWordOf m < 2 ^ 32) : ∃ r, exec i s = .next (s.answer r) := by
  cases i
  case hdr | ack1 | ackE | ackF | noise | data | chk | eos | terminalHold | start | reset => cases hi
  case cmdE | cmdF | cmdI | cmdRead | cmdWrite => cases hi
  case bpEntryEncode | bpMagicOk | bpEntryDecode | bpDecode | bpBlock | chNamePack | chNameUnpack | chDecode | checksum8 =>
    obtain ⟨bs, hbs⟩ := arrBytes_isSome hm hin
    exact ⟨_, answerArr_next hbs⟩
  case freqFromMhz m => exact ⟨_, answers_freqFromMhz (hfreq m rfl)⟩
  case le16PackUnpack form => cases form <;> exact ⟨_, rfl⟩
  case le32PackUnpack form => cases form <;> exact ⟨_, rfl⟩
  case dcsDigits form => cases form <;> exact ⟨_, rfl⟩
  all_goals exact ⟨_, rfl⟩

/-- WRITE sends its index, a payload of 32 bytes, its own where it has 32, and their sum (R66; log 29). -/
theorem exec_cmdWrite_next (s : State) (idx : Byte) (p : List Byte) :
    exec (.cmdWrite idx p) s = .next (s.send ([0x31, idx] ++ ofLength 32 p ++ [checksum8Of (ofLength 32 p)]) (some .acknowledged)) := rfl

/-! ### Operands the rules do not name -/

/-- The name field of an encoded record, whatever bytes the name has (R164; log 30). -/
theorem byteAt_chEncode_name (c : ChRecord) {k : Nat} (h : k < 12) : byteAt (chEncode c) (20 + k) = c.name.getD k 0 := by
  obtain ⟨-, -, -, -, -, -, -, -, hname⟩ := chHead_fields c [checksum8Of (chHead c)]
  rw [chEncode_eq, hname k h, nameField_at c.name k h]

/-- A text with a byte outside ASCII is neither a NUMBER nor a DCS text, so its tone word is 0 (log 32). -/
theorem toneWordOf_not_ascii {str : List Byte} {b : Byte} (hb : b ∈ str) (h : 128 ≤ b.toNat) : toneWordOf str = 0 :=
  toneWordOf_other (fun _ _ _ hn => absurd (hn.ascii b hb) (Nat.not_lt.2 h)) (fun _ _ _ _ hd => absurd (hd.ascii b hb) (Nat.not_lt.2 h))

/-- A number of the disputed interval reads as 3000 (log 33). -/
theorem toneWordOf_disputed {str sign point : List Byte} {d : Decimal} (hn : NumberText str sign point d) (hd : DisputedTone sign d) :
    toneWordOf str = 3000 := by
  rw [toneWordOf_number hn, roundScaled_disputed hd]
  rfl

/-- What BP_ENTRY_DECODE gives back for any number, its tests over bytes and naturals (R138; log 29). -/
theorem entryAt_default_or_good {bs : List Byte} (h : bs.length = 224) (r : Nat) : entryAt bs r = bpDefault ∨
    byteAt bs 0 = 0x6D ∧ byteAt bs 1 = 0xA4 ∧ 1800000 ≤ (entryAt bs r).startWord.toNat ∧
      (entryAt bs r).startWord.toNat < (entryAt bs r).endWord.toNat ∧ (entryAt bs r).endWord.toNat ≤ 130000000 := by
  obtain hdefault | ⟨hmagic, hvalid⟩ := entryAt_cases h r
  · exact .inl hdefault
  · obtain ⟨h0, h1⟩ := (bpMagicOk_iff bs).1 hmagic
    exact .inr ⟨h0, h1, (bpEntryValid_iff _ _).1 hvalid⟩

/-- Settles O11: completion by the kind of operand, and each free or chosen result by the lemma of its function. -/
theorem codecCallsComplete : Obligations.CodecCallsComplete := by
  refine ⟨fun i s hi hI hin hfreq => exec_codec_answers hi hI.bufWf hin hfreq, fun s idx p => ?_, fun s t => ⟨⟨_, rfl⟩, _, rfl⟩,
    fun s vs => ⟨_, rfl⟩, fun s c => ⟨_, rfl, fun k => byteAt_chEncode_name c⟩, fun s str ⟨b, hb, hlarge⟩ => ⟨?_, ?_⟩,
    fun str sign point d s hn hd => answers_stringToTone.2 (toneWordOf_disputed hn hd), fun s plan => ?_, fun img bs n s hbs => ?_⟩
  · refine ⟨ofLength 32 p, _, ofLength_length 32 p, ofLength_eq, checksum8Of_toNat _, (exec_cmdWrite_next s idx p).trans ?_⟩
    simp [State.send]
  · exact answers_stringToTone.2 (toneWordOf_not_ascii hb hlarge)
  · simp only [exec, execStringToGroup, groupWordOf_ascii]
  · have hlen : (planOf plan).length = 20 := planOf_length plan
    obtain ⟨h0, h1⟩ := (bpMagicOk_iff _).1 (bpEncode_magic _ hlen)
    exact ⟨_, rfl, bpEncode_length _ hlen, h0, h1, fun a => bpEncode_tail _ hlen⟩
  · have hlen : bs.length = 224 := arrBytes_length hbs
    exact ⟨fun x => ⟨_, answerArr_next hbs, imageWithEntry_length hlen n x⟩, ⟨_, answerArr_next hbs, entryAt_default_or_good hlen n⟩,
      _, _, answerArr_next hbs, blockAt_length hlen n, checksum8Of_toNat _⟩

end Sys2Proof.Machine
end

section
/-! PROOFS. The host's sequences (R262-R272): the step at each position of a transaction, what a round's outcome leads to, and how an operation
begins, is aborted and ends. -/

namespace Sys2Proof.Machine

/-! ### The step at each position -/

theorem InTransaction.pos_eq {s : State} {p : Pos} (h : InTransaction s p) : s.session.pos = p := by
  obtain ⟨-, -, -, -, -, -, hp⟩ := h
  exact hp

/-- A transaction does not see what BUF holds. -/
theorem InTransaction.setBuf {s : State} {p : Pos} (h : InTransaction s p) (m : List Host.Cell) : InTransaction (s.setBuf m) p := h

/-- A transaction does not see what was sent. -/
theorem InTransaction.send {s : State} {p : Pos} (h : InTransaction s p) (bs : List Byte) (e : Option Phase) :
    InTransaction (s.send bs e) p := h

section
variable {s : State} {k : Txn} {n : Nat}

theorem step_hello (h : InTransaction s (.hello k)) : step s = .next ((s.send [0x45] (some .acknowledged)).setPos (.helloStart k)) := by
  rw [txn_step h nofun (.inl rfl), txnMove, h.pos_eq]
  rfl

theorem step_helloWait (h : InTransaction s (.helloWait k)) (hd : s.done = true) : step s = .next (s.setPos (afterHello k s.phase)) := by
  rw [txn_step h nofun (.inr hd), txnMove, h.pos_eq]
  exact if_pos hd

theorem step_prepare (h : InTransaction s (.prepare k n)) : step s = prepareItem k n s := by
  rw [txn_step h nofun (.inl rfl), txnMove, h.pos_eq]

theorem step_command (h : InTransaction s (.command k n)) : step s = mapNext (commandItem k n s) (fun u => u.setPos (.roundStart k n)) := by
  rw [txn_step h nofun (.inl rfl), txnMove, h.pos_eq]

/-- The host's START of the handshake round (R263). -/
theorem step_helloStart (h : InTransaction s (.helloStart k)) : step s = .next ((s.boundary.beginRound 0).setPos (.helloWait k)) := by
  rw [txn_step h nofun (.inl rfl), txnMove, h.pos_eq]
  exact congrArg (mapNext · _) (exec_start_next (by decide) s.boundary)

/-- The host's START of an item's round (R263). -/
theorem step_roundStart (h : InTransaction s (.roundStart k n)) (hb : (roundBase k n).toNat ≤ 192) :
    step s = .next ((s.boundary.beginRound (roundBase k n)).setPos (.roundWait k n)) := by
  rw [txn_step h nofun (.inl rfl), txnMove, h.pos_eq]
  exact congrArg (mapNext · _) (exec_start_next hb s.boundary)

/-- The band-plan read's last move decodes BUF (R266). -/
theorem step_harvest {img : List Byte} (h : InTransaction s .harvest) (himg : Memory.readRange s.buf 0 224 = some img) :
    step s = .next (s.setPlan (bpDecode img)).endSession := by
  rw [txn_step h nofun (.inl rfl), txnMove, h.pos_eq]
  simp only [harvestPlan, Config.bpImageLen, himg]

/-- After the last frame the band-plan read decodes BUF and is over; BUF and STATE stay (R266, R281). -/
theorem goodbye_harvest {c : Bool} {img : List Byte} (h : InTransaction s (.goodbye .bpRead c))
    (himg : Memory.readRange s.buf 0 224 = some img) :
    ∃ t, runSteps 2 s = .next t ∧ t.tx = s.tx ++ [if c then 0x49 else 0x46] ∧ t.buf = s.buf ∧
      t.handed = some { bp := bpDecode img, ch := s.session.records.ch } ∧ t.session.pos = .idle ∧ t.phase = s.phase := by
  have hrun := (runSteps_succ 1 (txn_goodbye h)).trans (runSteps_one (step_harvest ((h.send _ none).setPos .harvest) himg))
  exact ⟨_, hrun, rfl, rfl, rfl, rfl, rfl⟩

end

/-! ### Where the loops go -/

theorem nextItem_bpRead (n : Nat) : nextItem .bpRead n = if n < 6 then .command .bpRead (n + 1) else .goodbye .bpRead false := rfl

theorem nextItem_chRead (n : Nat) : nextItem .chRead n = if n < 198 then .prepare .chRead (n + 1) else .goodbye .chRead false := rfl

/-- The base of a round, over the naturals (R263). -/
theorem roundBase_toNat {k : Txn} {n : Nat} (h : k = .bpRead → n < 7) : (roundBase k n).toNat = if k = .bpRead then 32 * n else 0 := by
  cases k
  case bpRead =>
    have hn : n < 7 := h rfl
    exact (BitVec.toNat_ofNat _ 8).trans (Nat.mod_eq_of_lt (show 32 * n < 256 by omega))
  all_goals rfl

/-- The device index of an item, over the naturals (R67). -/
theorem blockIndex_toNat {k : Txn} {n : Nat} (h : k = .bpRead ∧ n < 7 ∨ k = .chRead ∧ 1 ≤ n ∧ n ≤ 198) :
    (blockIndex k n).toNat = if k = .bpRead then 208 + n else n + 1 := by
  obtain ⟨rfl, hn⟩ | ⟨rfl, -, hn⟩ := h
  · rw [if_pos rfl, Nat.add_comm]
    exact (BitVec.toNat_ofNat _ 8).trans (Nat.mod_eq_of_lt (show n + 208 < 256 by omega))
  · exact (BitVec.toNat_ofNat _ 8).trans (Nat.mod_eq_of_lt (show n + 1 < 256 by omega))

/-! ### Whole arrays in BUF -/

/-- A whole-array write reads back whole (R25). -/
theorem Memory.readRange_writeRange {m : List Host.Cell} (hm : Memory.wf m = true) {a n : Nat} {bs : List Byte} (hn : bs.length = n)
    (h : a + n ≤ 224) : Memory.readRange (Memory.writeRange m a bs) a n = some bs := by
  subst hn
  obtain ⟨out, hout, hlen⟩ := Memory.readRange_isSome (Memory.writeRange_wf hm a bs) a bs.length h
  have heq : out = bs := by
    refine List.ext_getElem hlen fun k _ hk => ?_
    have hread := (Memory.readRange_get hout).2 k hk
    rw [Memory.read_writeRange_in hm a bs h k hk, List.getElem?_eq_getElem (by omega)] at hread
    exact (Option.some.inj hread).symm
  rw [hout, heq]

/-- A byte of a whole-array write at 0 (R25). -/
theorem Memory.read_writeRange_zero {m : List Host.Cell} (hm : Memory.wf m = true) {bs : List Byte} (h : bs.length ≤ 224) {a : Nat}
    (ha : a < bs.length) : Memory.read (Memory.writeRange m 0 bs) a = bs[a]? := by
  rw [List.getElem?_eq_getElem ha, ← Memory.read_writeRange_in hm 0 bs (by omega) a ha, Nat.zero_add]

/-- A byte of zeros written at 0 (R266, R268). -/
theorem Memory.read_zeroed {m : List Host.Cell} (hm : Memory.wf m = true) {n a : Nat} (hn : n ≤ 224) (ha : a < n) :
    Memory.read (Memory.writeRange m 0 (List.replicate n 0)) a = some 0 := by
  rw [Memory.read_writeRange_zero hm (by rwa [List.length_replicate]) (by rwa [List.length_replicate]), List.getElem?_replicate_of_lt ha]

/-- An image of zeros decodes to 20 defaults, since it has no magic (R139). -/
theorem bpDecode_zeros : bpDecode (List.replicate 224 0) = List.replicate 20 bpDefault := by
  refine List.eq_replicate_iff.2 ⟨bpDecode_length _, fun x hx => ?_⟩
  obtain ⟨r, -, -, rfl⟩ := mem_bpDecode hx
  exact bpEntryDecode_of_not_magic (by decide) r

/-! ### The obligations -/

/-- A band-plan read round that fails: BUF is zeroed, and the loop is left (R266). -/
theorem step_bpRead_abort {s : State} {n : Nat} (h : InTransaction s (.roundWait .bpRead n)) (hd : s.done = true)
    (hp : bpReadAborts s.params.bpReadAck s.phase = true) :
    step s = .next ((s.setBuf (Memory.writeRange s.buf 0 (List.replicate 224 0))).setPos (.goodbye .bpRead false)) := by
  have hfit : 0 + (List.replicate 224 (0 : Byte)).length ≤ 224 := by rw [List.length_replicate]
  rw [txn_judge h hd, judgeItem, if_pos hp, hostWriteBuf_next hd hfit, mapNext_next]

/-- A band-plan read round that does not: the loop goes on (R266). -/
theorem step_bpRead_continue {s : State} {n : Nat} (h : InTransaction s (.roundWait .bpRead n)) (hd : s.done = true)
    (hp : bpReadAborts s.params.bpReadAck s.phase = false) : step s = .next (s.setPos (nextItem .bpRead n)) := by
  rw [txn_judge h hd, judgeItem, hp]
  rfl

/-- Settles O52: the judgement of the round, and after it F and the decoding of BUF. -/
theorem bandPlanReadRoundOutcomes : Obligations.BandPlanReadRoundOutcomes := by
  intro s n hI h
  refine ⟨fun hp => ?_, fun hp => ?_⟩
  · have hd : s.done = true := by obtain hp | hp | ⟨hp, -⟩ := hp <;> simp [State.done, hp, terminal]
    have habort : bpReadAborts s.params.bpReadAck s.phase = true := by
      obtain hp | hp | ⟨hp, hpol⟩ := hp <;> simp [bpReadAborts, *]
    have hjudge := step_bpRead_abort h hd habort
    have himg := Memory.readRange_writeRange hI.bufWf (a := 0) (List.length_replicate (n := 224) (a := (0 : Byte))) (by decide)
    have hzero (a : Nat) (ha : a < 224) : Memory.read (Memory.writeRange s.buf 0 (List.replicate 224 0)) a = some 0 :=
      Memory.read_zeroed hI.bufWf (by decide) ha
    generalize Memory.writeRange s.buf 0 (List.replicate 224 0) = zeroed at hjudge himg hzero
    obtain ⟨t, hrun, htx, hbuf, hhanded, hpos, hphase⟩ := goodbye_harvest ((h.setBuf zeroed).setPos (.goodbye .bpRead false)) himg
    exact ⟨t, (runSteps_succ 2 hjudge).trans hrun, htx, fun a ha => hbuf ▸ hzero a ha, bpDecode_zeros ▸ hhanded, hpos, hphase⟩
  · have hd : s.done = true := by obtain hp | ⟨hp, -⟩ := hp <;> simp [State.done, hp, terminal]
    have hgo : bpReadAborts s.params.bpReadAck s.phase = false := by
      obtain hp | ⟨hp, hpol⟩ := hp <;> simp [bpReadAborts, *]
    have hjudge := step_bpRead_continue h hd hgo
    rw [nextItem_bpRead] at hjudge
    refine ⟨fun hn => ?_, fun hn => ?_⟩
    · rw [hjudge, if_pos hn]
      rfl
    · rw [if_neg (by omega)] at hjudge
      obtain ⟨img, himg, -⟩ := Memory.readRange_isSome hI.bufWf 0 224 (by decide)
      obtain ⟨t, hrun, htx, hbuf, hhanded, hpos, hphase⟩ := goodbye_harvest (h.setPos (.goodbye .bpRead false)) himg
      exact ⟨t, bpDecode img, (runSteps_succ 2 hjudge).trans hrun, htx, hbuf, answers_bpDecode (img := .buf 0) himg, hhanded, hpos, hphase⟩

/-- Settles O53: the judgement of the round, and the row it sets. -/
theorem channelReadStoresOnlyGoodRows : Obligations.ChannelReadStoresOnlyGoodRows := by
  intro s n hI h _ _ hd
  rw [txn_judge h hd, ← nextItem_chRead]
  by_cases hp : s.phase = .checksumOk
  · obtain ⟨block, hblock, -⟩ := Memory.readRange_isSome hI.bufWf 0 33 (by decide)
    refine ⟨(s.setChannel n (chDecode block)).setPos (nextItem .chRead n), ?_, rfl, rfl, rfl, rfl, fun hne => absurd hp hne,
      fun _ => ⟨block, hblock, rfl⟩⟩
    simp only [judgeItem, hp, if_true, Config.blockLen, hblock]
  · refine ⟨s.setPos (nextItem .chRead n), ?_, rfl, rfl, rfl, rfl, fun _ => rfl, fun hok => absurd hok hp⟩
    simp only [judgeItem, hp, if_false]

/-- Settles O54: the handshake's command, and where its outcome leads. -/
theorem handshakeBeginsOrSkipsTheLoop : Obligations.HandshakeBeginsOrSkipsTheLoop := by
  refine ⟨fun s k h => ⟨_, step_hello h, rfl, rfl, rfl⟩, fun s k h hd => ⟨fun hp => ?_, fun hp => ?_⟩⟩
  · rw [step_helloWait h hd, afterHello, if_pos hp]
    cases k <;> rfl
  · have hskip := step_helloWait h hd
    rw [afterHello, if_neg hp] at hskip
    have hbye := txn_goodbye (h.setPos (.goodbye k false))
    refine ⟨_, (runSteps_succ 1 hskip).trans (runSteps_one hbye), ?_⟩
    cases k <;> simp [afterGoodbye]

/-- Settles O56: the two STARTs of the host, after the boundary. -/
theorem roundsStartAtTheirBase : Obligations.RoundsStartAtTheirBase := by
  refine ⟨fun s k n h hn => ?_, fun s k h => ?_⟩
  · have hbase := roundBase_toNat hn
    have hle : (roundBase k n).toNat ≤ 192 := by
      rw [hbase]
      split
      case isTrue hk => have := hn hk; omega
      case isFalse => exact Nat.zero_le _
    exact ⟨_, step_roundStart h hle, rfl, rfl, rfl, congrArg Block.buf s.boundary_block, s.boundary_tx, hbase, by simp⟩
  · exact ⟨_, step_helloStart h, rfl, rfl, rfl, congrArg Block.buf s.boundary_block, s.boundary_tx, rfl, by simp⟩

/-! ### What the items prepare and send -/

section
variable {s : State} {n : Nat}

/-- A band-plan write puts the image of its records into BUF (R267). -/
theorem step_prepare_bpWrite (h : InTransaction s (.prepare .bpWrite n)) (hd : s.done = true) (hlen : s.session.records.bp.length = 20) :
    step s = .next ((s.setBuf (Memory.writeRange s.buf 0 (bpEncode s.session.records.bp))).setPos (.command .bpWrite n)) := by
  have hfit : 0 + (bpEncode s.session.records.bp).length ≤ 224 := by rw [bpEncode_length _ hlen]
  rw [step_prepare h, prepareItem, hostWriteBuf_next hd hfit, mapNext_next]

/-- A channel read clears its block of BUF (R268). -/
theorem step_prepare_chRead (h : InTransaction s (.prepare .chRead n)) (hd : s.done = true) :
    step s = .next ((s.setBuf (Memory.writeRange s.buf 0 (List.replicate 33 0))).setPos (.command .chRead n)) := by
  have hfit : 0 + (List.replicate 33 (0 : Byte)).length ≤ 224 := by rw [List.length_replicate]; decide
  rw [step_prepare h, prepareItem, hostWriteBuf_next hd hfit, mapNext_next]

/-- The READ frame of an item (R66, R67). -/
theorem step_command_read {k : Txn} (h : InTransaction s (.command k n)) (hk : k = .bpRead ∨ k = .chRead) :
    step s = .next ((s.send [0x30, blockIndex k n] (some .checksumOk)).setPos (.roundStart k n)) := by
  rw [step_command h]
  obtain rfl | rfl := hk <;> rfl

/-- The WRITE frame of a band-plan block: the block of BUF's image and its checksum (R66, R267). -/
theorem step_command_bpWrite {img : List Byte} (h : InTransaction s (.command .bpWrite n)) (hn : n < 7)
    (himg : Memory.readRange s.buf 0 224 = some img) :
    step s = .next ((s.send (0x31 :: blockIndex .bpWrite n :: (bpBlockPayload img n ++ [checksum8Of (bpBlockPayload img n)]))
      (some .acknowledged)).setPos (.roundStart .bpWrite n)) := by
  have hlen : (bpBlockPayload img n).length = 32 := by
    rw [← blockAt_eq img hn]
    exact blockAt_length (Memory.readRange_get himg).1 n
  rw [step_command h]
  simp only [commandItem, Config.bpImageLen, himg]
  exact congrArg (mapNext · _) (execCmdWrite_next hlen s)

/-- The WRITE frame of a channel: its encoded record, whose last byte is the checksum of the others (R66, R166, R269). -/
theorem step_command_chWrite {x : ChRecord} (h : InTransaction s (.command .chWrite n)) (hx : s.session.records.ch[n - 1]? = some x) :
    step s = .next ((s.send (0x31 :: blockIndex .chWrite n :: chEncode x) (some .acknowledged)).setPos (.roundStart .chWrite n)) := by
  have hrow : channelRecord s n = x := by rw [channelRecord, List.getD_eq_getElem?_getD, hx, Option.getD_some]
  have hpayload : slice (chEncode x) 0 32 = chHead x := by rw [chEncode_eq, slice_head (chHead_length x)]
  rw [step_command h, commandItem, hrow, hpayload, chEncode_eq]
  exact congrArg (mapNext · _) (execCmdWrite_next (chHead_length x) s)

/-- A write round leads to the next item after Acknowledged, and to I after anything else (R267, R269). -/
theorem step_write_judged {k : Txn} (h : InTransaction s (.roundWait k n)) (hk : k = .bpWrite ∨ k = .chWrite) (hd : s.done = true) :
    step s = .next (s.setPos (if s.phase = .acknowledged then nextItem k n else .goodbye k true)) := by
  rw [txn_judge h hd]
  obtain rfl | rfl := hk <;> rfl

/-- The item after an item of a write loop, or I after the last (R267, R269). -/
theorem nextItem_write {k : Txn} (hk : k = .bpWrite ∨ k = .chWrite) (n : Nat) :
    nextItem k n = if n < (if k = .bpWrite then 6 else 198) then .command k (n + 1) else .goodbye k true := by
  obtain rfl | rfl := hk <;> rfl

end

/-- Settles O55: what each position prepares or sends, and where the judgement of a write round leads. -/
theorem itemsPrepareSendAndStop : Obligations.ItemsPrepareSendAndStop := by
  refine ⟨fun s n hI h hd => ?_, fun s n hI h hd => ?_, fun s k n h hk => ?_, fun s n hI h hn => ?_, fun s n x h _ _ hx => ?_,
    fun s k n hk h hd => ⟨fun hp => ⟨fun hn => ?_, fun hn => ?_⟩, fun hp => ?_⟩⟩
  · have hok : s.session.records.ok = true := hI.sessionOk (by rw [h.pos_eq]; nofun)
    have hlen : s.session.records.bp.length = 20 := by
      simp only [Records.ok, Bool.and_eq_true, beq_iff_eq] at hok
      obtain ⟨⟨hbp, -⟩, -⟩ := hok
      exact hbp
    have himg : (bpEncode s.session.records.bp).length = 224 := bpEncode_length _ hlen
    exact ⟨_, _, step_prepare_bpWrite h hd hlen, answers_bpEncode hlen s,
      fun a ha => Memory.read_writeRange_zero hI.bufWf himg.le (himg.symm ▸ ha), rfl, rfl⟩
  · have hprepare := step_prepare_chRead h hd
    have hzero (a : Nat) (ha : a < 33) : Memory.read (Memory.writeRange s.buf 0 (List.replicate 33 0)) a = some 0 :=
      Memory.read_zeroed hI.bufWf (by decide) ha
    have hrest (a : Nat) (ha : 33 ≤ a) : Memory.read (Memory.writeRange s.buf 0 (List.replicate 33 0)) a = Memory.read s.buf a :=
      Memory.read_writeRange_out s.buf 0 _ (.inr (by rwa [List.length_replicate, Nat.zero_add]))
    generalize Memory.writeRange s.buf 0 (List.replicate 33 0) = cleared at hprepare hzero hrest
    exact ⟨_, hprepare, hzero, hrest, rfl, rfl⟩
  · exact ⟨_, _, step_command_read h (hk.imp And.left And.left), blockIndex_toNat hk, rfl, rfl, rfl⟩
  · obtain ⟨img, himg, -⟩ := Memory.readRange_isSome hI.bufWf 0 224 (by decide)
    refine ⟨_, _, _, step_command_bpWrite h hn himg, ?_, answers_bpBlock (img := .buf 0) himg hn, rfl, rfl⟩
    simp [blockIndex, Nat.add_comm n]
  · refine ⟨_, _, step_command_chWrite h hx, ?_, rfl, rfl, rfl⟩
    simp [blockIndex]
  · rw [step_write_judged h hk hd, if_pos hp, nextItem_write hk, if_pos hn]
    rfl
  · rw [step_write_judged h hk hd, if_pos hp, nextItem_write hk, if_neg (by omega)]
    rfl
  · have hleave := step_write_judged h hk hd
    rw [if_neg hp] at hleave
    refine ⟨_, (runSteps_succ 1 hleave).trans (runSteps_one (txn_goodbye (h.setPos (.goodbye k true)))), ?_⟩
    obtain rfl | rfl := hk <;> simp [afterGoodbye]

/-! ### How an operation begins, is aborted and ends -/

/-- A transport exception is taken at once (R270). -/
theorem step_failed {s : State} (h1 : s.resetReq = none) (h2 : s.startReq = none) (h3 : s.session.failed = true) :
    step s = .next (abortTxn s) := by
  simp [step, advance, h1, h2, hostActive, h3, hostMove]

/-- With no request queued a trigger is taken (R281). -/
theorem step_want {s : State} {o : Order} (h1 : s.resetReq = none) (h2 : s.startReq = none) (h3 : s.session.failed = false)
    (h4 : s.ending = false) (h5 : s.reqs = []) (h6 : s.session.want = some o) : step s = .next (acceptTxn o s) := by
  simp [step, advance, h1, h2, hostActive, h3, h4, h5, h6, hostMove]

/-- What an exception leaves of the host's session and of the stream (R270, R281; log 19). -/
theorem abortTxn_eq (s : State) :
    (abortTxn s).session.failed = false ∧ (abortTxn s).tx = s.tx ∧ (abortTxn s).block = s.block ∧
      (abortTxn s).closed = (s.closed || inRound s) ∧
      (s.session.pos = .idle → (abortTxn s).session = { s.session with failed := false } ∧ (abortTxn s).handed = s.handed) ∧
      (s.session.pos ≠ .idle → (abortTxn s).session.pos = .idle ∧ (abortTxn s).session.records = Records.none ∧
        (abortTxn s).handed = some s.session.records) := by
  unfold abortTxn
  split
  case isTrue hb => exact ⟨rfl, rfl, rfl, rfl, fun hi => absurd hi (State.busy_eq_true.1 hb), fun _ => ⟨rfl, rfl, rfl⟩⟩
  case isFalse hb => exact ⟨rfl, rfl, rfl, rfl, fun _ => ⟨rfl, rfl⟩, fun hi => absurd (State.busy_eq_true.2 hi) hb⟩

/-- What a trigger leaves of the host's session (R272, R281; log 18). -/
theorem acceptTxn_eq (o : Order) (s : State) :
    (acceptTxn o s).block = s.block ∧ (acceptTxn o s).tx = s.tx ∧ (acceptTxn o s).handed = s.handed ∧
      (acceptTxn o s).session.want = none ∧
      (s.session.pos = .idle → (acceptTxn o s).session.pos = .hello o.txn ∧ (acceptTxn o s).session.records = o.records) ∧
      (s.session.pos ≠ .idle → (acceptTxn o s).session = { s.session with want := none }) := by
  unfold acceptTxn
  split
  case isTrue hb => exact ⟨rfl, rfl, rfl, rfl, fun hi => absurd hi (State.busy_eq_true.1 hb), fun _ => rfl⟩
  case isFalse hb => exact ⟨rfl, rfl, rfl, rfl, fun _ => ⟨rfl, rfl⟩, fun hi => absurd (State.busy_eq_true.2 hi) hb⟩

/-- Where an exception comes inside a round (R265, R270; log 19). -/
theorem inRound_iff (s : State) : inRound s = true ↔ waiting s.session.pos = true ∨ s.session.pos = .idle ∧ s.inReady = true := by
  simp [inRound]

/-- Settles O57: the exception, the trigger, the last frame and the last decoding, each by its own step. -/
theorem transactionsAbortAndExclude : Obligations.TransactionsAbortAndExclude := by
  refine ⟨fun s h1 h2 h3 => ?_, fun s o h1 h2 h3 h4 h5 h6 => ⟨_, step_want h1 h2 h3 h4 h5 h6, acceptTxn_eq o s⟩, fun s k c h => ?_,
    fun s hI h => ?_⟩
  · obtain ⟨hfailed, htx, hblock, hclosed, hidle, hbusy⟩ := abortTxn_eq s
    refine ⟨_, step_failed h1 h2 h3, hfailed, htx, hblock, hidle, hbusy, fun hin => ?_, fun hw hout => ?_⟩
    · rw [hclosed, (inRound_iff s).2 hin, Bool.or_true]
    · have hnot : inRound s = false := by
        rw [← Bool.not_eq_true, inRound_iff, hw]
        rintro (hw | ⟨hpos, hr⟩)
        · cases hw
        · exact hout.elim (fun hne => hne hpos) (fun hr' => by rw [hr] at hr'; cases hr')
      rw [hclosed, hnot, Bool.or_false]
  · refine ⟨_, txn_goodbye h, ?_⟩
    cases k <;> simp [afterGoodbye]
  · obtain ⟨img, himg, -⟩ := Memory.readRange_isSome hI.bufWf 0 224 (by decide)
    exact ⟨_, _, step_harvest h himg, answers_bpDecode (img := .buf 0) himg, rfl, rfl, rfl, rfl⟩

end Sys2Proof.Machine
end
